-- ==== Sys2Proof/Word.lean ====
section
/-! DEFINITION. The words of the unit: bytes of buffers, 32-bit port words, the port's word address. -/

namespace Sys2Proof

/-- One byte of a buffer (00_scope R15). -/
abbrev Byte := BitVec 8

/-- One 32-bit word of the port: a register image or a command word (20_memory R66, 30_encoding R90). -/
abbrev Word := BitVec 32

/-- The port's word address: bits 15:2 of a byte offset in the 64 KiB window (20_memory R66, R70). -/
abbrev PortAddr := BitVec 14

end Sys2Proof
end

