-- ==== Sys2Proof/Syntax.lean ====
section
/-! DEFINITION. The commands of the unit, one constructor per row of spec/opcode_table.json. -/

namespace Sys2Proof

/-- A command (30_encoding R91). CONCAT has one row per arity (R93); H2F carries its six selector
bits (R95). No command word carries an immediate (R92). -/
inductive Instr where
  | clr
  | hex2bytes
  | bytes2hex
  | i2osp
  | os2ip
  | concat0
  | concat1
  | concat2
  | str2bytes
  | xmd
  | h2f (ovrP ovrM ovrK ovrDst ovrExpand expandVal : Bool)
  | b2l
  | l2b
  | hex2byteints
  deriving DecidableEq, Repr

end Sys2Proof
end

