-- ==== Sys2Proof/WellFormed.lean ====
section
/-! DEFINITION. Which terms of `Instr` stand for a legal command word. -/

namespace Sys2Proof

/-- EXPAND_VAL must be 0 when OVR_EXPAND is 0, "so that every legal word has exactly one meaning"
(30_encoding R95). -/
def h2fSelectorsWf (ovrExpand expandVal : Bool) : Bool := ovrExpand || !expandVal

/-- A command that some legal word encodes (30_encoding R97). -/
def Instr.wf : Instr → Bool
  | .clr => true
  | .hex2bytes => true
  | .bytes2hex => true
  | .i2osp => true
  | .os2ip => true
  | .concat0 => true
  | .concat1 => true
  | .concat2 => true
  | .str2bytes => true
  | .xmd => true
  | .h2f _ _ _ _ ovrExpand expandVal => h2fSelectorsWf ovrExpand expandVal
  | .b2l => true
  | .l2b => true
  | .hex2byteints => true

end Sys2Proof
end

