-- ==== Sys2Proof/Decode.lean ====
section
/-! DEFINITION. The decoder of command words, total and rejecting by name, and the encoder written
from the same tables (30_encoding R90 to R99). -/

namespace Sys2Proof

/-- `OPC`, bits 7:0 of format C (30_encoding R90). -/
def opcField (w : Word) : Byte := w.extractLsb' 0 8

/-- `ARG`, bits 15:8 of format C (30_encoding R90). -/
def argField (w : Word) : Byte := w.extractLsb' 8 8

/-- `Z`, bits 31:16 of format C (30_encoding R90). -/
def zField (w : Word) : BitVec 16 := w.extractLsb' 16 16

/-- Why a word is illegal: the clause of 30_encoding R97 it breaks. -/
inductive Reject where
  /-- clause 1: bits 31:16 are not zero -/
  | zNotZero
  /-- clause 3: a bare opcode with a non-zero ARG -/
  | argNotZero
  /-- clause 4: CONCAT with ARG other than 0, 1, 2 -/
  | concatArg
  /-- clause 5: H2F with a non-zero bit among 15:14 -/
  | h2fReservedBits
  /-- clause 5: H2F with OVR_EXPAND = 0 and EXPAND_VAL = 1 -/
  | h2fExpandVal
  /-- clause 6: no such opcode -/
  | noSuchOpcode
  deriving DecidableEq, Repr

/-- What decoding a word answers. -/
inductive Decoded where
  | ok (i : Instr)
  | reject (r : Reject)
  deriving DecidableEq, Repr

/-- Clause 3 of 30_encoding R97: a bare opcode is legal iff ARG is zero. -/
def decodeBare (i : Instr) (arg : Byte) : Decoded :=
  if arg = 0 then .ok i else .reject .argNotZero

/-- Clause 4 of 30_encoding R97: CONCAT with ARITY = ARG. -/
def decodeConcat (arg : Byte) : Decoded :=
  if arg = 0 then .ok .concat0
  else if arg = 1 then .ok .concat1
  else if arg = 2 then .ok .concat2
  else .reject .concatArg

/-- Clause 5 of 30_encoding R97 with the selector bits of R95. -/
def decodeH2f (arg : Byte) : Decoded :=
  if arg.extractLsb' 6 2 ≠ 0 then .reject .h2fReservedBits
  else if h2fSelectorsWf (arg.getLsbD 4) (arg.getLsbD 5) = false then .reject .h2fExpandVal
  else .ok (.h2f (arg.getLsbD 0) (arg.getLsbD 1) (arg.getLsbD 2) (arg.getLsbD 3)
    (arg.getLsbD 4) (arg.getLsbD 5))

/-- Decoding by opcode, clauses 3 to 6 of 30_encoding R97 with the opcodes of R91. -/
def decodeOpcode (opc arg : Byte) : Decoded :=
  if opc = 0x01 then decodeBare .clr arg
  else if opc = 0x10 then decodeBare .hex2bytes arg
  else if opc = 0x11 then decodeBare .bytes2hex arg
  else if opc = 0x12 then decodeBare .i2osp arg
  else if opc = 0x13 then decodeBare .os2ip arg
  else if opc = 0x14 then decodeConcat arg
  else if opc = 0x15 then decodeBare .str2bytes arg
  else if opc = 0x20 then decodeBare .xmd arg
  else if opc = 0x30 then decodeH2f arg
  else if opc = 0x40 then decodeBare .b2l arg
  else if opc = 0x41 then decodeBare .l2b arg
  else if opc = 0x42 then decodeBare .hex2byteints arg
  else .reject .noSuchOpcode

/-- The decoder of a command word, in the order of 30_encoding R97. -/
def decode (w : Word) : Decoded :=
  if zField w ≠ 0 then .reject .zNotZero else decodeOpcode (opcField w) (argField w)

/-- The command a legal word stands for; `none` for an illegal word (30_encoding R99). -/
def decodeWord (w : Word) : Option Instr :=
  match decode w with
  | .ok i => some i
  | .reject _ => none

/-- The command that the table's `nbits` low bits `w` stand for, every higher bit zero. A command is
one 32-bit word (30_encoding R90). -/
def decodeTableWord (nbits w : Nat) : Option Instr :=
  if nbits ≤ 32 ∧ w < 2 ^ 32 then decodeWord (BitVec.ofNat 32 (w % 2 ^ nbits)) else none

/-- The opcode of a command (30_encoding R91). -/
def Instr.opc : Instr → Byte
  | .clr => 0x01
  | .hex2bytes => 0x10
  | .bytes2hex => 0x11
  | .i2osp => 0x12
  | .os2ip => 0x13
  | .concat0 => 0x14
  | .concat1 => 0x14
  | .concat2 => 0x14
  | .str2bytes => 0x15
  | .xmd => 0x20
  | .h2f _ _ _ _ _ _ => 0x30
  | .b2l => 0x40
  | .l2b => 0x41
  | .hex2byteints => 0x42

/-- One bit of a byte, set or clear. -/
def bitAt (pos : Nat) (b : Bool) : Byte := if b then 1#8 <<< pos else 0#8

/-- The argument byte of a command: ARITY for CONCAT (30_encoding R93), the selector bits for H2F
(R95), zero for every other command (R90). -/
def Instr.arg : Instr → Byte
  | .clr => 0
  | .hex2bytes => 0
  | .bytes2hex => 0
  | .i2osp => 0
  | .os2ip => 0
  | .concat0 => 0
  | .concat1 => 1
  | .concat2 => 2
  | .str2bytes => 0
  | .xmd => 0
  | .h2f p m k d e v =>
    bitAt 0 p ||| bitAt 1 m ||| bitAt 2 k ||| bitAt 3 d ||| bitAt 4 e ||| bitAt 5 v
  | .b2l => 0
  | .l2b => 0
  | .hex2byteints => 0

/-- The command word of a command: Z zero, then ARG, then OPC (30_encoding R90). -/
def encode (i : Instr) : Word := 0#16 ++ i.arg ++ i.opc

/-- The CLR word, `0x00000001` (30_encoding R91, 44_system R200). -/
def clrWord : Word := 0x00000001

end Sys2Proof
end

