-- ==== Sys2Proof/Machine/Bytes.lean ====
section
/-! DEFINITION. Number and byte helpers used by every family: big-endian byte sequences, bit
length, ceiling division, byte-wise XOR (00_scope R13 to R15, 20_memory R60). -/

namespace Sys2Proof.Machine

/-- `ceil(a / b)` for `b ≥ 1` (00_scope R13). -/
def ceilDiv (a b : Nat) : Nat := (a + b - 1) / b

/-- `bitlen(a)`: 0 for 0, else the `t` with `2^(t-1) ≤ a < 2^t` (00_scope R13). -/
def bitlen (a : Nat) : Nat := if a = 0 then 0 else Nat.log2 a + 1

/-- `os2ip`: the big-endian integer of a byte sequence (40_bytecodec R117). -/
def os2ip : List Byte → Nat
  | [] => 0
  | b :: bs => b.toNat * 256 ^ bs.length + os2ip bs

/-- The `n` big-endian bytes of `v`: byte `t` is `(v div 256^(n-1-t)) mod 256` (40_bytecodec R115). -/
def beBytes (v n : Nat) : List Byte :=
  (List.range n).map fun t => BitVec.ofNat 8 (v / 256 ^ (n - 1 - t))

/-- `a XOR b` on two byte sequences, byte by byte (00_scope R14). -/
def xorBytes (a b : List Byte) : List Byte := List.zipWith (· ^^^ ·) a b

/-- `Zero(n)` (00_scope R15). -/
def zeroBytes (n : Nat) : List Byte := List.replicate n 0

end Sys2Proof.Machine
end

