-- ==== Sys2Proof/Config.lean ====
section
/-! DEFINITION. What an instance of the unit fixes: D0's constants, the capacities, the address map, the
instance constants the spec leaves open, and the free values.
An `opaque` here has no body: no proof can learn its value. -/

namespace Sys2Proof.Config

/-! ## Constants D0 fixes (00_scope R10) -/

/-- `B_IN_BYTES`, the digest size. -/
def bInBytes : Nat := 32
/-- `R_IN_BYTES`, the block size. -/
def rInBytes : Nat := 64
/-- `ELL_MAX`. -/
def ellMax : Nat := 255
/-- `DST_MAX`. -/
def dstMax : Nat := 255
/-- `M_DEFAULT` (also 10_state R40). -/
def mDefault : Nat := 2
/-- `K_DEFAULT` (also 10_state R40). -/
def kDefault : Nat := 128
/-- `EXPAND_DEFAULT` (also 10_state R40). -/
def expandDefault : Bool := true

/-! ## Capacities (00_scope R12; 92 D6) -/

/-- The capacity parameters of one instance (00_scope R12), "taken as arguments" (10_state R22, 93 U13).
Widths are in bits. -/
structure Capacities where
  /-- `MSG_MAX`, bytes of MSG -/
  msgMax : Nat
  /-- `OUT_MAX`, bytes of OUT -/
  outMax : Nat
  /-- `ELEM_MAX`, entries of ELEM -/
  elemMax : Nat
  /-- `PW`, the width of P_OVR -/
  pw : Nat
  /-- `EW`, the width of one ELEM entry -/
  ew : Nat
  /-- `NMAX`, the largest limb width -/
  nMax : Nat
  /-- `KMAX`, the largest limb count -/
  kMax : Nat
  /-- `XW`, the width of BIGX -/
  xw : Nat
  deriving DecidableEq, Repr

/-- The defaults of 00_scope R12. -/
def defaultCaps : Capacities where
  msgMax := 8192
  outMax := 8192
  elemMax := 256
  pw := 384
  ew := 384
  nMax := 64
  kMax := 16
  xw := 1024

/-! ## The address map (20_memory R70), byte offsets in the 64 KiB window -/

def bigxBase : Nat := 0x0100
def bigxEnd : Nat := 0x0180
def pOvrBase : Nat := 0x0180
def pOvrEnd : Nat := 0x01B0
def dstbBase : Nat := 0x0200
/-- The byte at 0x2FF does not exist (10_state R46). -/
def dstbEnd : Nat := 0x02FF
def msgBase : Nat := 0x1000
def msgEnd : Nat := 0x3000
def outBase : Nat := 0x3000
def outEnd : Nat := 0x5000
def elemBase : Nat := 0x8000
def elemEnd : Nat := 0xC000
/-- Bytes from one ELEM entry to the next (10_state R43). -/
def elemStride : Nat := 64

/-! ## Instance constants the spec leaves open (00_scope R11; 92 D14, D15; 93 U9, U10, U11) -/

/-- A value that R11 admits for `P_DEFAULT`: "natural number, prime, bit-length 381". -/
structure DefaultModulus where
  value : Nat
  low : 2 ^ 380 ≤ value
  high : value < 2 ^ 381
  prime : Nat.Prime value

/-- Bertrand's postulate: there is a prime of 381 bits. -/
theorem exists_prime_of_381_bits : ∃ p, 2 ^ 380 ≤ p ∧ p < 2 ^ 381 ∧ Nat.Prime p := by
  obtain ⟨p, hp, h1, h2⟩ := Nat.exists_prime_lt_and_le_two_mul (2 ^ 380) (by positivity)
  refine ⟨p, h1.le, lt_of_le_of_ne (h2.trans_eq (pow_succ' 2 380).symm) ?_, hp⟩
  rintro rfl
  exact Nat.Prime.not_prime_pow (by norm_num) hp

/-- The least of them: it shows that `DefaultModulus` has a value and is used for nothing else. -/
def leastDefaultModulus : DefaultModulus where
  value := Nat.find exists_prime_of_381_bits
  low := (Nat.find_spec exists_prime_of_381_bits).1
  high := (Nat.find_spec exists_prime_of_381_bits).2.1
  prime := (Nat.find_spec exists_prime_of_381_bits).2.2

/-- This instance's default modulus, some prime of 381 bits. -/
opaque defaultModulus [Inhabited DefaultModulus] : DefaultModulus

/-- `P_DEFAULT`. -/
def pDefault : Nat := (@defaultModulus ⟨leastDefaultModulus⟩).value

/-- Bytes from which this instance's `DST_DEFAULT` is cut. -/
opaque dstDefaultBytes : List Byte

/-- `DST_DEFAULT`: a byte sequence of length at most 255. -/
def dstDefault : List Byte := dstDefaultBytes.take 255

/-- `DIGEST_PRESENT`. -/
opaque digestPresent : Bool

/-- The constants of one instance of the unit, "fixed before reset and never changed" (10_state R22).
They travel in `State` so that a statement about every state is one about every instance (log 6). -/
structure Params where
  pDefault : Nat
  dstDefault : List Byte
  digestPresent : Bool
  caps : Capacities
  deriving DecidableEq, Repr

/-- The instance that `State.reset` describes: DESIGN CHOICE, the default capacities, for which the
address map of 20_memory R70 is drawn (log 7). -/
def instanceParams : Params := ⟨pDefault, dstDefault, digestPresent, defaultCaps⟩

/-! ## Free values (10_state R43, R47, R55, R56; 93 U3, U4, U5; log 3) -/

/-- The unspecified byte that draw `d` leaves at an index of MSG. -/
opaque freeMsgByte : (d index : Nat) → Byte

/-- The unspecified byte that draw `d` leaves at an index of DSTB. -/
opaque freeDstByte : (d index : Nat) → Byte

/-- The unspecified byte that draw `d` leaves at an index of OUT. -/
opaque freeOutByte : (d index : Nat) → Byte

/-- The unspecified number that draw `d` leaves in an entry of ELEM, cut to the entry's width where it
is read. -/
opaque freeElem : (d index : Nat) → Nat

/-- The unspecified word a host read of the running command's destination returns (20_memory R77). -/
opaque freeWord : (d offset : Nat) → Word

/-- The unspecified value of BIGX after a reset (10_state R42, R55), cut to the register's width. -/
opaque freeBigx : (d : Nat) → Nat

/-- The unspecified value of P_OVR after a reset (10_state R41, R55), cut to the register's width. -/
opaque freePOvr : (d : Nat) → Nat

end Sys2Proof.Config
end

