-- ==== Sys2Proof/Machine/State.lean ====
section
/-! DEFINITION. The state of the unit as plain data, the errors it reports, the reasons a step of the
model can stop, and the state after reset. -/

namespace Sys2Proof.Machine

/-- `PHASE` (10_state R24). -/
inductive Phase where
  | idle
  | busy
  | done
  | err
  deriving DecidableEq, Repr

/-- The cause of an OperandRange error, one constructor per sub-code of 60_exceptions R233. -/
inductive RangeCause where
  | msgLen
  | dstLen
  | outCapacity
  | elemCount
  | os2ipLen
  | codePoint
  | modulusZero
  | degreeZero
  | limbWidth
  | limbCount
  | limbTooLarge
  | notPreExpanded
  deriving DecidableEq, Repr

/-- An error of a command or of the CMD write, with the data its ERRINFO reports (60_exceptions R231,
R232). -/
inductive CmdError where
  | malformedHexOdd
  | malformedHexAt (index : Nat)
  | integerRangeValue
  | integerRangeTag
  | lengthTooLarge (ell : Nat)
  | capacityOverflow
  | missingDigestBackend
  | operandRange (cause : RangeCause)
  | illegalCommand (w : Word)
  deriving DecidableEq, Repr

/-- One turn of an agent (10_state R20): a host access to the port, the sequencer, the digest engine,
or an edge of the reset input `rst` (70_reset R260). -/
inductive Turn where
  | write (addr : PortAddr) (data : Word)
  | read (addr : PortAddr)
  | sequencer
  | engine
  /-- `rst` becomes asserted -/
  | reset
  /-- `rst` is released -/
  | release
  deriving DecidableEq, Repr

/-- The hidden state of a running expansion (10_state R50). -/
structure Chain where
  /-- `DSTP` -/
  dstp : List Byte
  /-- `ELL` -/
  ell : Nat
  /-- `CHAIN_I` (10_state R25) -/
  idx : Nat
  /-- `B0`, empty until its response has come -/
  b0 : List Byte
  /-- `BPREV`, the latest `b[i]`, empty until there is one -/
  bprev : List Byte
  /-- the bytes of `b[1]`, `b[2]`, … received so far -/
  blocks : List Byte
  deriving DecidableEq, Repr

/-- Storage by index, sparse: the indices that hold a specified value with that value, rising. An index
not listed holds an unspecified value (10_state R55, R56). A buffer is a list of `Host.Cell`. -/
abbrev Memory (α : Type) := List (Nat × α)

/-- The whole state of one unit. -/
structure State where
  /-- instance constants, changed by no step (10_state R22, R40) -/
  cfg : Config.Params
  /-- the reset input `rst`: is it asserted (70_reset R260)? -/
  rst : Bool
  phase : Phase
  /-- STATUS.OVR (10_state R31) -/
  ovr : Bool
  /-- ERRCODE bits 3:0 (10_state R32) -/
  errCode : BitVec 4
  errInfo : Word
  /-- IE bits 1:0: bit 0 IE_DONE, bit 1 IE_ERR (10_state R34) -/
  ie : BitVec 2
  /-- CMD_LAST (10_state R30); in phase BUSY the word of the running command -/
  cmdLast : Word
  msgLen : Word
  dstLen : Word
  lenArg : Word
  count : Word
  mOvr : Word
  kOvr : Word
  limbN : Word
  limbK : Word
  outLen : Word
  elemCnt : Word
  /-- BIGX, a natural number below `2^XW` (10_state R42, 00_scope R14) -/
  bigx : Nat
  /-- P_OVR, a natural number below `2^PW` (10_state R41, 00_scope R14) -/
  pOvr : Nat
  /-- MSG by byte index (10_state R45) -/
  msgMem : Memory Byte
  /-- DSTB by byte index (10_state R46) -/
  dstMem : Memory Byte
  /-- OUT by byte index (10_state R47) -/
  outMem : Memory Byte
  /-- ELEM by entry index, each a natural number below `2^EW` (10_state R43) -/
  elemMem : Memory Nat
  /-- hidden state of the running expansion; `none` when there is none (10_state R50, R55) -/
  chain : Option Chain
  /-- the outstanding digest request (60_exceptions R245) -/
  digestReq : Option (List Byte)
  /-- the digest response not yet taken by the sequencer (41 R149) -/
  digestResp : Option (List Byte)
  /-- the turns still to come (log 1) -/
  inputs : List Turn
  /-- what the port returned at the latest host read (log 10) -/
  rdata : Word
  /-- the number of the next free value to be drawn (log 3) -/
  draws : Nat
  /-- the draw that unspecified bytes of MSG and DSTB hold -/
  bootDraw : Nat
  /-- the draw that unspecified bytes of OUT hold -/
  outDraw : Nat
  /-- the draw that unspecified entries of ELEM hold -/
  elemDraw : Nat
  deriving DecidableEq, Repr

/-- Reasons a step stops with a fault. The spec gives the machine none: every error of the unit is a
next state in phase ERR (60_exceptions R236). -/
inductive Fault where
  /-- Raised by the sequencer's turn when PHASE is BUSY and CMD_LAST holds no legal command, which no
  run from reset reaches (log 12). Safe. -/
  | busyWithoutCommand
  deriving DecidableEq, Repr

/-- Reasons a step has no meaning. -/
inductive Refusal where
  /-- Raised by `exec` for a command without a meaning; no arm uses it. Safe. -/
  | notModelled (mnemonic : String)
  deriving DecidableEq, Repr

/-- The state at the release of `rst` (10_state R55, 70_reset R260), for an instance with constants
`cfg`, whose unspecified storage holds draw `d`. -/
def State.resetWith (cfg : Config.Params) (d : Nat) : State where
  cfg := cfg
  rst := false
  phase := .idle
  ovr := false
  errCode := 0
  errInfo := 0
  ie := 0
  cmdLast := 0
  msgLen := 0
  dstLen := 0
  lenArg := 0
  count := 0
  mOvr := 0
  kOvr := 0
  limbN := 0
  limbK := 0
  outLen := 0
  elemCnt := 0
  bigx := Config.freeBigx d % 2 ^ cfg.caps.xw
  pOvr := Config.freePOvr d % 2 ^ cfg.caps.pw
  msgMem := []
  dstMem := []
  outMem := []
  elemMem := []
  chain := none
  digestReq := none
  digestResp := none
  inputs := []
  rdata := 0
  draws := d + 1
  bootDraw := d
  outDraw := d
  elemDraw := d

/-- The machine right after reset (10_state R55): nothing runs until the host writes CMD. BIGX and
P_OVR hold the opaque draw 0 (log 4); no index of storage is listed (log 5). -/
def State.reset : State := State.resetWith Config.instanceParams 0

end Sys2Proof.Machine
end

