-- ==== Sys2Proof/Machine/Flags.lean ====
section
/-! DEFINITION. The images of the status and control registers, the interrupt line, and the codes of
errors (10_state R31 to R35, 60_exceptions R231 to R233, R240). -/

namespace Sys2Proof.Machine

/-- STATUS (10_state R31): bit 0 BUSY, bit 1 DONE, bit 2 ERR, bit 3 OVR. -/
def statusWord (s : State) : Word :=
  (if s.phase = .busy then 0x1 else 0) ||| (if s.phase = .done then 0x2 else 0) |||
  (if s.phase = .err then 0x4 else 0) ||| (if s.ovr then 0x8 else 0)

/-- CAPS (10_state R35): bit 0 is DIGEST_PRESENT. -/
def capsWord (s : State) : Word := if s.cfg.digestPresent then 1 else 0

/-- The interrupt line (60_exceptions R240), from STATUS and IE alone. -/
def irq (s : State) : Bool :=
  ((statusWord s).getLsbD 1 && s.ie.getLsbD 0) || ((statusWord s).getLsbD 2 && s.ie.getLsbD 1)

/-- The sub-codes of OperandRange (60_exceptions R233). -/
def RangeCause.subCode : RangeCause → Word
  | .msgLen => 1
  | .dstLen => 2
  | .outCapacity => 3
  | .elemCount => 4
  | .os2ipLen => 5
  | .codePoint => 6
  | .modulusZero => 7
  | .degreeZero => 8
  | .limbWidth => 9
  | .limbCount => 10
  | .limbTooLarge => 11
  | .notPreExpanded => 12

/-- The code of an error's kind (60_exceptions R231). -/
def CmdError.code : CmdError → BitVec 4
  | .malformedHexOdd => 1
  | .malformedHexAt _ => 1
  | .integerRangeValue => 2
  | .integerRangeTag => 2
  | .lengthTooLarge _ => 3
  | .capacityOverflow => 4
  | .missingDigestBackend => 5
  | .operandRange _ => 6
  | .illegalCommand _ => 7

/-- The ERRINFO of an error (60_exceptions R232); `ell` saturates at `2^32 - 1`. -/
def CmdError.info : CmdError → Word
  | .malformedHexOdd => 0xFFFFFFFF
  | .malformedHexAt index => BitVec.ofNat 32 index
  | .integerRangeValue => 0
  | .integerRangeTag => 1
  | .lengthTooLarge ell => BitVec.ofNat 32 (min ell (2 ^ 32 - 1))
  | .capacityOverflow => 0
  | .missingDigestBackend => 0
  | .operandRange cause => cause.subCode
  | .illegalCommand w => w

end Sys2Proof.Machine
end

