-- ==== Sys2Proof/Machine/Sha256.lean ====
section
/-! DEFINITION. The digest primitive `H` = SHA-256 (45_sha256 R215 to R222). The spec names the
primitive from its source and gives its body from general knowledge (log 8). -/

namespace Sys2Proof.Machine

/-- `ROTR_n` (45_sha256 R216). -/
def rotr (n : Nat) (x : Word) : Word := (x >>> n) ||| (x <<< (32 - n))

/-- `Ch` (45_sha256 R217). -/
def shaCh (x y z : Word) : Word := (x &&& y) ^^^ (~~~x &&& z)

/-- `Maj` (45_sha256 R217). -/
def shaMaj (x y z : Word) : Word := (x &&& y) ^^^ (x &&& z) ^^^ (y &&& z)

/-- `BSIG0` (45_sha256 R217). -/
def bsig0 (x : Word) : Word := rotr 2 x ^^^ rotr 13 x ^^^ rotr 22 x

/-- `BSIG1` (45_sha256 R217). -/
def bsig1 (x : Word) : Word := rotr 6 x ^^^ rotr 11 x ^^^ rotr 25 x

/-- `SSIG0` (45_sha256 R217). -/
def ssig0 (x : Word) : Word := rotr 7 x ^^^ rotr 18 x ^^^ (x >>> 3)

/-- `SSIG1` (45_sha256 R217). -/
def ssig1 (x : Word) : Word := rotr 17 x ^^^ rotr 19 x ^^^ (x >>> 10)

/-- The round constants `K[0] … K[63]` (45_sha256 R218), in eight lines of eight. -/
def shaK : List Word :=
  [0x428a2f98, 0x71374491, 0xb5c0fbcf, 0xe9b5dba5, 0x3956c25b, 0x59f111f1, 0x923f82a4, 0xab1c5ed5] ++
  [0xd807aa98, 0x12835b01, 0x243185be, 0x550c7dc3, 0x72be5d74, 0x80deb1fe, 0x9bdc06a7, 0xc19bf174] ++
  [0xe49b69c1, 0xefbe4786, 0x0fc19dc6, 0x240ca1cc, 0x2de92c6f, 0x4a7484aa, 0x5cb0a9dc, 0x76f988da] ++
  [0x983e5152, 0xa831c66d, 0xb00327c8, 0xbf597fc7, 0xc6e00bf3, 0xd5a79147, 0x06ca6351, 0x14292967] ++
  [0x27b70a85, 0x2e1b2138, 0x4d2c6dfc, 0x53380d13, 0x650a7354, 0x766a0abb, 0x81c2c92e, 0x92722c85] ++
  [0xa2bfe8a1, 0xa81a664b, 0xc24b8b70, 0xc76c51a3, 0xd192e819, 0xd6990624, 0xf40e3585, 0x106aa070] ++
  [0x19a4c116, 0x1e376c08, 0x2748774c, 0x34b0bcb5, 0x391c0cb3, 0x4ed8aa4a, 0x5b9cca4f, 0x682e6ff3] ++
  [0x748f82ee, 0x78a5636f, 0x84c87814, 0x8cc70208, 0x90befffa, 0xa4506ceb, 0xbef9a3f7, 0xc67178f2]

/-- The eight working variables `a … h`, also the eight hash values `HV[0] … HV[7]` (45_sha256 R221). -/
structure ShaVars where
  a : Word
  b : Word
  c : Word
  d : Word
  e : Word
  f : Word
  g : Word
  h : Word
  deriving DecidableEq, Repr

/-- The initial hash value (45_sha256 R219). -/
def shaInit : ShaVars :=
  ⟨0x6a09e667, 0xbb67ae85, 0x3c6ef372, 0xa54ff53a, 0x510e527f, 0x9b05688c, 0x1f83d9ab, 0x5be0cd19⟩

/-- A message with its padding (45_sha256 R220): `80`, then `(55 - len) mod 64` zero bytes, then the
length in bits as eight big-endian bytes. -/
def shaPad (s : List Byte) : List Byte :=
  s ++ [0x80] ++ zeroBytes ((119 - s.length % 64) % 64) ++ beBytes (8 * s.length) 8

/-- The first `n` 64-byte blocks of a byte sequence. -/
def shaBlocks : (n : Nat) → List Byte → List (List Byte)
  | 0, _ => []
  | n + 1, s => s.take 64 :: shaBlocks n (s.drop 64)

/-- The sixteen big-endian words of a block (45_sha256 R216, R221). -/
def shaWords : (n : Nat) → List Byte → List Word
  | 0, _ => []
  | n + 1, s => BitVec.ofNat 32 (os2ip (s.take 4)) :: shaWords n (s.drop 4)

/-- The words `W[t+n-1], …, W[t]` in front of the reversed schedule `W[t-1], …, W[0]` (45_sha256 R221). -/
def shaExtend : (n : Nat) → List Word → List Word
  | 0, ws => ws
  | n + 1, ws =>
    shaExtend n ((ssig1 (ws.getD 1 0) + ws.getD 6 0 + ssig0 (ws.getD 14 0) + ws.getD 15 0) :: ws)

/-- The schedule `W[0] … W[63]` of a block (45_sha256 R221). -/
def shaSchedule (block : List Byte) : List Word :=
  (shaExtend 48 (shaWords 16 block).reverse).reverse

/-- One round (45_sha256 R221). -/
def shaRound (v : ShaVars) (k w : Word) : ShaVars :=
  let t1 := v.h + bsig1 v.e + shaCh v.e v.f v.g + k + w
  let t2 := bsig0 v.a + shaMaj v.a v.b v.c
  ⟨t1 + t2, v.a, v.b, v.c, v.d + t1, v.e, v.f, v.g⟩

/-- The rounds of a block, round constants and schedule words side by side (45_sha256 R221). -/
def shaRounds : List (Word × Word) → ShaVars → ShaVars
  | [], v => v
  | (k, w) :: kws, v => shaRounds kws (shaRound v k w)

/-- The compression of one block into the hash value (45_sha256 R221). -/
def shaCompress (hv : ShaVars) (block : List Byte) : ShaVars :=
  let v := shaRounds (shaK.zip (shaSchedule block)) hv
  ⟨hv.a + v.a, hv.b + v.b, hv.c + v.c, hv.d + v.d, hv.e + v.e, hv.f + v.f, hv.g + v.g, hv.h + v.h⟩

/-- The hash value as 32 bytes, `HV[0]` first, each word big-endian (45_sha256 R222). -/
def shaOutput (v : ShaVars) : List Byte :=
  [v.a, v.b, v.c, v.d, v.e, v.f, v.g, v.h].flatMap fun x => beBytes x.toNat 4

/-- `H(s)` = SHA-256 (45_sha256 R215, R220 to R222). -/
def sha256 (s : List Byte) : List Byte :=
  let p := shaPad s
  shaOutput ((shaBlocks (p.length / 64) p).foldl shaCompress shaInit)

end Sys2Proof.Machine
end

