-- ==== Sys2Proof/Machine/Ops.lean ====
section
/-! DEFINITION. The named operations over memory and registers: reading and writing storage, the host
port, the destinations of a command, acceptance, completion, error entry, the digest engine, reset. -/

namespace Sys2Proof.Machine

/-! ## Storage -/

/-- The specified value listed at an index, if any. -/
def Memory.get? {α : Type} : Memory α → Nat → Option α
  | [], _ => none
  | (b, v) :: m, a => if a = b then some v else Memory.get? m a

/-- Storage with the value at one index written. -/
def Memory.put {α : Type} : Memory α → Nat → α → Memory α
  | [], a, v => [(a, v)]
  | (b, w) :: m, a, v =>
    if a < b then (a, v) :: (b, w) :: m
    else if a = b then (a, v) :: m
    else (b, w) :: Memory.put m a v

/-- Storage that lists these values at consecutive indices from one. -/
def cellsFrom {α : Type} : Nat → List α → Memory α
  | _, [] => []
  | a, v :: vs => (a, v) :: cellsFrom (a + 1) vs

/-- The canonical form: indices strictly rising. An unlisted index has no listed value, so no entry can
equal what an unlisted index reads as (log 5). -/
abbrev Memory.wf {α : Type} (m : Memory α) : Prop := m.Pairwise fun c d => c.1 < d.1

/-- `MSG[t]`: the specified byte, or the free value an unspecified one holds (10_state R45, R56). -/
def State.msgByte (s : State) (t : Nat) : Byte :=
  (Memory.get? s.msgMem t).getD (Config.freeMsgByte s.bootDraw t)

/-- `DSTB[t]` (10_state R46, R56). -/
def State.dstByte (s : State) (t : Nat) : Byte :=
  (Memory.get? s.dstMem t).getD (Config.freeDstByte s.bootDraw t)

/-- `OUT[t]` (10_state R47, R56). -/
def State.outByte (s : State) (t : Nat) : Byte :=
  (Memory.get? s.outMem t).getD (Config.freeOutByte s.outDraw t)

/-- `ELEM[e]` (10_state R43, R56). -/
def State.elem (s : State) (e : Nat) : Nat :=
  (Memory.get? s.elemMem e).getD (Config.freeElem s.elemDraw e % 2 ^ s.cfg.caps.ew)

/-! ## Destinations: storage that stops being specified -/

/-- `OUT_LEN <- 0`, and with it every byte of OUT unspecified (10_state R37, R47; log 14). -/
def emptyOut (s : State) : State :=
  { s with
    outLen := 0
    outMem := []
    outDraw := s.draws
    draws := s.draws + 1 }

/-- `ELEM_CNT <- 0`, and with it every entry of ELEM unspecified (10_state R38, R43; log 14). -/
def emptyElem (s : State) : State :=
  { s with
    elemCnt := 0
    elemMem := []
    elemDraw := s.draws
    draws := s.draws + 1 }

/-- Does the command target OUT (44_system R201)? -/
def targetsOut : Instr → Bool
  | .clr => false
  | .hex2bytes => true
  | .bytes2hex => true
  | .i2osp => true
  | .os2ip => false
  | .concat0 => true
  | .concat1 => true
  | .concat2 => true
  | .str2bytes => true
  | .xmd => true
  | .h2f _ _ _ _ _ _ => true
  | .b2l => false
  | .l2b => false
  | .hex2byteints => false

/-- Does the command target ELEM (44_system R201)? -/
def targetsElem : Instr → Bool
  | .clr => false
  | .hex2bytes => false
  | .bytes2hex => false
  | .i2osp => false
  | .os2ip => false
  | .concat0 => false
  | .concat1 => false
  | .concat2 => false
  | .str2bytes => false
  | .xmd => false
  | .h2f _ _ _ _ _ _ => true
  | .b2l => true
  | .l2b => false
  | .hex2byteints => true

/-- Does the command target BIGX (44_system R201)? -/
def targetsBigx : Instr → Bool
  | .clr => false
  | .hex2bytes => false
  | .bytes2hex => false
  | .i2osp => false
  | .os2ip => true
  | .concat0 => false
  | .concat1 => false
  | .concat2 => false
  | .str2bytes => false
  | .xmd => false
  | .h2f _ _ _ _ _ _ => false
  | .b2l => false
  | .l2b => true
  | .hex2byteints => false

/-- The destinations of a command marked empty (44_system R201, R203). -/
def emptyDests (i : Instr) (s : State) : State :=
  let s := if targetsOut i then emptyOut s else s
  if targetsElem i then emptyElem s else s

/-- The hidden state of an expansion gone (10_state R50). -/
def dropHidden (s : State) : State :=
  { s with chain := none, digestReq := none, digestResp := none }

/-! ## Error entry, acceptance, completion, CLR -/

/-- Error entry, `raise Kind(info)` (60_exceptions R236): PHASE, ERRCODE and ERRINFO, and nothing
else. -/
def raiseError (e : CmdError) (s : State) : State :=
  { s with phase := .err, errCode := e.code, errInfo := e.info }

/-- The end of a running command by `raise` (44_system R203): its destinations stay empty, the hidden
state is gone, and error entry happens. -/
def failCommand (i : Instr) (e : CmdError) (s : State) : State :=
  raiseError e (dropHidden (emptyDests i s))

/-- The return from phase ERR and the acknowledgement of a result, CLR (44_system R205,
60_exceptions R239). -/
def clearStatus (s : State) : State :=
  emptyOut { s with phase := .idle, errCode := 0, errInfo := 0, ovr := false }

/-- Acceptance of a command other than CLR (44_system R201), with `CMD_LAST <- w` (R200). -/
def accept (i : Instr) (w : Word) (s : State) : State :=
  dropHidden (emptyDests i { s with cmdLast := w, phase := .busy, errCode := 0, errInfo := 0 })

/-- Successful completion (44_system R202): PHASE becomes DONE and the hidden state is gone. -/
def complete (s : State) : State := dropHidden { s with phase := .done }

/-- Completion with a byte sequence in OUT (10_state R37). -/
def finishOut (i : Instr) (bs : List Byte) (s : State) : State :=
  complete { emptyDests i s with outMem := cellsFrom 0 bs, outLen := BitVec.ofNat 32 bs.length }

/-- Completion with a sequence of integers in ELEM (10_state R38). -/
def finishElem (i : Instr) (vs : List Nat) (s : State) : State :=
  complete { emptyDests i s with elemMem := cellsFrom 0 vs, elemCnt := BitVec.ofNat 32 vs.length }

/-- Completion with an integer in BIGX (10_state R42). -/
def finishBigx (i : Instr) (v : Nat) (s : State) : State :=
  complete { emptyDests i s with bigx := v }

/-! ## The host port -/

/-- The window offset is a byte of DSTB (10_state R46). -/
def inDstb (a : Nat) : Bool := decide (Config.dstbBase ≤ a) && decide (a < Config.dstbEnd)

/-- The window offset is a byte of MSG (10_state R45; log 7). -/
def inMsg (c : Config.Capacities) (a : Nat) : Bool :=
  decide (Config.msgBase ≤ a) && decide (a < Config.msgEnd) && decide (a - Config.msgBase < c.msgMax)

/-- The window offset is a byte of OUT (10_state R47; log 7). -/
def inOut (c : Config.Capacities) (a : Nat) : Bool :=
  decide (Config.outBase ≤ a) && decide (a < Config.outEnd) && decide (a - Config.outBase < c.outMax)

/-- The entry of ELEM whose slot holds a window offset (10_state R43). -/
def elemIndex (a : Nat) : Nat := (a - Config.elemBase) / Config.elemStride

/-- The word of its slot that a window offset in ELEM addresses (10_state R43). -/
def elemWordIndex (a : Nat) : Nat := a % Config.elemStride / 4

/-- The window offset is in a word of an ELEM entry's value, by default words 0 to 11 of its slot
(10_state R43; log 7). -/
def inElem (c : Config.Capacities) (a : Nat) : Bool :=
  decide (Config.elemBase ≤ a) && decide (a < Config.elemEnd) &&
    decide (elemIndex a < c.elemMax) && decide (32 * elemWordIndex a < c.ew)

/-- Word `j` of a wide value, bits `32j+31 : 32j` (20_memory R64). -/
def wideWord (x j : Nat) : Word := BitVec.ofNat 32 (x / 2 ^ (32 * j))

/-- A value of `width` bits with word `j` replaced; bits past the width are dropped (20_memory R64,
00_scope R14). -/
def setWideWord (width x j : Nat) (v : Word) : Nat :=
  (x % 2 ^ (32 * j) + 2 ^ (32 * j) * (v.toNat + 2 ^ 32 * (x / 2 ^ (32 * (j + 1))))) % 2 ^ width

/-- The buffer byte a port access sees at a window offset; an offset that is no buffer byte reads 0
(20_memory R70). -/
def State.portByte (s : State) (a : Nat) : Byte :=
  if inDstb a then s.dstByte (a - Config.dstbBase)
  else if inMsg s.cfg.caps a then s.msgByte (a - Config.msgBase)
  else if inOut s.cfg.caps a then s.outByte (a - Config.outBase)
  else 0

/-- The four lanes of a buffer word, byte `4w` in bits 7:0 (20_memory R64). -/
def State.bufferWord (s : State) (off : Nat) : Word :=
  s.portByte (off + 3) ++ s.portByte (off + 2) ++ s.portByte (off + 1) ++ s.portByte off

/-- A word of an ELEM entry (20_memory R64); a word of the slot past the value reads 0 (10_state R43). -/
def State.elemWord (s : State) (off : Nat) : Word :=
  if inElem s.cfg.caps off then wideWord (s.elem (elemIndex off)) (elemWordIndex off) else 0

/-- The control, status and scalar registers as the host reads them (10_state R30 to R36). -/
def State.scalarWord (s : State) (off : Nat) : Word :=
  match off with
  | 0x000 => s.cmdLast
  | 0x004 => statusWord s
  | 0x008 => s.errCode.setWidth 32
  | 0x00C => s.errInfo
  | 0x010 => s.ie.setWidth 32
  | 0x014 => capsWord s
  | 0x018 => s.msgLen
  | 0x01C => s.dstLen
  | 0x020 => s.lenArg
  | 0x024 => s.count
  | 0x028 => s.mOvr
  | 0x02C => s.kOvr
  | 0x030 => s.limbN
  | 0x034 => s.limbK
  | 0x038 => s.outLen
  | 0x03C => s.elemCnt
  | _ => 0

/-- The word at a window offset (20_memory R70); an unmapped offset reads 0. -/
def State.windowWord (s : State) (off : Nat) : Word :=
  if off < 0x40 then s.scalarWord off
  else if Config.bigxBase ≤ off ∧ off < Config.bigxEnd then
    wideWord s.bigx ((off - Config.bigxBase) / 4)
  else if Config.pOvrBase ≤ off ∧ off < Config.pOvrEnd then
    wideWord s.pOvr ((off - Config.pOvrBase) / 4)
  else if Config.elemBase ≤ off ∧ off < Config.elemEnd then s.elemWord off
  else s.bufferWord off

/-- Does the running command write the word at this offset (20_memory R77)? The length registers are
left out: they read the 0 given at acceptance. DESIGN CHOICE (log 11, safe): every word of the BIGX window
counts for OS2IP and L2B, a word past a smaller XW among them, while a word past a smaller capacity of OUT
or ELEM does not. -/
def destWord (c : Config.Capacities) (i : Instr) (off : Nat) : Bool :=
  (targetsOut i && inOut c off) || (targetsElem i && inElem c off) ||
    (targetsBigx i && decide (Config.bigxBase ≤ off) && decide (off < Config.bigxEnd))

/-- The offset is a destination of the command that is running now (20_memory R77). -/
def State.hiddenFromHost (s : State) (off : Nat) : Bool :=
  match s.phase, decodeWord s.cmdLast with
  | .busy, some i => destWord s.cfg.caps i off
  | _, _ => false

/-- A host read of the word at a window offset. No read has a side effect on the unit (20_memory R68);
a destination of the running command reads as a fresh free value (R77; log 11). -/
def portRead (off : Nat) (s : State) : State :=
  if s.hiddenFromHost off then
    { s with rdata := Config.freeWord s.draws off, draws := s.draws + 1 }
  else { s with rdata := s.windowWord off }

/-- One lane of a host write to a buffer; absent bytes and OUT ignore it (20_memory R64, R70). -/
def writeLane (a : Nat) (b : Byte) (s : State) : State :=
  if inDstb a then { s with dstMem := Memory.put s.dstMem (a - Config.dstbBase) b }
  else if inMsg s.cfg.caps a then { s with msgMem := Memory.put s.msgMem (a - Config.msgBase) b }
  else s

/-- A host write of the four lanes of a buffer word (20_memory R64, R70). -/
def writeBufferWord (off : Nat) (v : Word) (s : State) : State :=
  writeLane (off + 3) (v.extractLsb' 24 8) (writeLane (off + 2) (v.extractLsb' 16 8)
    (writeLane (off + 1) (v.extractLsb' 8 8) (writeLane off (v.extractLsb' 0 8) s)))

/-- A host write of a word of an ELEM entry; words past the value ignore it (10_state R43, 20_memory
R64). -/
def writeElemWord (off : Nat) (v : Word) (s : State) : State :=
  if inElem s.cfg.caps off then
    { s with
      elemMem := Memory.put s.elemMem (elemIndex off)
        (setWideWord s.cfg.caps.ew (s.elem (elemIndex off)) (elemWordIndex off) v) }
  else s

/-- A host write to a control or scalar register other than CMD; read-only registers ignore it
(10_state R31 to R36). -/
def writeScalar (off : Nat) (v : Word) (s : State) : State :=
  match off with
  | 0x010 => { s with ie := v.extractLsb' 0 2 }
  | 0x018 => { s with msgLen := v }
  | 0x01C => { s with dstLen := v }
  | 0x020 => { s with lenArg := v }
  | 0x024 => { s with count := v }
  | 0x028 => { s with mOvr := v }
  | 0x02C => { s with kOvr := v }
  | 0x030 => { s with limbN := v }
  | 0x034 => { s with limbK := v }
  | 0x03C => { s with elemCnt := v }
  | _ => s

/-- A host write to the window, CMD apart (20_memory R70). -/
def writeWindow (off : Nat) (v : Word) (s : State) : State :=
  if off < 0x40 then writeScalar off v s
  else if Config.bigxBase ≤ off ∧ off < Config.bigxEnd then
    { s with bigx := setWideWord s.cfg.caps.xw s.bigx ((off - Config.bigxBase) / 4) v }
  else if Config.pOvrBase ≤ off ∧ off < Config.pOvrEnd then
    { s with pOvr := setWideWord s.cfg.caps.pw s.pOvr ((off - Config.pOvrBase) / 4) v }
  else if Config.elemBase ≤ off ∧ off < Config.elemEnd then writeElemWord off v s
  else writeBufferWord off v s

/-- A host write to an offset other than CMD: while BUSY all but IE ignore it (20_memory R76). -/
def portWrite (off : Nat) (v : Word) (s : State) : State :=
  if s.phase = .busy then
    if off = 0x010 then writeScalar off v s else s
  else writeWindow off v s

/-! ## The digest engine and reset -/

/-- The sequencer's request `DigestReq(m)` (60_exceptions R245). -/
def requestDigest (m : List Byte) (s : State) : State :=
  { s with digestReq := some m, digestResp := none }

/-- The engine's turn: it answers the outstanding request with `H` of it; without one nothing happens,
so a late response is ignored (60_exceptions R245, 70_reset R260; log 15). -/
def engineTurn (s : State) : State :=
  match s.digestReq with
  | some m => { s with digestReq := none, digestResp := some (sha256 m) }
  | none => s

/-- `rst` becomes asserted: the state of 10_state R55 for the same instance; a running command ends
without result or error (70_reset R260). -/
def resetTurn (s : State) : State :=
  { State.resetWith s.cfg s.draws with rst := true, inputs := s.inputs }

/-- `rst` is released: the state is that of 10_state R55 once more, its unspecified contents drawn anew
(70_reset R260; log 16). A release of an input that is not asserted changes nothing. -/
def releaseTurn (s : State) : State :=
  if s.rst then { State.resetWith s.cfg s.draws with inputs := s.inputs, rdata := s.rdata } else s

end Sys2Proof.Machine
end

