-- ==== Sys2Proof/Machine/Operands.lean ====
section
/-! DEFINITION. What commands read: the buffers up to their length registers, the ELEM sequence, and
the configuration an H2F word selects (20_memory R85, 42_hash_to_field R160 to R163). -/

namespace Sys2Proof.Machine

/-- `BufRead(MSG, 0, MSG_LEN)` (20_memory R85). -/
def State.msg (s : State) : List Byte := (List.range s.msgLen.toNat).map s.msgByte

/-- `BufRead(DSTB, 0, DST_LEN)` (20_memory R85). -/
def State.dst (s : State) : List Byte := (List.range s.dstLen.toNat).map s.dstByte

/-- `OUT[0 .. OUT_LEN)`, the valid bytes of OUT (10_state R47). -/
def State.out (s : State) : List Byte := (List.range s.outLen.toNat).map s.outByte

/-- `ELEM[0 .. ELEM_CNT)`, the valid entries (10_state R38). -/
def State.elems (s : State) : List Nat := (List.range s.elemCnt.toNat).map s.elem

/-- A hash-to-field configuration (42_hash_to_field R160), with the tag's declared length: the bytes
of a tag longer than 255 are not read (R162). -/
structure H2fConfig where
  p : Nat
  m : Nat
  secK : Nat
  dstLen : Nat
  dst : List Byte
  expand : Bool
  deriving DecidableEq, Repr

/-- The configuration an H2F command word selects, field by field default or override
(42_hash_to_field R161, R162). -/
def resolveH2f (ovrP ovrM ovrK ovrDst ovrExpand expandVal : Bool) (s : State) : H2fConfig where
  p := if ovrP then s.pOvr else s.cfg.pDefault
  m := if ovrM then s.mOvr.toNat else Config.mDefault
  secK := if ovrK then s.kOvr.toNat else Config.kDefault
  dstLen := if ovrDst then s.dstLen.toNat else s.cfg.dstDefault.length
  dst :=
    if ovrDst then (if s.dstLen.toNat ≤ Config.dstMax then s.dst else []) else s.cfg.dstDefault
  expand := if ovrExpand then expandVal else Config.expandDefault

/-- `L`, the bytes per coordinate (42_hash_to_field R163). -/
def H2fConfig.coordBytes (c : H2fConfig) : Nat := ceilDiv (bitlen c.p + c.secK) 8

/-- `len_in_bytes` (42_hash_to_field R163). -/
def H2fConfig.lenInBytes (c : H2fConfig) (count : Nat) : Nat := count * c.m * c.coordBytes

end Sys2Proof.Machine
end

