-- ==== Sys2Proof/Machine/ByteCodec.lean ====
section
/-! DEFINITION. The ByteCodec family: its pure functions and the meanings of HEX2BYTES, BYTES2HEX,
I2OSP, OS2IP, CONCAT (three arities) and STR2BYTES (40_bytecodec). -/

namespace Sys2Proof.Machine

/-! ## Pure functions -/

/-- `digit(c)`, defined for 22 character codes (40_bytecodec R110). -/
def hexDigit? (c : Byte) : Option Nat :=
  let n := c.toNat
  if 0x30 ≤ n ∧ n ≤ 0x39 then some (n - 0x30)
  else if 0x61 ≤ n ∧ n ≤ 0x66 then some (n - 0x61 + 10)
  else if 0x41 ≤ n ∧ n ≤ 0x46 then some (n - 0x41 + 10)
  else none

/-- `hexchar(v)` for `v ≤ 15`, always lower case (40_bytecodec R110). -/
def hexChar (v : Nat) : Byte := BitVec.ofNat 8 (if v ≤ 9 then 0x30 + v else 0x61 + (v - 10))

/-- The index of the first non-hex-digit character at or after index `t`, if any. -/
def firstNonHexFrom : (t : Nat) → List Byte → Option Nat
  | _, [] => none
  | t, c :: cs => if (hexDigit? c).isSome then firstNonHexFrom (t + 1) cs else some t

/-- The byte of a pair of hex digits, the first the high nibble (40_bytecodec R111, 20_memory R63). -/
def hexPair (c0 c1 : Byte) : Byte :=
  BitVec.ofNat 8 (16 * (hexDigit? c0).getD 0 + (hexDigit? c1).getD 0)

/-- The bytes of consecutive pairs of hex digits. -/
def hexPairs : List Byte → List Byte
  | c0 :: c1 :: cs => hexPair c0 c1 :: hexPairs cs
  | _ => []

/-- `hexToBytes(hex)` (40_bytecodec R111); the failure carries the detail of R112. -/
def hexToBytes (hex : List Byte) : Except CmdError (List Byte) :=
  if hex.length % 2 = 1 then .error .malformedHexOdd
  else match firstNonHexFrom 0 hex with
    | some t => .error (.malformedHexAt t)
    | none => .ok (hexPairs hex)

/-- `bytesToHex(bytes)` (40_bytecodec R113). -/
def bytesToHex (bs : List Byte) : List Byte :=
  bs.flatMap fun b => [hexChar (b.toNat / 16), hexChar (b.toNat % 16)]

/-- `i2osp(value, length)` (40_bytecodec R115). -/
def i2osp (value length : Nat) : Except CmdError (List Byte) :=
  if 2 ^ (8 * length) ≤ value then .error .integerRangeValue else .ok (beBytes value length)

/-- `concatBytes(s1, …, sn)` (40_bytecodec R119). -/
def concatBytes (ss : List (List Byte)) : List Byte := ss.flatten

/-- `stringToBytes(str)` on code points, defined only below 256 (40_bytecodec R121); outside its
domain the command raises OperandRange (R122; log 25). -/
def stringToBytes (str : List Nat) : Except CmdError (List Byte) :=
  if str.all fun c => decide (c < 256) then .ok (str.map fun c => BitVec.ofNat 8 c)
  else .error (.operandRange .codePoint)

/-! ## Commands -/

/-- A command ends with its byte sequence in OUT or with the error of its pure function. -/
def endWithBytes (i : Instr) (r : Except CmdError (List Byte)) (s : State) : State :=
  match r with
  | .ok bs => finishOut i bs s
  | .error e => failCommand i e s

/-- The effect of HEX2BYTES (40_bytecodec R112). -/
def runHex2bytes (s : State) : State :=
  if s.cfg.caps.msgMax < s.msgLen.toNat then failCommand .hex2bytes (.operandRange .msgLen) s
  else endWithBytes .hex2bytes (hexToBytes s.msg) s

/-- HEX2BYTES (40_bytecodec R112). -/
def execHex2bytes (s : State) : Host.Outcome State Fault Refusal := .next (runHex2bytes s)

/-- The effect of BYTES2HEX (40_bytecodec R114). -/
def runBytes2hex (s : State) : State :=
  if s.cfg.caps.msgMax < s.msgLen.toNat then failCommand .bytes2hex (.operandRange .msgLen) s
  else if s.cfg.caps.outMax < 2 * s.msgLen.toNat then
    failCommand .bytes2hex (.operandRange .outCapacity) s
  else finishOut .bytes2hex (bytesToHex s.msg) s

/-- BYTES2HEX (40_bytecodec R114). -/
def execBytes2hex (s : State) : Host.Outcome State Fault Refusal := .next (runBytes2hex s)

/-- The effect of I2OSP (40_bytecodec R116). -/
def runI2osp (s : State) : State :=
  if s.cfg.caps.outMax < s.lenArg.toNat then failCommand .i2osp (.operandRange .outCapacity) s
  else endWithBytes .i2osp (i2osp s.bigx s.lenArg.toNat) s

/-- I2OSP (40_bytecodec R116). -/
def execI2osp (s : State) : Host.Outcome State Fault Refusal := .next (runI2osp s)

/-- The effect of OS2IP (40_bytecodec R118). -/
def runOs2ip (s : State) : State :=
  if s.cfg.caps.msgMax < s.msgLen.toNat then failCommand .os2ip (.operandRange .msgLen) s
  else if s.cfg.caps.xw / 8 < s.msgLen.toNat then failCommand .os2ip (.operandRange .os2ipLen) s
  else finishBigx .os2ip (os2ip s.msg) s

/-- OS2IP (40_bytecodec R118). -/
def execOs2ip (s : State) : Host.Outcome State Fault Refusal := .next (runOs2ip s)

/-- The effect of CONCAT with ARITY 0 (40_bytecodec R120). -/
def runConcat0 (s : State) : State := finishOut .concat0 (concatBytes []) s

/-- CONCAT with ARITY 0 (40_bytecodec R120). -/
def execConcat0 (s : State) : Host.Outcome State Fault Refusal := .next (runConcat0 s)

/-- The effect of CONCAT with ARITY 1 (40_bytecodec R120). -/
def runConcat1 (s : State) : State :=
  if s.cfg.caps.msgMax < s.msgLen.toNat then failCommand .concat1 (.operandRange .msgLen) s
  else finishOut .concat1 (concatBytes [s.msg]) s

/-- CONCAT with ARITY 1 (40_bytecodec R120). -/
def execConcat1 (s : State) : Host.Outcome State Fault Refusal := .next (runConcat1 s)

/-- The effect of CONCAT with ARITY 2 (40_bytecodec R120). -/
def runConcat2 (s : State) : State :=
  if s.cfg.caps.msgMax < s.msgLen.toNat then failCommand .concat2 (.operandRange .msgLen) s
  else if Config.dstMax < s.dstLen.toNat then failCommand .concat2 (.operandRange .dstLen) s
  else if s.cfg.caps.outMax < s.msgLen.toNat + s.dstLen.toNat then
    failCommand .concat2 (.operandRange .outCapacity) s
  else finishOut .concat2 (concatBytes [s.msg, s.dst]) s

/-- CONCAT with ARITY 2 (40_bytecodec R120). -/
def execConcat2 (s : State) : Host.Outcome State Fault Refusal := .next (runConcat2 s)

/-- The effect of STR2BYTES (40_bytecodec R122). -/
def runStr2bytes (s : State) : State :=
  if s.cfg.caps.elemMax < s.elemCnt.toNat then failCommand .str2bytes (.operandRange .elemCount) s
  else endWithBytes .str2bytes (stringToBytes s.elems) s

/-- STR2BYTES (40_bytecodec R122). -/
def execStr2bytes (s : State) : Host.Outcome State Fault Refusal := .next (runStr2bytes s)

end Sys2Proof.Machine
end

