-- ==== Sys2Proof/Machine/ExpandMessage.lean ====
section
/-! DEFINITION. The ExpandMessage family: the pure function `expand_message_xmd`, the digest chain the
sequencer runs turn by turn, and the meaning of XMD (41_expand_message). -/

namespace Sys2Proof.Machine

/-! ## The pure function -/

/-- `ell` (41 R144 step 1). -/
def xmdEll (lenInBytes : Nat) : Nat := ceilDiv lenInBytes Config.bInBytes

/-- `DST'` for a tag of at most 255 bytes (41 R142). -/
def dstPrime (dst : List Byte) : List Byte := dst ++ beBytes dst.length 1

/-- `msg'` (41 R143). -/
def msgPrime (msg : List Byte) (lenInBytes : Nat) (dstp : List Byte) : List Byte :=
  zeroBytes Config.rInBytes ++ msg ++ beBytes lenInBytes 2 ++ beBytes 0 1 ++ dstp

/-- The digest input for `b[1]` (41 R144 step 5). -/
def firstInput (b0 dstp : List Byte) : List Byte := b0 ++ beBytes 1 1 ++ dstp

/-- The digest input for `b[i]`, `i ≥ 2` (41 R144 step 6). -/
def nextInput (b0 bprev dstp : List Byte) (i : Nat) : List Byte :=
  xorBytes b0 bprev ++ beBytes i 1 ++ dstp

/-- `b[i] || b[i+1] || …`, `n` blocks, when `bprev` is `b[i-1]` (41 R144 step 6). -/
def xmdTail (h : List Byte → List Byte) (b0 dstp : List Byte) :
    (n i : Nat) → (bprev : List Byte) → List Byte
  | 0, _, _ => []
  | n + 1, i, bprev =>
    let b := h (nextInput b0 bprev dstp i)
    b ++ xmdTail h b0 dstp n (i + 1) b

/-- Steps 3 to 7 of `expand_message_xmd` (41 R144): `b[1]` is computed even when `ell` is 0
(90_conflicts C1). -/
def xmdBytes (h : List Byte → List Byte) (msg dst : List Byte) (lenInBytes : Nat) : List Byte :=
  let dstp := dstPrime dst
  let b0 := h (msgPrime msg lenInBytes dstp)
  let b1 := h (firstInput b0 dstp)
  (b1 ++ xmdTail h b0 dstp (xmdEll lenInBytes - 1) 2 b1).take lenInBytes

/-- The failure of steps 1, 2 and 4 of `expand_message_xmd` that comes first, if any (41 R144, R145). -/
def xmdFailure (digestPresent : Bool) (dstLen lenInBytes : Nat) : Option CmdError :=
  if Config.ellMax < xmdEll lenInBytes then some (.lengthTooLarge (xmdEll lenInBytes))
  else if Config.dstMax < dstLen then some .integerRangeTag
  else if digestPresent = false then some .missingDigestBackend
  else none

/-- `expand_message_xmd(msg, DST, lenInBytes)` (41 R144) over a digest `h` that may be absent. -/
def expandMessageXmd (digestPresent : Bool) (h : List Byte → List Byte) (msg dst : List Byte)
    (lenInBytes : Nat) : Except CmdError (List Byte) :=
  match xmdFailure digestPresent dst.length lenInBytes with
  | some e => .error e
  | none => .ok (xmdBytes h msg dst lenInBytes)

/-! ## The digest chain of the sequencer (41 R149) -/

/-- The start of an expansion: `CHAIN_I <- 0` and the request of `H(msg')` (41 R149). -/
def startChain (msg dst : List Byte) (lenInBytes : Nat) (s : State) : State :=
  let c : Chain := ⟨dstPrime dst, xmdEll lenInBytes, 0, [], [], []⟩
  requestDigest (msgPrime msg lenInBytes (dstPrime dst)) { s with chain := some c }

/-- The sequencer's turn inside an expansion (41 R149). On a response it requests the next digest, or
ends with `finish` applied to all the blocks; without one it waits. -/
def chainTurn (c : Chain) (finish : List Byte → State → State) (s : State) : State :=
  match s.digestResp with
  | none => s
  | some d =>
    if c.idx = 0 then
      requestDigest (firstInput d c.dstp) { s with chain := some { c with idx := 1, b0 := d } }
    else if c.idx < c.ell then
      let c' := { c with idx := c.idx + 1, bprev := d, blocks := c.blocks ++ d }
      requestDigest (nextInput c.b0 d c.dstp (c.idx + 1)) { s with chain := some c' }
    else finish (c.blocks ++ d) s

/-! ## The command -/

/-- The tests of XMD and the start of its chain (41 R148). -/
def startXmd (s : State) : State :=
  if s.cfg.caps.msgMax < s.msgLen.toNat then failCommand .xmd (.operandRange .msgLen) s
  else match xmdFailure s.cfg.digestPresent s.dstLen.toNat s.lenArg.toNat with
    | some e => failCommand .xmd e s
    | none => startChain s.msg s.dst s.lenArg.toNat s

/-- The end of XMD: the first LEN_ARG bytes of the blocks go to OUT (41 R148). -/
def finishXmd (blocks : List Byte) (s : State) : State :=
  finishOut .xmd (blocks.take s.lenArg.toNat) s

/-- One turn of the sequencer on XMD (41 R148, R149). -/
def runXmd (s : State) : State :=
  match s.chain with
  | none => startXmd s
  | some c => chainTurn c finishXmd s

/-- XMD (41 R148, R149). -/
def execXmd (s : State) : Host.Outcome State Fault Refusal := .next (runXmd s)

end Sys2Proof.Machine
end

