-- ==== Sys2Proof/Machine/FieldHasher.lean ====
section
/-! DEFINITION. The FieldHasher family: partition and reduction, the pure function `hash_to_field`, and
the meaning of H2F (42_hash_to_field). -/

namespace Sys2Proof.Machine

/-! ## The pure function -/

/-- The chunk `tv(i, j)` (42 R165): `L` bytes at offset `L · (j + i·m)`. -/
def chunkAt (u : List Byte) (coordBytes m i j : Nat) : List Byte :=
  (u.drop (coordBytes * (j + i * m))).take coordBytes

/-- The reducer (42 R166): the residue of the big-endian chunk modulo `p`. -/
def reduceChunk (chunk : List Byte) (p : Nat) : Nat := os2ip chunk % p

/-- The `count` tuples of `m` coordinates cut from `u` (42 R165, R166, R168). -/
def fieldTuples (u : List Byte) (p m coordBytes count : Nat) : List (List Nat) :=
  (List.range count).map fun i =>
    (List.range m).map fun j => reduceChunk (chunkAt u coordBytes m i j) p

/-- The failure of the uniform byte string: the expander's own when expanding, else a message of the
wrong length (42 R164, R167). -/
def uniformFailure (digestPresent : Bool) (c : H2fConfig) (count msgLen : Nat) : Option CmdError :=
  if c.expand then xmdFailure digestPresent c.dstLen (c.lenInBytes count)
  else if msgLen ≠ c.lenInBytes count then some (.operandRange .notPreExpanded)
  else none

/-- The failures of `hash_to_field` itself: a modulus or a degree outside its domain, then those of the
byte string. No capacity enters (00_scope R17, 90_conflicts C8; 42 R160, R164; log 25). -/
def hashToFieldFailure (digestPresent : Bool) (c : H2fConfig) (count msgLen : Nat) :
    Option CmdError :=
  if c.p = 0 then some (.operandRange .modulusZero)
  else if c.m = 0 then some (.operandRange .degreeZero)
  else uniformFailure digestPresent c count msgLen

/-- `hash_to_field(msg, count, options)` (42 R163 to R168) over a digest `h` that may be absent. -/
def hashToField (digestPresent : Bool) (h : List Byte → List Byte) (c : H2fConfig)
    (msg : List Byte) (count : Nat) : Except CmdError (List (List Nat)) :=
  match hashToFieldFailure digestPresent c count msg.length with
  | some e => .error e
  | none =>
    let u := if c.expand then xmdBytes h msg c.dst (c.lenInBytes count) else msg
    .ok (fieldTuples u c.p c.m c.coordBytes count)

/-! ## The command -/

/-- The operand and capacity tests of H2F that come first (42 R167), on the declared message length. -/
def h2fOperandFailure (caps : Config.Capacities) (c : H2fConfig) (count msgLen : Nat) :
    Option CmdError :=
  if caps.msgMax < msgLen then some (.operandRange .msgLen)
  else if c.p = 0 then some (.operandRange .modulusZero)
  else if c.m = 0 then some (.operandRange .degreeZero)
  else if caps.elemMax < count * c.m then some (.operandRange .elemCount)
  else none

/-- All tests of H2F in order (42 R167). -/
def h2fFailure (g : Config.Params) (c : H2fConfig) (count msgLen : Nat) : Option CmdError :=
  match h2fOperandFailure g.caps c count msgLen with
  | some e => some e
  | none => uniformFailure g.digestPresent c count msgLen

/-- The end of H2F: the coordinates go to ELEM row by row (42 R167, 20_memory R62). -/
def finishH2f (i : Instr) (c : H2fConfig) (u : List Byte) (s : State) : State :=
  finishElem i (fieldTuples u c.p c.m c.coordBytes s.count.toNat).flatten s

/-- The tests of H2F, then the start of its chain when expanding, else its end (42 R167). -/
def startH2f (i : Instr) (c : H2fConfig) (s : State) : State :=
  match h2fFailure s.cfg c s.count.toNat s.msgLen.toNat with
  | some e => failCommand i e s
  | none =>
    if c.expand then startChain s.msg c.dst (c.lenInBytes s.count.toNat) s
    else finishH2f i c s.msg s

/-- The end of an expanding H2F: the expanded string is the first `len` bytes of the blocks. -/
def finishExpandedH2f (i : Instr) (c : H2fConfig) (blocks : List Byte) (s : State) : State :=
  finishH2f i c (blocks.take (c.lenInBytes s.count.toNat)) s

/-- One turn of the sequencer on H2F (42 R167, 41 R149). -/
def runH2f (ovrP ovrM ovrK ovrDst ovrExpand expandVal : Bool) (s : State) : State :=
  let i := Instr.h2f ovrP ovrM ovrK ovrDst ovrExpand expandVal
  let c := resolveH2f ovrP ovrM ovrK ovrDst ovrExpand expandVal s
  match s.chain with
  | none => startH2f i c s
  | some ch => chainTurn ch (finishExpandedH2f i c) s

/-- H2F (42 R162, R167). -/
def execH2f (ovrP ovrM ovrK ovrDst ovrExpand expandVal : Bool) (s : State) :
    Host.Outcome State Fault Refusal :=
  .next (runH2f ovrP ovrM ovrK ovrDst ovrExpand expandVal s)

end Sys2Proof.Machine
end

