-- ==== Sys2Proof/Machine/LimbCodec.lean ====
section
/-! DEFINITION. The LimbCodec family: its pure functions and the meanings of B2L, L2B, HEX2BYTEINTS
(43_limbcodec). -/

namespace Sys2Proof.Machine

/-! ## Pure functions -/

/-- The little-endian limb array of `x` (43 R180, R181): `limb[i] = (x div 2^(n·i)) mod 2^n`. -/
def limbsOf (n k x : Nat) : List Nat := (List.range k).map fun i => x / 2 ^ (n * i) % 2 ^ n

/-- `bigintToLimbs(n, k, x)` (43 R181). -/
def bigintToLimbs (n k x : Nat) : Except CmdError (List Nat) :=
  if 2 ^ (n * k) ≤ x then .error .capacityOverflow else .ok (limbsOf n k x)

/-- `limbsToBigint(n, limbs)` = `Σ limb[i]·2^(n·i)` (43 R183), limb 0 the least significant. -/
def limbsToBigint (n : Nat) : List Nat → Nat
  | [] => 0
  | l :: ls => l + 2 ^ n * limbsToBigint n ls

/-- `hexToByteInts(hex)` (43 R185). -/
def hexToByteInts (hex : List Byte) : Except CmdError (List Nat) :=
  match hexToBytes hex with
  | .ok bs => .ok (bs.map BitVec.toNat)
  | .error e => .error e

/-! ## Commands -/

/-- A command ends with its integers in ELEM or with the error of its pure function. -/
def endWithElems (i : Instr) (r : Except CmdError (List Nat)) (s : State) : State :=
  match r with
  | .ok vs => finishElem i vs s
  | .error e => failCommand i e s

/-- The test of the limb width in bits (43 R182, R184). -/
def limbWidthOk (c : Config.Capacities) (n : Nat) : Bool := decide (1 ≤ n) && decide (n ≤ c.nMax)

/-- The test of the limb count (43 R182, R184). -/
def limbCountOk (c : Config.Capacities) (k : Nat) : Bool := decide (1 ≤ k) && decide (k ≤ c.kMax)

/-- The effect of B2L (43 R182). -/
def runB2l (s : State) : State :=
  if limbWidthOk s.cfg.caps s.limbN.toNat = false then failCommand .b2l (.operandRange .limbWidth) s
  else if limbCountOk s.cfg.caps s.limbK.toNat = false then
    failCommand .b2l (.operandRange .limbCount) s
  else endWithElems .b2l (bigintToLimbs s.limbN.toNat s.limbK.toNat s.bigx) s

/-- B2L (43 R182). -/
def execB2l (s : State) : Host.Outcome State Fault Refusal := .next (runB2l s)

/-- The effect of L2B (43 R184); it reads the limb count from ELEM_CNT, not LIMB_K. -/
def runL2b (s : State) : State :=
  if limbWidthOk s.cfg.caps s.limbN.toNat = false then failCommand .l2b (.operandRange .limbWidth) s
  else if limbCountOk s.cfg.caps s.elemCnt.toNat = false then
    failCommand .l2b (.operandRange .limbCount) s
  else if s.elems.all (fun l => decide (l < 2 ^ s.limbN.toNat)) = false then
    failCommand .l2b (.operandRange .limbTooLarge) s
  else finishBigx .l2b (limbsToBigint s.limbN.toNat s.elems) s

/-- L2B (43 R184). -/
def execL2b (s : State) : Host.Outcome State Fault Refusal := .next (runL2b s)

/-- The effect of HEX2BYTEINTS (43 R186). -/
def runHex2byteints (s : State) : State :=
  if s.cfg.caps.msgMax < s.msgLen.toNat then failCommand .hex2byteints (.operandRange .msgLen) s
  else if s.cfg.caps.elemMax < s.msgLen.toNat / 2 then
    failCommand .hex2byteints (.operandRange .elemCount) s
  else endWithElems .hex2byteints (hexToByteInts s.msg) s

/-- HEX2BYTEINTS (43 R186). -/
def execHex2byteints (s : State) : Host.Outcome State Fault Refusal := .next (runHex2byteints s)

end Sys2Proof.Machine
end

