-- ==== Sys2Proof/Machine/System.lean ====
section
/-! DEFINITION. The system command CLR (44_system R205). -/

namespace Sys2Proof.Machine

/-- CLR (44_system R205): it runs at the CMD write and never shows BUSY. -/
def execClr (s : State) : Host.Outcome State Fault Refusal := .next (clearStatus s)

end Sys2Proof.Machine
end

