-- ==== Sys2Proof/Machine/Dispatch.lean ====
section
/-! DEFINITION. One arm per command: what the sequencer does on it. CLR's arm runs at the CMD write,
every other one in the sequencer's turns while the command is running (44_system R200 to R205). -/

namespace Sys2Proof.Machine

def exec (i : Instr) (s : State) : Host.Outcome State Fault Refusal :=
  match i with
  | .clr => Sys2Proof.Machine.execClr s
  | .hex2bytes => Sys2Proof.Machine.execHex2bytes s
  | .bytes2hex => Sys2Proof.Machine.execBytes2hex s
  | .i2osp => Sys2Proof.Machine.execI2osp s
  | .os2ip => Sys2Proof.Machine.execOs2ip s
  | .concat0 => Sys2Proof.Machine.execConcat0 s
  | .concat1 => Sys2Proof.Machine.execConcat1 s
  | .concat2 => Sys2Proof.Machine.execConcat2 s
  | .str2bytes => Sys2Proof.Machine.execStr2bytes s
  | .xmd => Sys2Proof.Machine.execXmd s
  | .h2f p m k d e v => Sys2Proof.Machine.execH2f p m k d e v s
  | .b2l => Sys2Proof.Machine.execB2l s
  | .l2b => Sys2Proof.Machine.execL2b s
  | .hex2byteints => Sys2Proof.Machine.execHex2byteints s

end Sys2Proof.Machine
end

