-- ==== Sys2Proof/Machine/Turns.lean ====
section
/-! DEFINITION. What each agent's turn does: the CMD write by phase, the sequencer's turn, the port,
the digest engine, reset (44_system R200, 10_state R24). -/

namespace Sys2Proof.Machine

/-- A CMD write handled by PHASE (44_system R200, 10_state R24): dropped in BUSY, in ERR unless it is
CLR; else decoded, with an illegal word raising IllegalCommand (60_exceptions R234), CLR running at
once (R205), and every other command accepted (R201). -/
def issue (w : Word) (s : State) : Host.Outcome State Fault Refusal :=
  match s.phase with
  | .busy => .next { s with ovr := true }
  | .err => if w = clrWord then exec .clr { s with cmdLast := w } else .next { s with ovr := true }
  | .idle | .done =>
    match decodeWord w with
    | none => .next (raiseError (.illegalCommand w) { s with cmdLast := w })
    | some .clr => exec .clr { s with cmdLast := w }
    | some i => .next (accept i w s)

/-- The sequencer's turn: in BUSY it runs the command whose word is in CMD_LAST, else it waits for a
CMD write (10_state R24, 60_exceptions R246). -/
def sequencerTurn (s : State) : Host.Outcome State Fault Refusal :=
  if s.phase = .busy then
    match decodeWord s.cmdLast with
    | some i => exec i s
    | none => .fault .busyWithoutCommand
  else .next s

/-- One turn of one agent (10_state R20). The byte offset of a port access is four times its word
address (20_memory R66); offset 0 is CMD (10_state R30). While `rst` is asserted the state stays that of
10_state R55: a host write has no effect and neither the sequencer nor the engine acts (70_reset R260;
log 16). -/
def takeTurn (t : Turn) (s : State) : Host.Outcome State Fault Refusal :=
  match t with
  | .write a v =>
    if s.rst then .next s
    else if a = 0 then issue v s
    else .next (portWrite (4 * a.toNat) v s)
  | .read a => .next (portRead (4 * a.toNat) s)
  | .sequencer => if s.rst then .next s else sequencerTurn s
  | .engine => if s.rst then .next s else .next (engineTurn s)
  | .reset => .next (resetTurn s)
  | .release => .next (releaseTurn s)

/-- The unit, out of reset, with word `w` where its next sequencer action finds it: a legal command other than CLR
is the accepted one and the sequencer has the next turn; CLR and an illegal word are the host's next
write to CMD, outside BUSY (44_system R200, R201, R205; log 13). -/
def placeCommand (w : Word) (s : State) : State :=
  match decodeWord w with
  | none | some .clr =>
    { s with
      rst := false
      phase := if s.phase = .busy then .idle else s.phase
      inputs := .write 0 w :: s.inputs }
  | some i => { accept i w s with rst := false, inputs := .sequencer :: s.inputs }

end Sys2Proof.Machine
end

