-- ==== Sys2Proof/Machine/Step.lean ====
section
/-! DEFINITION. One step: the next turn of the list of turns. -/

namespace Sys2Proof.Machine

/-- The agent whose turn is next takes it (10_state R20, 20_memory R75). With no turn to come nothing
moves: the unit waits and all state survives (60_exceptions R246; log 1). -/
def step (s : State) : Host.Outcome State Fault Refusal :=
  match s.inputs with
  | [] => .next s
  | t :: rest => takeTurn t { s with inputs := rest }

/-- The state whose very next step runs the command that the `nbits` low bits `w` stand for (log 13). -/
def State.withFetchWord (s : State) (nbits w : Nat) : State :=
  placeCommand (BitVec.ofNat 32 (w % 2 ^ nbits)) s

end Sys2Proof.Machine
end

