-- ==== Sys2Proof/Safety.lean ====
section
/-! DEFINITION. The terms claims are stated in: what a command leaves alone, what its end leaves, the
digest chain as a sequence of blocks, and the invariant of the reachable states. -/

namespace Sys2Proof.Machine

/-! ## Frames -/

/-- What no command ever changes: every operand register, P_OVR, IE, OVR, CMD_LAST, the instance
constants, the reset input, the turns to come, the port's read data, and every byte of MSG and DSTB
(44_system R202). -/
structure KeepsOperands (s t : State) : Prop where
  cfg : t.cfg = s.cfg
  rst : t.rst = s.rst
  ovr : t.ovr = s.ovr
  ie : t.ie = s.ie
  cmdLast : t.cmdLast = s.cmdLast
  msgLen : t.msgLen = s.msgLen
  dstLen : t.dstLen = s.dstLen
  lenArg : t.lenArg = s.lenArg
  count : t.count = s.count
  mOvr : t.mOvr = s.mOvr
  kOvr : t.kOvr = s.kOvr
  limbN : t.limbN = s.limbN
  limbK : t.limbK = s.limbK
  pOvr : t.pOvr = s.pOvr
  inputs : t.inputs = s.inputs
  rdata : t.rdata = s.rdata
  msgByte : ∀ k, t.msgByte k = s.msgByte k
  dstByte : ∀ k, t.dstByte k = s.dstByte k

/-- The frame of a command whose only destination is OUT with OUT_LEN: all else is as before, every
entry of ELEM included. -/
structure FrameOut (s t : State) : Prop where
  operands : KeepsOperands s t
  elemCnt : t.elemCnt = s.elemCnt
  bigx : t.bigx = s.bigx
  elem : ∀ e, t.elem e = s.elem e

/-- The frame of a command whose only destination is ELEM with ELEM_CNT: every byte of OUT is as
before. -/
structure FrameElem (s t : State) : Prop where
  operands : KeepsOperands s t
  outLen : t.outLen = s.outLen
  bigx : t.bigx = s.bigx
  outByte : ∀ k, t.outByte k = s.outByte k

/-- The frame of a command whose only destination is BIGX: all of OUT and ELEM is as before. -/
structure FrameBigx (s t : State) : Prop where
  operands : KeepsOperands s t
  outLen : t.outLen = s.outLen
  elemCnt : t.elemCnt = s.elemCnt
  outByte : ∀ k, t.outByte k = s.outByte k
  elem : ∀ e, t.elem e = s.elem e

/-- The frame of H2F, which takes OUT as scratch beside its destination ELEM. -/
structure FrameH2f (s t : State) : Prop where
  operands : KeepsOperands s t
  bigx : t.bigx = s.bigx

/-- The frame of a command that fails: its lengths are 0, BIGX and every buffer and ELEM outside its
destinations are as before (44_system R203). -/
structure FrameFail (i : Instr) (s t : State) : Prop where
  operands : KeepsOperands s t
  outLen : t.outLen = if targetsOut i then 0 else s.outLen
  elemCnt : t.elemCnt = if targetsElem i then 0 else s.elemCnt
  bigx : t.bigx = s.bigx
  outByte : targetsOut i = false → ∀ k, t.outByte k = s.outByte k
  elem : targetsElem i = false → ∀ e, t.elem e = s.elem e

/-- PHASE is DONE and the error registers are as they were; no hidden state is left. -/
structure Completed (s t : State) : Prop where
  phase : t.phase = .done
  errCode : t.errCode = s.errCode
  errInfo : t.errInfo = s.errInfo
  hidden : t.chain = none ∧ t.digestReq = none ∧ t.digestResp = none

/-- The command ends by raising `e` (60_exceptions R236, 44_system R203). -/
def FailsWith (i : Instr) (e : CmdError) (s : State) : Prop :=
  ∃ t, exec i s = .next t ∧ t.phase = .err ∧ t.errCode = e.code ∧ t.errInfo = e.info ∧
    FrameFail i s t

/-- The state while `rst` is asserted and at its release, as 10_state R55 gives it (70_reset R260). -/
structure AtReset (t : State) : Prop where
  phase : t.phase = .idle
  status : statusWord t = 0
  errCode : t.errCode = 0
  errInfo : t.errInfo = 0
  ie : t.ie = 0
  cmdLast : t.cmdLast = 0
  scalars : t.msgLen = 0 ∧ t.dstLen = 0 ∧ t.lenArg = 0 ∧ t.count = 0 ∧ t.mOvr = 0 ∧ t.kOvr = 0 ∧
    t.limbN = 0 ∧ t.limbK = 0 ∧ t.outLen = 0 ∧ t.elemCnt = 0
  hidden : t.chain = none ∧ t.digestReq = none ∧ t.digestResp = none
  irq : irq t = false
  /-- no byte of MSG, DSTB, OUT and no entry of ELEM holds a specified value -/
  storage : t.msgMem = [] ∧ t.dstMem = [] ∧ t.outMem = [] ∧ t.elemMem = []

/-- The state `t` after word `w` of command `i` is accepted in `s` (44_system R201): PHASE BUSY, no
error, the destination lengths of R201's table 0, CMD_LAST the word, and all else as before. -/
structure Accepted (i : Instr) (w : Word) (s t : State) : Prop where
  phase : t.phase = .busy
  errCode : t.errCode = 0
  errInfo : t.errInfo = 0
  outLen : t.outLen = if targetsOut i then 0 else s.outLen
  elemCnt : t.elemCnt = if targetsElem i then 0 else s.elemCnt
  bigx : t.bigx = s.bigx
  hidden : t.chain = none ∧ t.digestReq = none ∧ t.digestResp = none
  operands : KeepsOperands { s with cmdLast := w } t
  outByte : targetsOut i = false → ∀ k, t.outByte k = s.outByte k
  elem : targetsElem i = false → ∀ e, t.elem e = s.elem e

/-- The state `t` after CLR in `s` (44_system R205): IDLE, no error, OVR and OUT_LEN clear, and all
else as before but the bytes of OUT. -/
structure Cleared (s t : State) : Prop where
  phase : t.phase = .idle
  errCode : t.errCode = 0
  errInfo : t.errInfo = 0
  ovr : t.ovr = false
  outLen : t.outLen = 0
  elemCnt : t.elemCnt = s.elemCnt
  bigx : t.bigx = s.bigx
  operands : KeepsOperands { s with ovr := false } t
  elem : ∀ e, t.elem e = s.elem e

/-- Two states agree on the message: MSG_LEN and the bytes of MSG below it (10_state R45). -/
def SameMsg (s s' : State) : Prop :=
  s'.msgLen = s.msgLen ∧
    ∀ k, k < s.msgLen.toNat → k < s.cfg.caps.msgMax → s'.msgByte k = s.msgByte k

/-- Two states agree on the tag: DST_LEN and the bytes of DSTB below it (10_state R46). -/
def SameTag (s s' : State) : Prop :=
  s'.dstLen = s.dstLen ∧ ∀ k, k < s.dstLen.toNat → k < Config.dstMax → s'.dstByte k = s.dstByte k

/-- Two states agree on the sequence in ELEM: ELEM_CNT and the entries below it (10_state R38). -/
def SameElems (s s' : State) : Prop :=
  s'.elemCnt = s.elemCnt ∧ ∀ e, e < s.elemCnt.toNat → e < s.cfg.caps.elemMax → s'.elem e = s.elem e

/-- Two states agree on what the command's rule names as read (10_state R21, R36), on the capacities, and
on the other instance constants it uses. -/
def SameOperands (i : Instr) (s s' : State) : Prop :=
  s'.cfg.caps = s.cfg.caps ∧ match i with
  | .clr => True
  | .hex2bytes => SameMsg s s'
  | .bytes2hex => SameMsg s s'
  | .i2osp => s'.bigx = s.bigx ∧ s'.lenArg = s.lenArg
  | .os2ip => SameMsg s s'
  | .concat0 => True
  | .concat1 => SameMsg s s'
  | .concat2 => SameMsg s s' ∧ SameTag s s'
  | .str2bytes => SameElems s s'
  | .xmd => SameMsg s s' ∧ SameTag s s' ∧ s'.lenArg = s.lenArg ∧
      s'.cfg.digestPresent = s.cfg.digestPresent
  | .h2f p m k d _ _ => SameMsg s s' ∧ s'.count = s.count ∧ s'.cfg = s.cfg ∧
      (p = true → s'.pOvr = s.pOvr) ∧ (m = true → s'.mOvr = s.mOvr) ∧
      (k = true → s'.kOvr = s.kOvr) ∧ (d = true → SameTag s s')
  | .b2l => s'.bigx = s.bigx ∧ s'.limbN = s.limbN ∧ s'.limbK = s.limbK
  | .l2b => s'.limbN = s.limbN ∧ SameElems s s'
  | .hex2byteints => SameMsg s s'

/-- Turns that let the sequencer start a command and then answer `n` digest requests, each followed by
a turn of the sequencer. -/
def digestTurns (n : Nat) : List Turn :=
  .sequencer :: (List.replicate n [Turn.engine, Turn.sequencer]).flatten

/-- The error kinds each command can raise (60_exceptions R235), H2F by whether it expands. -/
def mayRaise (i : Instr) (expands : Bool) : CmdError → Bool
  | .malformedHexOdd => decide (i = .hex2bytes) || decide (i = .hex2byteints)
  | .malformedHexAt _ => decide (i = .hex2bytes) || decide (i = .hex2byteints)
  | .integerRangeValue => decide (i = .i2osp)
  | .integerRangeTag => expands
  | .lengthTooLarge _ => expands
  | .capacityOverflow => decide (i = .b2l)
  | .missingDigestBackend => expands
  | .operandRange c =>
    match i with
    | .clr => false
    | .hex2bytes => decide (c = .msgLen)
    | .bytes2hex => decide (c ∈ [RangeCause.msgLen, .outCapacity])
    | .i2osp => decide (c = .outCapacity)
    | .os2ip => decide (c ∈ [RangeCause.msgLen, .os2ipLen])
    | .concat0 => false
    | .concat1 => decide (c = .msgLen)
    | .concat2 => decide (c ∈ [RangeCause.msgLen, .dstLen, .outCapacity])
    | .str2bytes => decide (c ∈ [RangeCause.elemCount, .codePoint])
    | .xmd => decide (c = .msgLen)
    | .h2f _ _ _ _ _ _ =>
      decide (c ∈ [RangeCause.msgLen, .elemCount, .modulusZero, .degreeZero]) ||
        (!expands && decide (c = .notPreExpanded))
    | .b2l => decide (c ∈ [RangeCause.limbWidth, .limbCount])
    | .l2b => decide (c ∈ [RangeCause.limbWidth, .limbCount, .limbTooLarge])
    | .hex2byteints => decide (c ∈ [RangeCause.msgLen, .elemCount])
  | .illegalCommand _ => false

/-- Does a command invoke the digest in this state: XMD always, H2F when it expands (42 R164)? -/
def expandsIn (i : Instr) (s : State) : Bool :=
  match i with
  | .xmd => true
  | .h2f p m k d e v => (resolveH2f p m k d e v s).expand
  | _ => false

/-! ## The digest chain as blocks -/

/-- `b[i]` of `expand_message_xmd`, `i ≥ 1` (41 R144 steps 5 and 6). -/
def chainBlock (h : List Byte → List Byte) (b0 dstp : List Byte) : Nat → List Byte
  | 0 => []
  | 1 => h (firstInput b0 dstp)
  | i + 2 => h (nextInput b0 (chainBlock h b0 dstp (i + 1)) dstp (i + 2))

/-- `b[1] || … || b[n]` (41 R144 step 7). -/
def chainBlocks (h : List Byte → List Byte) (b0 dstp : List Byte) (n : Nat) : List Byte :=
  (List.range n).flatMap fun t => chainBlock h b0 dstp (t + 1)

/-- The message of the `i`-th digest invocation, counted by CHAIN_I (41 R146, R149). -/
def chainInput (h : List Byte → List Byte) (msg dst : List Byte) (len i : Nat) : List Byte :=
  let dstp := dstPrime dst
  let b0 := h (msgPrime msg len dstp)
  if i = 0 then msgPrime msg len dstp
  else if i = 1 then firstInput b0 dstp
  else nextInput b0 (chainBlock h b0 dstp (i - 1)) dstp i

/-- The hidden state and the digest interface of an expansion of `msg`, `dst`, `len` whose CHAIN_I is
`c.idx`: one request is outstanding or its answer waits (41 R149, 60_exceptions R245). -/
structure ChainAt (msg dst : List Byte) (len : Nat) (c : Chain) (s : State) : Prop where
  dstp : c.dstp = dstPrime dst
  ell : c.ell = xmdEll len
  ellMax : c.ell ≤ Config.ellMax
  idx : c.idx ≤ max c.ell 1
  b0 : c.b0 = if c.idx = 0 then [] else sha256 (msgPrime msg len (dstPrime dst))
  bprev : c.bprev = if c.idx ≤ 1 then [] else chainBlock sha256 c.b0 c.dstp (c.idx - 1)
  blocks : c.blocks = chainBlocks sha256 c.b0 c.dstp (c.idx - 1)
  pending : (s.digestReq = some (chainInput sha256 msg dst len c.idx) ∧ s.digestResp = none) ∨
    (s.digestReq = none ∧ s.digestResp = some (sha256 (chainInput sha256 msg dst len c.idx)))

/-- What an expansion is asked for: `expand_message_xmd(msg, dst, len)` (41 R144). -/
structure Expansion where
  msg : List Byte
  dst : List Byte
  len : Nat
  deriving DecidableEq, Repr

/-- The expansion XMD or H2F asks for in a state (41 R148, 42 R164); no other command has one. -/
def expansionOf (i : Instr) (s : State) : Expansion :=
  match i with
  | .xmd => ⟨s.msg, s.dst, s.lenArg.toNat⟩
  | .h2f p m k d e v =>
    let cf := resolveH2f p m k d e v s
    ⟨s.msg, cf.dst, cf.lenInBytes s.count.toNat⟩
  | _ => ⟨[], [], 0⟩

/-- The chain of a running command `i` belongs to the expansion that command asks for, and that
command's tests have passed (41 R148, 42 R167). -/
def ChainBelongs (i : Instr) (c : Chain) (s : State) : Prop :=
  match i with
  | .xmd =>
    s.msgLen.toNat ≤ s.cfg.caps.msgMax ∧
      xmdFailure s.cfg.digestPresent s.dstLen.toNat s.lenArg.toNat = none ∧
      ChainAt s.msg s.dst s.lenArg.toNat c s
  | .h2f p m k d e v =>
    let cf := resolveH2f p m k d e v s
    cf.expand = true ∧
      h2fFailure s.cfg cf s.count.toNat s.msgLen.toNat = none ∧
      ChainAt s.msg cf.dst (cf.lenInBytes s.count.toNat) c s
  | _ => False

/-! ## The invariant -/

/-- Storage is in canonical form and lists only what exists; OUT lists no byte at or beyond OUT_LEN, and
an entry of ELEM fits its width (10_state R37, R43 to R47). -/
structure State.StorageOk (s : State) : Prop where
  msgWf : Memory.wf s.msgMem
  dstWf : Memory.wf s.dstMem
  outWf : Memory.wf s.outMem
  elemWf : Memory.wf s.elemMem
  msg : ∀ c ∈ s.msgMem, c.1 < s.cfg.caps.msgMax
  dst : ∀ c ∈ s.dstMem, c.1 < Config.dstMax
  out : ∀ c ∈ s.outMem, c.1 < s.outLen.toNat
  outLen : s.outLen.toNat ≤ s.cfg.caps.outMax
  elem : ∀ c ∈ s.elemMem, c.1 < s.cfg.caps.elemMax ∧ c.2 < 2 ^ s.cfg.caps.ew

/-- BIGX and P_OVR hold naturals of their widths (10_state R41, R42; 00_scope R14). -/
structure State.WidthsOk (s : State) : Prop where
  bigx : s.bigx < 2 ^ s.cfg.caps.xw
  pOvr : s.pOvr < 2 ^ s.cfg.caps.pw

/-- ERRCODE is non-zero exactly in phase ERR and never above 7, ERRINFO is 0 outside it (10_state R32,
R33; 60_exceptions R231). -/
structure State.ErrorOk (s : State) : Prop where
  code : s.phase = .err ↔ s.errCode ≠ 0
  range : s.errCode.toNat ≤ 7
  info : s.phase ≠ .err → s.errInfo = 0

/-- In BUSY, CMD_LAST holds the word of a command other than CLR whose destination lengths are 0
(44_system R201); outside BUSY there is no hidden state (10_state R50). -/
structure State.PhaseOk (s : State) : Prop where
  busy : s.phase = .busy → ∃ i, decodeWord s.cmdLast = some i ∧ i ≠ .clr ∧
    (targetsOut i = true → s.outLen = 0) ∧ (targetsElem i = true → s.elemCnt = 0)
  idle : s.phase ≠ .busy → s.chain = none ∧ s.digestReq = none ∧ s.digestResp = none

/-- A chain is always the running command's own; without one there is no digest traffic. -/
structure State.ChainOk (s : State) : Prop where
  belongs : ∀ c, s.chain = some c → s.phase = .busy ∧
    ∃ i, decodeWord s.cmdLast = some i ∧ ChainBelongs i c s
  none : s.chain = none → s.digestReq = none ∧ s.digestResp = none

/-- What the spec requires of the capacities of an instance: the five constraints of 92_eei_decisions D6,
and the DEDUCED ones without which a command would overrun its destination (log 24). The defaults of
00_scope R12 meet them. -/
structure CapsOk (c : Config.Capacities) : Prop where
  /-- OUT holds the longest XMD output (00_scope R12, D6) -/
  xmdOut : 8160 ≤ c.outMax
  /-- an ELEM entry holds every residue modulo P_OVR (D6) -/
  entry : c.pw ≤ c.ew
  /-- BIGX holds the number of every limb array (D6) -/
  wide : c.nMax * c.kMax ≤ c.xw
  /-- P_OVR can hold the default modulus (D6) -/
  modulus : 381 ≤ c.pw
  /-- OUT holds a whole message, by CONCAT with ARITY 1 (40_bytecodec R120, 20_memory R85); with it D6's
  OUT_MAX ≥ MSG_MAX / 2 -/
  copy : c.msgMax ≤ c.outMax
  /-- OUT holds one byte per ELEM entry, by STR2BYTES (40_bytecodec R122, 20_memory R85) -/
  string : c.elemMax ≤ c.outMax
  /-- an ELEM entry holds a limb (43 R182) -/
  limb : c.nMax ≤ c.ew
  /-- ELEM holds a limb array (43 R182) -/
  limbs : c.kMax ≤ c.elemMax
  /-- OUT_LEN and ELEM_CNT are 32-bit registers (10_state R36) -/
  lengths : c.outMax < 2 ^ 32

/-- The instance constants are as the spec requires: the default modulus is a prime of 381 bits, the
default tag has at most 255 bytes, the capacities fit together (00_scope R2, R10 to R12). -/
structure State.ParamsOk (s : State) : Prop where
  prime : Nat.Prime s.cfg.pDefault
  modulus : bitlen s.cfg.pDefault = 381
  tag : s.cfg.dstDefault.length ≤ Config.dstMax
  caps : CapsOk s.cfg.caps

/-- While `rst` is asserted the state is that of 10_state R55 (70_reset R260). -/
def State.ResetOk (s : State) : Prop := s.rst = true → AtReset s

/-- The free values in use were drawn before the next one. -/
structure State.DrawsOk (s : State) : Prop where
  boot : s.bootDraw < s.draws
  out : s.outDraw < s.draws
  elem : s.elemDraw < s.draws

/-- The invariant of the states a run reaches. -/
structure State.Inv (s : State) : Prop where
  storage : s.StorageOk
  widths : s.WidthsOk
  error : s.ErrorOk
  phase : s.PhaseOk
  chain : s.ChainOk
  params : s.ParamsOk
  reset : s.ResetOk
  draws : s.DrawsOk

end Sys2Proof.Machine
end

