-- ==== Sys2Proof/Certificates/Slice0/Obligations.lean ====
section
/-! DEFINITION. The statements for the provers. -/

open Sys2Proof Sys2Proof.Machine

/-! ## Encoding -/

/-- 30_encoding R97, R98: the words of one command of each family, written out bit by bit. -/
def Obligations.DecodeReadsWordsOfEachFamily : Prop :=
  decodeWord 0b00000000000000000000000000000001#32 = some .clr ∧
  decodeWord 0b00000000000000000000000000010010#32 = some .i2osp ∧
  decodeWord 0b00000000000000000000001000010100#32 = some .concat2 ∧
  decodeWord 0b00000000000000000000000000100000#32 = some .xmd ∧
  decodeWord 0b00000000000000000001011100110000#32 = some (.h2f true true true false true false) ∧
  decodeWord 0b00000000000000000000000001000001#32 = some .l2b ∧
  decode 0b00000000000000010000000000010010#32 = .reject .zNotZero ∧
  decode 0b00000000000000000000000100010010#32 = .reject .argNotZero ∧
  decode 0b00000000000000000000001100010100#32 = .reject .concatArg ∧
  decode 0b00000000000000000010000000110000#32 = .reject .h2fExpandVal ∧
  decode 0b00000000000000000100000000110000#32 = .reject .h2fReservedBits ∧
  decode 0b00000000000000000000000000000000#32 = .reject .noSuchOpcode

/-- A word decodes to a command exactly when it is the encoding of that well-formed command: no bit is
dropped and no other word is legal (30_encoding R97, R98). -/
def Obligations.DecodeAndEncodeAgree : Prop :=
  ∀ (w : Word) (i : Instr), decodeWord w = some i ↔ i.wf = true ∧ encode i = w

/-- 30_encoding R97: "So there are exactly 10 + 3 + 48 = 61 legal words". -/
def Obligations.ExactlySixtyOneLegalWords : Prop :=
  Set.ncard { w : Word | decodeWord w ≠ none } = 61 ∧
  Set.ncard { w : Word | ∃ i, decodeWord w = some i ∧ opcField w = 0x14 } = 3 ∧
  Set.ncard { w : Word | ∃ i, decodeWord w = some i ∧ opcField w = 0x30 } = 48 ∧
  Set.ncard { w : Word | ∃ i, decodeWord w = some i ∧ opcField w ≠ 0x14 ∧ opcField w ≠ 0x30 } = 10

/-! ## Steps, phases and reset -/

/-- The turn at the head of the list is the one taken. Outside reset the sequencer in BUSY runs the
command whose word CMD_LAST holds, a CLR word written to CMD outside BUSY runs CLR, other writes reach the
port and the engine has its effect. Reads and the edges of `rst` have their effect always, and without a
turn nothing moves. What the turns do while `rst` is asserted is `ResetLeavesStatedValues`. -/
def Obligations.StepRunsTheDecodedCommand : Prop :=
  ∀ (s : State) (rest : List Turn),
    (∀ i, s.rst = false → s.inputs = .sequencer :: rest → s.phase = .busy →
      decodeWord s.cmdLast = some i → step s = exec i { s with inputs := rest }) ∧
    (s.rst = false → s.inputs = .write 0 0x00000001 :: rest → s.phase ≠ .busy →
      step s = exec .clr { s with inputs := rest, cmdLast := 0x00000001 }) ∧
    (∀ a v, s.rst = false → s.inputs = .write a v :: rest → a ≠ 0 →
      step s = .next (portWrite (4 * a.toNat) v { s with inputs := rest })) ∧
    (∀ a, s.inputs = .read a :: rest →
      step s = .next (portRead (4 * a.toNat) { s with inputs := rest })) ∧
    (s.rst = false → s.inputs = .engine :: rest →
      step s = .next (engineTurn { s with inputs := rest })) ∧
    (s.inputs = .reset :: rest → step s = .next (resetTurn { s with inputs := rest })) ∧
    (s.inputs = .release :: rest → step s = .next (releaseTurn { s with inputs := rest })) ∧
    (s.inputs = .sequencer :: rest → s.phase ≠ .busy → step s = .next { s with inputs := rest }) ∧
    (s.inputs = [] → step s = .next s)

/-- 10_state R55, 70_reset R260: the state after reset, for the state the model starts in, at the
assertion of `rst` in every state, and at its release, with the instance constants kept; while `rst` is
asserted the state stays that of R55, whatever the agents do, until the release. Then a host write, CMD
and IE among them, a turn of the sequencer and a turn of the engine change nothing, and a read returns the
word of that state. A release without an assertion changes nothing. That a write has no effect then and a
read has one is the model's reading of R260 (log 16, DEDUCED). -/
def Obligations.ResetLeavesStatedValues : Prop :=
  (AtReset State.reset ∧ State.reset.rst = false) ∧
  (∀ (s : State) (rest : List Turn),
    (s.inputs = .reset :: rest → ∃ t, step s = .next t ∧ AtReset t ∧ t.rst = true ∧
      t.cfg = s.cfg ∧ capsWord t = capsWord s ∧ t.inputs = rest) ∧
    (s.inputs = .release :: rest → s.rst = true → ∃ t, step s = .next t ∧ AtReset t ∧
      t.rst = false ∧ t.cfg = s.cfg ∧ capsWord t = capsWord s ∧ t.inputs = rest)) ∧
  (∀ s t : State, s.rst = true → AtReset s → step s = .next t →
    AtReset t ∧ t.cfg = s.cfg ∧ irq t = false ∧
      (t.rst = true ∨ ∃ rest, s.inputs = .release :: rest)) ∧
  ∀ (s : State) (rest : List Turn),
    (∀ a v, s.rst = true → s.inputs = .write a v :: rest → step s = .next { s with inputs := rest }) ∧
    (s.rst = true → s.inputs = .sequencer :: rest → step s = .next { s with inputs := rest }) ∧
    (s.rst = true → s.inputs = .engine :: rest → step s = .next { s with inputs := rest }) ∧
    (∀ a, s.rst = true → AtReset s → s.inputs = .read a :: rest →
      step s = .next { s with inputs := rest, rdata := s.windowWord (4 * a.toNat) }) ∧
    (s.rst = false → s.inputs = .release :: rest → step s = .next { s with inputs := rest })

/-- 44_system R200: a CMD write by the phase at the moment of the write, outside reset. -/
def Obligations.CmdWriteIsHandledByPhase : Prop :=
  ∀ (s : State) (w : Word) (rest : List Turn), s.rst = false → s.inputs = .write 0 w :: rest →
    let s0 := { s with inputs := rest }
    (s.phase = .busy → step s = .next { s0 with ovr := true }) ∧
    (s.phase = .err → w ≠ 0x00000001 → step s = .next { s0 with ovr := true }) ∧
    (s.phase = .idle ∨ s.phase = .done → decodeWord w = none →
      step s = .next { s0 with cmdLast := w, phase := .err, errCode := 7, errInfo := w }) ∧
    (s.phase ≠ .busy → w = 0x00000001 →
      ∃ t, step s = .next t ∧ Cleared { s0 with cmdLast := w } t) ∧
    (∀ i, s.phase = .idle ∨ s.phase = .done → decodeWord w = some i → i ≠ .clr →
      ∃ t, step s = .next t ∧ Accepted i w s0 t)

/-- 44_system R205, R200: the meaning of CLR completes in every state, with the values R205 lists, and
changes nothing else. Its word written to CMD outside BUSY and reset runs it at once, and CMD_LAST
becomes that word: the model's reading of R200 (3) (log 22, DEDUCED). In BUSY the word is dropped; the
first part says nothing about a write there (log 20). -/
def Obligations.ClrClearsStatusOnly : Prop :=
  (∀ s : State, ∃ t, exec .clr s = .next t ∧ Cleared s t) ∧
  ∀ (s : State) (rest : List Turn), s.rst = false → s.inputs = .write 0 0x00000001 :: rest →
    (s.phase ≠ .busy → ∃ t, step s = .next t ∧
      Cleared { s with inputs := rest, cmdLast := 0x00000001 } t) ∧
    (s.phase = .busy → step s = .next { s with inputs := rest, ovr := true })

/-- 10_state R24: PHASE changes only by the rows of the table. The premise rules out states with CLR or
no command in CMD_LAST while BUSY and states in reset that are not the reset state, which no run reaches
(`StepKeepsInvariant`). -/
def Obligations.PhaseChangesOnlyAsTabled : Prop :=
  ∀ s t : State, s.PhaseOk → s.ResetOk → step s = .next t → t.phase ≠ s.phase →
    ∃ (e : Turn) (rest : List Turn), s.inputs = e :: rest ∧
      ((e = .reset ∧ t.phase = .idle) ∨
       (∃ w i, e = .write 0 w ∧ (s.phase = .idle ∨ s.phase = .done) ∧ decodeWord w = some i ∧
          i ≠ .clr ∧ t.phase = .busy) ∨
       (∃ w, e = .write 0 w ∧ (s.phase = .idle ∨ s.phase = .done) ∧ decodeWord w = none ∧
          t.phase = .err) ∨
       (∃ w, e = .write 0 w ∧ decodeWord w = some .clr ∧ s.phase ≠ .busy ∧ t.phase = .idle) ∨
       (e = .sequencer ∧ s.phase = .busy ∧ (t.phase = .done ∨ t.phase = .err)))

/-- 60_exceptions R239: phase ERR is left only by CLR or reset, and until then the first error stays. The
premise rules out states in reset that are not the reset state, which no run reaches. -/
def Obligations.ErrIsLeftOnlyByClrOrReset : Prop :=
  ∀ s t : State, s.ResetOk → s.phase = .err → step s = .next t →
    (t.phase = .err ∧ t.errCode = s.errCode ∧ t.errInfo = s.errInfo) ∨
    (∃ rest, s.inputs = .reset :: rest) ∨ (∃ rest, s.inputs = .write 0 0x00000001 :: rest)

/-- 10_state R31: OVR is set only by a dropped CMD write and cleared only by an accepted CLR or by
reset. -/
def Obligations.OvrIsSticky : Prop :=
  ∀ s t : State, s.PhaseOk → s.ResetOk → step s = .next t → t.ovr ≠ s.ovr →
    (t.ovr = true ∧ ∃ w rest, s.inputs = .write 0 w :: rest ∧
      (s.phase = .busy ∨ s.phase = .err ∧ w ≠ 0x00000001)) ∨
    (t.ovr = false ∧ ((∃ rest, s.inputs = .reset :: rest) ∨
      ∃ rest, s.inputs = .write 0 0x00000001 :: rest ∧ s.phase ≠ .busy))

/-- 10_state R22, R40: no step changes the instance constants, the hardwired defaults among them. -/
def Obligations.InstanceConstantsNeverChange : Prop :=
  ∀ s t : State, step s = .next t → t.cfg = s.cfg

/-- 44_system R202: no command changes an operand register, MSG, DSTB or P_OVR, nor IE, OVR or
CMD_LAST. CLR, which clears OVR, has its own statement. -/
def Obligations.CommandsKeepTheirOperands : Prop :=
  ∀ (i : Instr) (s t : State), i ≠ .clr → exec i s = .next t → KeepsOperands s t

/-! ## The host port -/

/-- 20_memory R76: while BUSY, which is never in reset (`StepKeepsInvariant`), a host write changes
nothing but IE, and a CMD write sets OVR. -/
def Obligations.BusyIgnoresHostWrites : Prop :=
  ∀ (s : State) (a : PortAddr) (v : Word) (rest : List Turn),
    s.rst = false → s.phase = .busy → s.inputs = .write a v :: rest →
    step s = .next
      (if a = 0 then { s with inputs := rest, ovr := true }
       else if a = 4 then { s with inputs := rest, ie := v.extractLsb' 0 2 }
       else { s with inputs := rest })

/-- 20_memory R68, R77: a host read changes nothing but the data it returns (and the model's count of
free values). That is the word at the offset, everywhere but in the words of OUT and of the entries of
ELEM that exist and in the BIGX window, while a command runs that writes them; there it may be a free
value. That this takes in the words past a smaller XW is the model's choice (log 11). The first three
clauses give the destinations of each command, OUT, ELEM and BIGX, as 44_system R201 tables them. -/
def Obligations.HostReadsHaveNoSideEffect : Prop :=
  (∀ i : Instr,
    (targetsOut i = true ↔ i ∈ [.hex2bytes, .bytes2hex, .i2osp, .concat0, .concat1, .concat2,
      .str2bytes, .xmd] ∨ ∃ p m k d e v, i = .h2f p m k d e v) ∧
    (targetsElem i = true ↔ i ∈ [.b2l, .hex2byteints] ∨ ∃ p m k d e v, i = .h2f p m k d e v) ∧
    (targetsBigx i = true ↔ i ∈ [.os2ip, .l2b])) ∧
  ∀ (s : State) (a : PortAddr) (rest : List Turn), s.inputs = .read a :: rest →
    ∃ r d, step s = .next { s with inputs := rest, rdata := r, draws := d } ∧
      ((∀ i, s.phase = .busy → decodeWord s.cmdLast = some i →
          (0x3000 ≤ 4 * a.toNat → 4 * a.toNat < 0x5000 →
            4 * a.toNat - 0x3000 < s.cfg.caps.outMax → targetsOut i = false) ∧
          (0x8000 ≤ 4 * a.toNat → 4 * a.toNat < 0xC000 →
            (4 * a.toNat - 0x8000) / 64 < s.cfg.caps.elemMax →
            32 * (4 * a.toNat % 64 / 4) < s.cfg.caps.ew → targetsElem i = false) ∧
          (0x100 ≤ 4 * a.toNat → 4 * a.toNat < 0x180 → i ≠ .os2ip ∧ i ≠ .l2b)) →
        r = s.windowWord (4 * a.toNat) ∧ d = s.draws)

/-- 20_memory R77 with 10_state R37, R38: while BUSY the lengths the command zeroed read 0, and STATUS
reads BUSY. -/
def Obligations.BusyLengthsReadZero : Prop :=
  ∀ (s : State) (i : Instr) (rest : List Turn), s.PhaseOk → s.phase = .busy →
    decodeWord s.cmdLast = some i →
    (targetsOut i = true → s.inputs = .read 14 :: rest →
      ∃ t, step s = .next t ∧ t.rdata = 0) ∧
    (targetsElem i = true → s.inputs = .read 15 :: rest →
      ∃ t, step s = .next t ∧ t.rdata = 0) ∧
    (s.inputs = .read 1 :: rest →
      ∃ t, step s = .next t ∧ t.rdata.getLsbD 0 = true ∧ t.rdata.getLsbD 1 = false ∧
        t.rdata.getLsbD 2 = false)

/-- 10_state R30 to R36, 20_memory R68, R76: outside BUSY a host write to a scalar register stores the
word (IE its two bits), which reads back, and changes nothing else, and a write to a read-only one
changes nothing; that a write takes effect in ERR too is the model's reading of R76 (log 21, DEDUCED).
In every phase a host read returns the image of the register: CMD the word CMD_LAST, STATUS its four
bits, CAPS the bit DIGEST_PRESENT. -/
def Obligations.ScalarRegistersReadBack : Prop :=
  (∀ (s : State) (rest : List Turn) (a : PortAddr), s.inputs = .read a :: rest →
    ∃ t, step s = .next t ∧
      (a = 0 → t.rdata = s.cmdLast) ∧
      (a = 1 → ∀ k, t.rdata.getLsbD k = match k with
        | 0 => decide (s.phase = .busy)
        | 1 => decide (s.phase = .done)
        | 2 => decide (s.phase = .err)
        | 3 => s.ovr
        | _ => false) ∧
      (a = 2 → t.rdata.toNat = s.errCode.toNat) ∧
      (a = 3 → t.rdata = s.errInfo) ∧
      (a = 4 → t.rdata.toNat = s.ie.toNat) ∧
      (a = 5 → t.rdata.toNat = if s.cfg.digestPresent then 1 else 0) ∧
      (a = 6 → t.rdata = s.msgLen) ∧ (a = 7 → t.rdata = s.dstLen) ∧
      (a = 8 → t.rdata = s.lenArg) ∧ (a = 9 → t.rdata = s.count) ∧
      (a = 10 → t.rdata = s.mOvr) ∧ (a = 11 → t.rdata = s.kOvr) ∧
      (a = 12 → t.rdata = s.limbN) ∧ (a = 13 → t.rdata = s.limbK) ∧
      (a = 14 → t.rdata = s.outLen) ∧ (a = 15 → t.rdata = s.elemCnt)) ∧
  ∀ (s : State) (v : Word), s.phase ≠ .busy →
    (∀ off ∈ [0x018, 0x01C, 0x020, 0x024, 0x028, 0x02C, 0x030, 0x034, 0x03C],
      (portWrite off v s).windowWord off = v) ∧
    (portWrite 0x010 v s).windowWord 0x010 = v &&& 3 ∧
    portWrite 0x010 v s = { s with ie := v.extractLsb' 0 2 } ∧
    portWrite 0x018 v s = { s with msgLen := v } ∧
    portWrite 0x01C v s = { s with dstLen := v } ∧
    portWrite 0x020 v s = { s with lenArg := v } ∧
    portWrite 0x024 v s = { s with count := v } ∧
    portWrite 0x028 v s = { s with mOvr := v } ∧
    portWrite 0x02C v s = { s with kOvr := v } ∧
    portWrite 0x030 v s = { s with limbN := v } ∧
    portWrite 0x034 v s = { s with limbK := v } ∧
    portWrite 0x03C v s = { s with elemCnt := v } ∧
    (∀ off ∈ [0x004, 0x008, 0x00C, 0x014, 0x038], portWrite off v s = s)

/-- 20_memory R64 with 10_state R41, R42: word `j` of BIGX or P_OVR as the host sees it holds bits
`32j+31 : 32j` of the register's number, in every state. A host write of word `j` sets those bits, as
far as the register has them, and leaves every other bit, every other word and every other register. At
the default widths a word reads back whole. The premise rules out values past the width, which no run
reaches (`StepKeepsInvariant`). That the write takes effect in ERR too is the model's reading of R76
(log 21, DEDUCED), and the words past another width are the model's choice (log 7). -/
def Obligations.WideRegisterWordsReadBack : Prop :=
  (∀ (s : State) (j : Nat),
    (j < 32 → (s.windowWord (0x100 + 4 * j)).toNat = s.bigx / 2 ^ (32 * j) % 2 ^ 32) ∧
    (j < 12 → (s.windowWord (0x180 + 4 * j)).toNat = s.pOvr / 2 ^ (32 * j) % 2 ^ 32)) ∧
  ∀ (s : State) (v : Word) (j k : Nat), s.phase ≠ .busy → s.WidthsOk →
    (j < 32 → k < 32 →
      let t := portWrite (0x100 + 4 * j) v s
      (k ≠ j → t.windowWord (0x100 + 4 * k) = s.windowWord (0x100 + 4 * k)) ∧
      (32 * j + 32 ≤ s.cfg.caps.xw → t.windowWord (0x100 + 4 * j) = v) ∧
      (s.cfg.caps.xw < 32 * j + 32 →
        (t.windowWord (0x100 + 4 * j)).toNat = v.toNat % 2 ^ (s.cfg.caps.xw - 32 * j)) ∧
      (∀ i, t.bigx.testBit i = if 32 * j ≤ i ∧ i < 32 * j + 32 then
        decide (i < s.cfg.caps.xw) && v.getLsbD (i - 32 * j) else s.bigx.testBit i) ∧
      t = { s with bigx := t.bigx } ∧ t.WidthsOk) ∧
    (j < 12 → k < 12 →
      let t := portWrite (0x180 + 4 * j) v s
      (k ≠ j → t.windowWord (0x180 + 4 * k) = s.windowWord (0x180 + 4 * k)) ∧
      (32 * j + 32 ≤ s.cfg.caps.pw → t.windowWord (0x180 + 4 * j) = v) ∧
      (s.cfg.caps.pw < 32 * j + 32 →
        (t.windowWord (0x180 + 4 * j)).toNat = v.toNat % 2 ^ (s.cfg.caps.pw - 32 * j)) ∧
      (∀ i, t.pOvr.testBit i = if 32 * j ≤ i ∧ i < 32 * j + 32 then
        decide (i < s.cfg.caps.pw) && v.getLsbD (i - 32 * j) else s.pOvr.testBit i) ∧
      t = { s with pOvr := t.pOvr } ∧ t.WidthsOk)

/-- 20_memory R64, R70, 10_state R43, R45, R46: a host write to a word of MSG or DSTB stores byte lane
`l` at the buffer index of offset `off + l`, where that byte exists; one to a word of an ELEM entry's
value replaces bits `32k+31 : 32k` of its number, `k` the word of the slot; nothing else changes. The
premise on ELEM rules out entries past their width, which no run reaches (`StepKeepsInvariant`). That
the write takes effect in ERR too is the model's reading of R76 (log 21, DEDUCED). That R70's map is kept
for every capacity, and a write past a smaller MSG_MAX, ELEM_MAX or EW dropped, is the model's choice
(log 7, DESIGN CHOICE). -/
def Obligations.StorageLanesReadBack : Prop :=
  ∀ (s : State) (off : Nat) (v : Word), s.phase ≠ .busy → off % 4 = 0 →
    let t := portWrite off v s
    (0x1000 ≤ off → off < 0x3000 → t = { s with msgMem := t.msgMem } ∧
      ∀ k, t.msgByte k =
        if off ≤ 0x1000 + k ∧ 0x1000 + k < off + 4 ∧ k < s.cfg.caps.msgMax then
          v.extractLsb' (8 * (0x1000 + k - off)) 8
        else s.msgByte k) ∧
    (0x200 ≤ off → off < 0x300 → t = { s with dstMem := t.dstMem } ∧
      ∀ k, t.dstByte k =
        if off ≤ 0x200 + k ∧ 0x200 + k < off + 4 ∧ k < 255 then
          v.extractLsb' (8 * (0x200 + k - off)) 8
        else s.dstByte k) ∧
    (0x8000 ≤ off → off < 0xC000 → (∀ e, s.elem e < 2 ^ s.cfg.caps.ew) →
      t = { s with elemMem := t.elemMem } ∧
      ∀ e k, t.elem e / 2 ^ (32 * k) % 2 ^ 32 =
        if e = (off - 0x8000) / 64 ∧ k = off % 64 / 4 ∧ e < s.cfg.caps.elemMax then
          v.toNat % 2 ^ (s.cfg.caps.ew - 32 * k)
        else s.elem e / 2 ^ (32 * k) % 2 ^ 32)

/-- 20_memory R64, R70, 10_state R43 to R47: the word the host sees at an offset of a buffer holds the
byte of index `off + l` in lane `l`, 0 where there is no such byte (the byte at 0x2FF among them), and
the word at an offset of ELEM holds bits `32k+31 : 32k` of the entry's number, `k` the word of the slot,
and 0 past its width (words 12 to 15 at the default width). That a byte or an entry past a smaller
capacity reads 0 is the model's choice (log 7). -/
def Obligations.StorageReadImages : Prop :=
  ∀ (s : State) (off l : Nat), off % 4 = 0 → l < 4 →
    let lane := (s.windowWord off).extractLsb' (8 * l) 8
    (0x1000 ≤ off → off < 0x3000 →
      lane = if off + l - 0x1000 < s.cfg.caps.msgMax then s.msgByte (off + l - 0x1000) else 0) ∧
    (0x3000 ≤ off → off < 0x5000 →
      lane = if off + l - 0x3000 < s.cfg.caps.outMax then s.outByte (off + l - 0x3000) else 0) ∧
    (0x200 ≤ off → off < 0x300 →
      lane = if off + l = 0x2FF then 0 else s.dstByte (off + l - 0x200)) ∧
    (0x8000 ≤ off → off < 0xC000 → (s.windowWord off).toNat =
      if (off - 0x8000) / 64 < s.cfg.caps.elemMax ∧ 32 * (off % 64 / 4) < s.cfg.caps.ew then
        s.elem ((off - 0x8000) / 64) / 2 ^ (32 * (off % 64 / 4)) % 2 ^ 32
      else 0)

/-- 20_memory R70, 10_state R43, R46: an unmapped word reads 0 and ignores writes; OUT ignores writes; the
byte at 0x2FF reads 0 and a write of it changes no byte of DSTB; words 12 to 15 of an ELEM slot read 0 and
ignore writes at the default width, as do the words past another width and the entries past another
capacity (the model's choice, log 7). -/
def Obligations.UnmappedAndReadOnlyOffsets : Prop :=
  ∀ (s : State) (off : Nat) (v : Word), off % 4 = 0 →
    ((0x40 ≤ off ∧ off < 0x100) ∨ (0x1B0 ≤ off ∧ off < 0x200) ∨ (0x300 ≤ off ∧ off < 0x1000) ∨
        (0x5000 ≤ off ∧ off < 0x8000) ∨ (0xC000 ≤ off ∧ off < 0x10000) →
      s.windowWord off = 0 ∧ portWrite off v s = s) ∧
    (0x3000 ≤ off ∧ off < 0x5000 → portWrite off v s = s) ∧
    ((s.windowWord 0x2FC).toNat < 2 ^ 24 ∧
      ((portWrite 0x2FC v s).windowWord 0x2FC).toNat < 2 ^ 24 ∧
      portWrite 0x2FC (v &&& 0x00FFFFFF) s = portWrite 0x2FC v s) ∧
    (0x8000 ≤ off ∧ off < 0xC000 →
      s.cfg.caps.ew ≤ 32 * (off % 64 / 4) ∨ s.cfg.caps.elemMax ≤ (off - 0x8000) / 64 →
      s.windowWord off = 0 ∧ portWrite off v s = s) ∧
    (0x8000 ≤ off ∧ off < 0xC000 → s.cfg.caps = Config.defaultCaps → 48 ≤ off % 64 →
      s.windowWord off = 0 ∧ portWrite off v s = s)

/-- 60_exceptions R240: the interrupt line is a function of STATUS and IE. -/
def Obligations.IrqFollowsStatusAndEnables : Prop :=
  ∀ s : State, irq s = ((statusWord s).getLsbD 1 && s.ie.getLsbD 0 ||
    (statusWord s).getLsbD 2 && s.ie.getLsbD 1) ∧
    (irq s = true ↔
      s.phase = .done ∧ s.ie.getLsbD 0 = true ∨ s.phase = .err ∧ s.ie.getLsbD 1 = true)

/-! ## Error entry -/

/-- 60_exceptions R231 to R233: the code and the detail word of every error. -/
def Obligations.ErrorCodesAndDetails : Prop :=
  (CmdError.malformedHexOdd.code = 1 ∧ CmdError.malformedHexOdd.info = 0xFFFFFFFF) ∧
  (∀ t, (CmdError.malformedHexAt t).code = 1 ∧
    (t < 2 ^ 32 → (CmdError.malformedHexAt t).info.toNat = t)) ∧
  (CmdError.integerRangeValue.code = 2 ∧ CmdError.integerRangeValue.info = 0) ∧
  (CmdError.integerRangeTag.code = 2 ∧ CmdError.integerRangeTag.info = 1) ∧
  (∀ ell, (CmdError.lengthTooLarge ell).code = 3 ∧
    (CmdError.lengthTooLarge ell).info.toNat = min ell (2 ^ 32 - 1)) ∧
  (CmdError.capacityOverflow.code = 4 ∧ CmdError.capacityOverflow.info = 0) ∧
  (CmdError.missingDigestBackend.code = 5 ∧ CmdError.missingDigestBackend.info = 0) ∧
  (∀ c, (CmdError.operandRange c).code = 6) ∧
  ([RangeCause.msgLen, .dstLen, .outCapacity, .elemCount, .os2ipLen, .codePoint, .modulusZero,
    .degreeZero, .limbWidth, .limbCount, .limbTooLarge, .notPreExpanded].map
      fun c => (CmdError.operandRange c).info.toNat) = [1, 2, 3, 4, 5, 6, 7, 8, 9, 10, 11, 12] ∧
  (∀ w, (CmdError.illegalCommand w).code = 7 ∧ (CmdError.illegalCommand w).info = w)

/-- 44_system R203: a failing command has written nothing: its lengths are 0, BIGX and all storage outside
its destinations are as before. -/
def Obligations.FailingCommandWritesNothing : Prop :=
  ∀ (i : Instr) (s t : State), s.phase = .busy → exec i s = .next t → t.phase = .err →
    FrameFail i s t

/-- 60_exceptions R235: a command ends only in errors its row of the table marks. -/
def Obligations.CommandsRaiseOnlyTabledErrors : Prop :=
  ∀ (i : Instr) (s t : State), s.phase = .busy → exec i s = .next t → t.phase = .err →
    ∃ e, mayRaise i (expandsIn i s) e = true ∧ t.errCode = e.code ∧ t.errInfo = e.info

/-- 60_exceptions R230, R239: after CLR the failed command, accepted again with unchanged operands,
fails with the same error. -/
def Obligations.RetryReproducesTheError : Prop :=
  ∀ (i : Instr) (w : Word) (s t t1 t2 : State), i ≠ .clr → s.phase = .busy → s.chain = none →
    exec i s = .next t → t.phase = .err → exec .clr t = .next t1 →
    exec i (accept i w t1) = .next t2 →
    t2.phase = .err ∧ t2.errCode = t.errCode ∧ t2.errInfo = t.errInfo

/-- 10_state R21, R36, 70_reset R273: what a command does is a function of what its rule names as read and
of the instance's parameters: in two states that agree on that it ends in the same phase, with the same
error or the same result, or, XMD and an expanding H2F, makes the same first digest request with the same
hidden state, whatever else differs. The premise says that ELEM holds a limb array (`CapsOk.limbs`). -/
def Obligations.ResultsDependOnOperandsAlone : Prop :=
  ∀ (i : Instr) (s s' t t' : State), s.cfg.caps.kMax ≤ s.cfg.caps.elemMax → SameOperands i s s' →
    s.phase = .busy → s'.phase = .busy → s.chain = none → s'.chain = none →
    exec i s = .next t → exec i s' = .next t' →
    t'.phase = t.phase ∧
    (t.phase = .err → t'.errCode = t.errCode ∧ t'.errInfo = t.errInfo) ∧
    (t.phase = .busy → t'.digestReq = t.digestReq ∧ t'.chain = t.chain) ∧
    (t.phase = .done → targetsOut i = true → t'.out = t.out) ∧
    (t.phase = .done → targetsElem i = true → t'.elems = t.elems) ∧
    (t.phase = .done → targetsBigx i = true → t'.bigx = t.bigx)

/-! ## ByteCodec -/

/-- 40_bytecodec R110: the 22 codes of hex digits with their values, no other code is one; the digit
written for a value is lower case. -/
def Obligations.HexDigitCodes : Prop :=
  (∀ c : Byte,
    (0x30 ≤ c.toNat ∧ c.toNat ≤ 0x39 → hexDigit? c = some (c.toNat - 0x30)) ∧
    (0x61 ≤ c.toNat ∧ c.toNat ≤ 0x66 → hexDigit? c = some (c.toNat - 0x61 + 10)) ∧
    (0x41 ≤ c.toNat ∧ c.toNat ≤ 0x46 → hexDigit? c = some (c.toNat - 0x41 + 10)) ∧
    (hexDigit? c ≠ none → (0x30 ≤ c.toNat ∧ c.toNat ≤ 0x39) ∨ (0x61 ≤ c.toNat ∧ c.toNat ≤ 0x66) ∨
      (0x41 ≤ c.toNat ∧ c.toNat ≤ 0x46))) ∧
  ∀ v : Nat, (v ≤ 9 → (hexChar v).toNat = 0x30 + v) ∧
    (10 ≤ v → v ≤ 15 → (hexChar v).toNat = 0x61 + (v - 10)) ∧
    (v ≤ 15 → hexDigit? (hexChar v) = some v)

/-- 40_bytecodec R112: HEX2BYTES on a string of hex digits of even length. -/
def Obligations.Hex2bytesDecodesPairs : Prop :=
  ∀ s : State, s.msgLen.toNat ≤ s.cfg.caps.msgMax → s.msgLen.toNat % 2 = 0 →
    (∀ k, k < s.msgLen.toNat → hexDigit? (s.msgByte k) ≠ none) →
    ∃ t, exec .hex2bytes s = .next t ∧ Completed s t ∧ t.outLen.toNat = s.msgLen.toNat / 2 ∧
      (∀ k, k < s.msgLen.toNat / 2 → ∃ hi lo,
        hexDigit? (s.msgByte (2 * k)) = some hi ∧
        hexDigit? (s.msgByte (2 * k + 1)) = some lo ∧
        (t.outByte k).toNat = 16 * hi + lo) ∧
      FrameOut s t

/-- 40_bytecodec R112 and 43_limbcodec R186: the errors of the two hex commands, in test order. -/
def Obligations.HexCommandsFailInOrder : Prop :=
  ∀ s : State,
    (s.cfg.caps.msgMax < s.msgLen.toNat → FailsWith .hex2bytes (.operandRange .msgLen) s ∧
      FailsWith .hex2byteints (.operandRange .msgLen) s) ∧
    (s.msgLen.toNat ≤ s.cfg.caps.msgMax → s.cfg.caps.elemMax < s.msgLen.toNat / 2 →
      FailsWith .hex2byteints (.operandRange .elemCount) s) ∧
    (s.msgLen.toNat ≤ s.cfg.caps.msgMax → s.msgLen.toNat % 2 = 1 →
      FailsWith .hex2bytes .malformedHexOdd s ∧
      (s.msgLen.toNat / 2 ≤ s.cfg.caps.elemMax → FailsWith .hex2byteints .malformedHexOdd s)) ∧
    (∀ k, s.msgLen.toNat ≤ s.cfg.caps.msgMax → s.msgLen.toNat % 2 = 0 → k < s.msgLen.toNat →
      hexDigit? (s.msgByte k) = none →
      (∀ j, j < k → hexDigit? (s.msgByte j) ≠ none) →
      FailsWith .hex2bytes (.malformedHexAt k) s ∧
      (s.msgLen.toNat / 2 ≤ s.cfg.caps.elemMax → FailsWith .hex2byteints (.malformedHexAt k) s))

/-- 40_bytecodec R114: BYTES2HEX writes two lower-case digits a byte, high nibble first. OUT_LEN holds a
length below 2^32. -/
def Obligations.Bytes2hexEncodesNibbles : Prop :=
  ∀ s : State,
    (s.msgLen.toNat ≤ s.cfg.caps.msgMax → 2 * s.msgLen.toNat ≤ s.cfg.caps.outMax →
      2 * s.msgLen.toNat < 2 ^ 32 →
      ∃ t, exec .bytes2hex s = .next t ∧ Completed s t ∧ t.outLen.toNat = 2 * s.msgLen.toNat ∧
        (∀ k, k < s.msgLen.toNat →
          t.outByte (2 * k) = hexChar ((s.msgByte k).toNat / 16) ∧
          t.outByte (2 * k + 1) = hexChar ((s.msgByte k).toNat % 16)) ∧
        FrameOut s t) ∧
    (s.cfg.caps.msgMax < s.msgLen.toNat → FailsWith .bytes2hex (.operandRange .msgLen) s) ∧
    (s.msgLen.toNat ≤ s.cfg.caps.msgMax → s.cfg.caps.outMax < 2 * s.msgLen.toNat →
      FailsWith .bytes2hex (.operandRange .outCapacity) s)

/-- 40_bytecodec R116: I2OSP writes LEN_ARG big-endian bytes of BIGX, or fails. -/
def Obligations.I2ospWritesBigEndianBytes : Prop :=
  decodeWord 0x00000012 = some .i2osp ∧
  ∀ s : State,
    (s.lenArg.toNat ≤ s.cfg.caps.outMax → s.bigx < 2 ^ (8 * s.lenArg.toNat) →
      ∃ t, exec .i2osp s = .next t ∧ Completed s t ∧ t.outLen = s.lenArg ∧
        (∀ k, k < s.lenArg.toNat → (t.outByte k).toNat =
          s.bigx / 256 ^ (s.lenArg.toNat - 1 - k) % 256) ∧
        FrameOut s t) ∧
    (s.cfg.caps.outMax < s.lenArg.toNat → FailsWith .i2osp (.operandRange .outCapacity) s) ∧
    (s.lenArg.toNat ≤ s.cfg.caps.outMax → 2 ^ (8 * s.lenArg.toNat) ≤ s.bigx →
      FailsWith .i2osp .integerRangeValue s)

/-- 40_bytecodec R118: OS2IP puts the big-endian integer of the message in BIGX, or fails. -/
def Obligations.Os2ipReadsBigEndianInteger : Prop :=
  decodeWord 0x00000013 = some .os2ip ∧
  ∀ s : State,
    (s.msgLen.toNat ≤ s.cfg.caps.msgMax → s.msgLen.toNat ≤ s.cfg.caps.xw / 8 →
      ∃ t, exec .os2ip s = .next t ∧ Completed s t ∧
        t.bigx = ∑ k ∈ Finset.range s.msgLen.toNat,
          (s.msgByte k).toNat * 256 ^ (s.msgLen.toNat - 1 - k) ∧
        FrameBigx s t) ∧
    (s.cfg.caps.msgMax < s.msgLen.toNat → FailsWith .os2ip (.operandRange .msgLen) s) ∧
    (s.msgLen.toNat ≤ s.cfg.caps.msgMax → s.cfg.caps.xw / 8 < s.msgLen.toNat →
      FailsWith .os2ip (.operandRange .os2ipLen) s)

/-- 40_bytecodec R120: CONCAT of no, one and two byte sequences, and its errors in test order.
OUT_LEN holds a length below 2^32. -/
def Obligations.ConcatJoinsBuffersInOrder : Prop :=
  decodeWord 0x00000014 = some .concat0 ∧ decodeWord 0x00000114 = some .concat1 ∧
  decodeWord 0x00000214 = some .concat2 ∧
  ∀ s : State,
    (∃ t, exec .concat0 s = .next t ∧ Completed s t ∧ t.outLen = 0 ∧ FrameOut s t) ∧
    (s.msgLen.toNat ≤ s.cfg.caps.msgMax →
      ∃ t, exec .concat1 s = .next t ∧ Completed s t ∧ t.outLen = s.msgLen ∧
        (∀ k, k < s.msgLen.toNat → t.outByte k = s.msgByte k) ∧
        FrameOut s t) ∧
    (s.msgLen.toNat ≤ s.cfg.caps.msgMax → s.dstLen.toNat ≤ 255 →
      s.msgLen.toNat + s.dstLen.toNat ≤ s.cfg.caps.outMax →
      s.msgLen.toNat + s.dstLen.toNat < 2 ^ 32 →
      ∃ t, exec .concat2 s = .next t ∧ Completed s t ∧
        t.outLen.toNat = s.msgLen.toNat + s.dstLen.toNat ∧
        (∀ k, k < s.msgLen.toNat → t.outByte k = s.msgByte k) ∧
        (∀ k, k < s.dstLen.toNat →
          t.outByte (s.msgLen.toNat + k) = s.dstByte k) ∧
        FrameOut s t) ∧
    (s.cfg.caps.msgMax < s.msgLen.toNat → FailsWith .concat1 (.operandRange .msgLen) s ∧
      FailsWith .concat2 (.operandRange .msgLen) s) ∧
    (s.msgLen.toNat ≤ s.cfg.caps.msgMax → 255 < s.dstLen.toNat →
      FailsWith .concat2 (.operandRange .dstLen) s) ∧
    (s.msgLen.toNat ≤ s.cfg.caps.msgMax → s.dstLen.toNat ≤ 255 →
      s.cfg.caps.outMax < s.msgLen.toNat + s.dstLen.toNat →
      FailsWith .concat2 (.operandRange .outCapacity) s)

/-- 40_bytecodec R122: STR2BYTES writes one byte per code point, or fails. -/
def Obligations.Str2bytesWritesCodePoints : Prop :=
  decodeWord 0x00000015 = some .str2bytes ∧
  ∀ s : State,
    (s.elemCnt.toNat ≤ s.cfg.caps.elemMax → (∀ k, k < s.elemCnt.toNat → s.elem k < 256) →
      ∃ t, exec .str2bytes s = .next t ∧ Completed s t ∧ t.outLen = s.elemCnt ∧
        (∀ k, k < s.elemCnt.toNat → (t.outByte k).toNat = s.elem k) ∧
        FrameOut s t) ∧
    (s.cfg.caps.elemMax < s.elemCnt.toNat → FailsWith .str2bytes (.operandRange .elemCount) s) ∧
    (∀ k, s.elemCnt.toNat ≤ s.cfg.caps.elemMax → k < s.elemCnt.toNat → 256 ≤ s.elem k →
      FailsWith .str2bytes (.operandRange .codePoint) s)

/-- 40_bytecodec R113, R117 with 00_scope R19 (a), (b): the two round trips of ByteCodec. -/
def Obligations.ByteCodecRoundTrips : Prop :=
  (∀ bs : List Byte, hexToBytes (bytesToHex bs) = .ok bs) ∧
  (∀ v n : Nat, v < 2 ^ (8 * n) → ∃ bs, i2osp v n = .ok bs ∧ bs.length = n ∧ os2ip bs = v) ∧
  (∀ v n : Nat, 2 ^ (8 * n) ≤ v → i2osp v n = .error .integerRangeValue)

/-! ## SHA-256 -/

/-- 45_sha256 R215: `H` maps every byte sequence to exactly 32 bytes. -/
def Obligations.DigestIsThirtyTwoBytes : Prop := ∀ s : List Byte, (sha256 s).length = 32

/-- 45_sha256 R222: two of the check values of SHA-256. -/
def Obligations.DigestCheckValues : Prop :=
  os2ip (sha256 []) = 0xe3b0c44298fc1c149afbf4c8996fb92427ae41e4649b934ca495991b7852b855 ∧
  os2ip (sha256 [0x61, 0x62, 0x63]) =
    0xba7816bf8f01cfea414140de5dae2223b00361a396177a9cb410ff61f20015ad

/-- 45_sha256 R220: the padded message is a whole number of 64-byte blocks, begins with the message and
ends with its length in bits, with fewer than 64 zero bytes between the `80` and the length. -/
def Obligations.DigestPaddingFillsBlocks : Prop :=
  ∀ s : List Byte, (shaPad s).length % 64 = 0 ∧ (shaPad s).take (s.length + 1) = s ++ [0x80] ∧
    (shaPad s).length < s.length + 9 + 64 ∧
    (∀ k, s.length < k → k + 8 < (shaPad s).length → (shaPad s)[k]? = some 0) ∧
    (shaPad s).drop ((shaPad s).length - 8) = beBytes (8 * s.length) 8

/-- 60_exceptions R245 with 70_reset R260: the engine answers the outstanding request with `H` of it;
with none outstanding, as during and after a reset, its turn is ignored. -/
def Obligations.EngineAnswersOutstandingRequest : Prop :=
  ∀ (s : State) (rest : List Turn),
    (∀ m, s.rst = false → s.inputs = .engine :: rest → s.digestReq = some m →
      step s = .next { s with inputs := rest, digestReq := none, digestResp := some (sha256 m) }) ∧
    (s.inputs = .engine :: rest → s.digestReq = none → step s = .next { s with inputs := rest }) ∧
    (s.inputs = .reset :: .engine :: rest →
      ∃ t, step s = .next t ∧ step t = .next { t with inputs := rest }) ∧
    (s.inputs = .reset :: .release :: .engine :: rest →
      ∃ t u, step s = .next t ∧ step t = .next u ∧ step u = .next { u with inputs := rest })

/-! ## ExpandMessage -/

/-- 41 R148, R149: with its tests passed XMD requests `H(msg')` with CHAIN_I 0, its hidden state belongs
to the expansion it asks for, and nothing else changes. -/
def Obligations.XmdStartsWithMsgPrime : Prop :=
  ∀ s : State, s.chain = none → s.msgLen.toNat ≤ s.cfg.caps.msgMax → s.lenArg.toNat ≤ 8160 →
    s.dstLen.toNat ≤ 255 → s.cfg.digestPresent = true →
    ∃ t c, exec .xmd s = .next t ∧ t.chain = some c ∧ c.idx = 0 ∧
      c.ell = (s.lenArg.toNat + 31) / 32 ∧ ChainBelongs .xmd c t ∧
      t.digestReq = some (List.replicate 64 0 ++ s.msg ++
        [BitVec.ofNat 8 (s.lenArg.toNat / 256), BitVec.ofNat 8 s.lenArg.toNat, 0] ++ s.dst ++
        [BitVec.ofNat 8 s.dstLen.toNat]) ∧
      t = { s with chain := some c, digestReq := t.digestReq, digestResp := none }

/-- 41 R148 with R145: the errors of XMD in test order. -/
def Obligations.XmdFailsInOrder : Prop :=
  ∀ s : State, s.chain = none →
    (s.cfg.caps.msgMax < s.msgLen.toNat → FailsWith .xmd (.operandRange .msgLen) s) ∧
    (s.msgLen.toNat ≤ s.cfg.caps.msgMax → 8160 < s.lenArg.toNat →
      FailsWith .xmd (.lengthTooLarge ((s.lenArg.toNat + 31) / 32)) s) ∧
    (s.msgLen.toNat ≤ s.cfg.caps.msgMax → s.lenArg.toNat ≤ 8160 → 255 < s.dstLen.toNat →
      FailsWith .xmd .integerRangeTag s) ∧
    (s.msgLen.toNat ≤ s.cfg.caps.msgMax → s.lenArg.toNat ≤ 8160 → s.dstLen.toNat ≤ 255 →
      s.cfg.digestPresent = false → FailsWith .xmd .missingDigestBackend s)

/-- 41 R146, R149, 42 R164: on a response before the last, XMD or an expanding H2F requests the next
digest of the chain of the expansion it asks for and waits for no other agent; without a response it
waits and nothing changes. -/
def Obligations.ExpansionsRequestDigestsInChainOrder : Prop :=
  ∀ (i : Instr) (s : State) (c : Chain), s.chain = some c → ChainBelongs i c s →
    (s.digestResp = none → exec i s = .next s) ∧
    (s.digestResp ≠ none → c.idx < max c.ell 1 →
      ∃ t c', exec i s = .next t ∧ t.chain = some c' ∧ c'.idx = c.idx + 1 ∧
        t.digestReq = some (chainInput sha256 (expansionOf i s).msg (expansionOf i s).dst
          (expansionOf i s).len (c.idx + 1)) ∧
        ChainBelongs i c' t ∧
        t = { s with chain := some c', digestReq := t.digestReq, digestResp := none })

/-- 41 R148, R149: on the last response XMD completes: OUT holds `expand_message_xmd` of its operands,
OUT_LEN is LEN_ARG, and nothing outside OUT changes. -/
def Obligations.XmdEndsWithExpandedMessage : Prop :=
  ∀ (s : State) (c : Chain), s.chain = some c → ChainBelongs .xmd c s → c.idx = max c.ell 1 →
    s.digestResp ≠ none →
    ∃ t, exec .xmd s = .next t ∧ Completed s t ∧ t.outLen = s.lenArg ∧
      expandMessageXmd s.cfg.digestPresent sha256 s.msg s.dst s.lenArg.toNat = .ok t.out ∧
      FrameOut s t

/-- 41 R144, R146, R148: an accepted XMD whose tests pass reaches DONE after exactly
`max(ell, 1) + 1` digest invocations, with `expand_message_xmd` of its operands in OUT. -/
def Obligations.XmdRunComputesExpandMessage : Prop :=
  ∀ s : State, s.rst = false → s.phase = .busy → decodeWord s.cmdLast = some .xmd → s.chain = none →
    s.digestResp = none → s.msgLen.toNat ≤ s.cfg.caps.msgMax → s.lenArg.toNat ≤ 8160 →
    s.dstLen.toNat ≤ 255 → s.cfg.digestPresent = true →
    s.inputs = digestTurns (max ((s.lenArg.toNat + 31) / 32) 1 + 1) →
    ∃ t, Host.Core.run core (2 * (max ((s.lenArg.toNat + 31) / 32) 1 + 1) + 1) s = .next t ∧
      Completed s t ∧ t.outLen = s.lenArg ∧
      t.out = xmdBytes sha256 s.msg s.dst s.lenArg.toNat ∧
      FrameOut { s with inputs := [] } t

/-- 41 R147 with 00_scope R19 (c), (i): the output length is the requested one, and more than 255 blocks
fail; for every digest of 32 bytes. -/
def Obligations.ExpandedLengthIsExact : Prop :=
  ∀ (h : List Byte → List Byte) (msg dst : List Byte) (n : Nat), (∀ x, (h x).length = 32) →
    (∀ u, expandMessageXmd true h msg dst n = .ok u → u.length = n) ∧
    (n ≤ 8160 → dst.length ≤ 255 → ∃ u, expandMessageXmd true h msg dst n = .ok u) ∧
    (255 < (n + 31) / 32 →
      expandMessageXmd true h msg dst n = .error (.lengthTooLarge ((n + 31) / 32)))

/-! ## FieldHasher -/

/-- 42 R164 to R167: an H2F that does not expand writes the residues of the chunks of the message, row
by row. -/
def Obligations.H2fReducesPreExpandedMessage : Prop :=
  ∀ (s : State) (p m k d v : Bool) (e : Bool),
    let cf := resolveH2f p m k d e v s
    let bytes := (bitlen cf.p + cf.secK + 7) / 8
    s.count.toNat * cf.m < 2 ^ 32 → s.chain = none → cf.expand = false →
    s.msgLen.toNat ≤ s.cfg.caps.msgMax → 0 < cf.p → 0 < cf.m →
    s.count.toNat * cf.m ≤ s.cfg.caps.elemMax → s.msgLen.toNat = s.count.toNat * cf.m * bytes →
    ∃ t, exec (.h2f p m k d e v) s = .next t ∧ Completed s t ∧ t.outLen = 0 ∧
      t.elemCnt.toNat = s.count.toNat * cf.m ∧
      (∀ i j, i < s.count.toNat → j < cf.m →
        t.elem (i * cf.m + j) =
          os2ip ((s.msg.drop (bytes * (j + i * cf.m))).take bytes) % cf.p) ∧
      FrameH2f s t

/-- 42 R167 with 41 R149: an H2F that expands requests `H(msg')` with CHAIN_I 0 once its tests have
passed, its hidden state belongs to the expansion it asks for, and nothing else changes. -/
def Obligations.H2fStartsExpansion : Prop :=
  ∀ (s : State) (p m k d v : Bool) (e : Bool),
    let cf := resolveH2f p m k d e v s
    s.chain = none → cf.expand = true →
    h2fFailure s.cfg cf s.count.toNat s.msgLen.toNat = none →
    ∃ t c, exec (.h2f p m k d e v) s = .next t ∧ t.chain = some c ∧ c.idx = 0 ∧
      c.ell = (cf.lenInBytes s.count.toNat + 31) / 32 ∧ ChainBelongs (.h2f p m k d e v) c t ∧
      t.digestReq = some (chainInput sha256 s.msg cf.dst (cf.lenInBytes s.count.toNat) 0) ∧
      t = { s with chain := some c, digestReq := t.digestReq, digestResp := none }

/-- 42 R163 to R167: on the last response an expanding H2F completes: ELEM holds the residues of the
chunks of the expanded message, row by row, each below `p`. -/
def Obligations.H2fEndsWithFieldElements : Prop :=
  ∀ (s : State) (c : Chain) (p m k d v : Bool) (e : Bool),
    let cf := resolveH2f p m k d e v s
    let bytes := (bitlen cf.p + cf.secK + 7) / 8
    s.count.toNat * cf.m < 2 ^ 32 → s.chain = some c → ChainBelongs (.h2f p m k d e v) c s →
    c.idx = max c.ell 1 →
    s.digestResp ≠ none →
    ∃ t, exec (.h2f p m k d e v) s = .next t ∧ Completed s t ∧ t.outLen = 0 ∧
      t.elemCnt.toNat = s.count.toNat * cf.m ∧
      (∀ i j, i < s.count.toNat → j < cf.m →
        t.elem (i * cf.m + j) < cf.p ∧
        t.elem (i * cf.m + j) =
          os2ip (((xmdBytes sha256 s.msg cf.dst (s.count.toNat * cf.m * bytes)).drop
            (bytes * (j + i * cf.m))).take bytes) % cf.p) ∧
      FrameH2f s t

/-- 42 R167: the errors of H2F in test order. -/
def Obligations.H2fFailsInOrder : Prop :=
  ∀ (s : State) (p m k d v : Bool) (e : Bool),
    let i := Instr.h2f p m k d e v
    let cf := resolveH2f p m k d e v s
    let len := s.count.toNat * cf.m * ((bitlen cf.p + cf.secK + 7) / 8)
    s.chain = none →
    (s.cfg.caps.msgMax < s.msgLen.toNat → FailsWith i (.operandRange .msgLen) s) ∧
    (s.msgLen.toNat ≤ s.cfg.caps.msgMax → cf.p = 0 → FailsWith i (.operandRange .modulusZero) s) ∧
    (s.msgLen.toNat ≤ s.cfg.caps.msgMax → cf.p ≠ 0 → cf.m = 0 →
      FailsWith i (.operandRange .degreeZero) s) ∧
    (s.msgLen.toNat ≤ s.cfg.caps.msgMax → cf.p ≠ 0 → cf.m ≠ 0 →
      s.cfg.caps.elemMax < s.count.toNat * cf.m →
      FailsWith i (.operandRange .elemCount) s) ∧
    (s.msgLen.toNat ≤ s.cfg.caps.msgMax → cf.p ≠ 0 → cf.m ≠ 0 →
      s.count.toNat * cf.m ≤ s.cfg.caps.elemMax →
      (cf.expand = true →
        (255 < (len + 31) / 32 → FailsWith i (.lengthTooLarge ((len + 31) / 32)) s) ∧
        ((len + 31) / 32 ≤ 255 → 255 < cf.dstLen → FailsWith i .integerRangeTag s) ∧
        ((len + 31) / 32 ≤ 255 → cf.dstLen ≤ 255 → s.cfg.digestPresent = false →
          FailsWith i .missingDigestBackend s)) ∧
      (cf.expand = false → s.msgLen.toNat ≠ len →
        FailsWith i (.operandRange .notPreExpanded) s))

/-- 42 R164 to R168, 41 R146: an accepted expanding H2F whose tests pass reaches DONE, and ELEM holds
`hash_to_field` of its operands. -/
def Obligations.H2fRunComputesHashToField : Prop :=
  ∀ (s : State) (p m k d v : Bool) (e : Bool),
    let cf := resolveH2f p m k d e v s
    let n := max ((cf.lenInBytes s.count.toNat + 31) / 32) 1 + 1
    s.count.toNat * cf.m < 2 ^ 32 → s.rst = false → s.phase = .busy →
    decodeWord s.cmdLast = some (.h2f p m k d e v) →
    s.chain = none →
    s.digestResp = none → cf.expand = true →
    h2fFailure s.cfg cf s.count.toNat s.msgLen.toNat = none →
    s.inputs = digestTurns n →
    ∃ t tuples, Host.Core.run core (2 * n + 1) s = .next t ∧ Completed s t ∧
      hashToField s.cfg.digestPresent sha256 cf s.msg s.count.toNat = .ok tuples ∧
      t.elems = tuples.flatten ∧ FrameH2f { s with inputs := [] } t

/-- 42 R163, R167: with the default configuration a coordinate takes 64 bytes, so `len_in_bytes` is
`128 · count`; with the default capacities every count up to 63 passes the tests and 64 raises
LengthTooLarge with `ell` 256. -/
def Obligations.DefaultH2fTakes64BytesPerCoordinate : Prop :=
  ∀ s : State, s.ParamsOk → s.cfg.caps = Config.defaultCaps → s.cfg.digestPresent = true →
    s.msgLen.toNat ≤ 8192 →
    let cf := resolveH2f false false false false false false s
    cf.coordBytes = 64 ∧ (∀ n, cf.lenInBytes n = 128 * n) ∧
    (∀ n, n ≤ 63 → h2fFailure s.cfg cf n s.msgLen.toNat = none) ∧
    h2fFailure s.cfg cf 64 s.msgLen.toNat = some (.lengthTooLarge 256)

/-- 42 R162 with 70_reset R273: an override register is not read when its OVR bit is 0: H2F does the
same whatever it holds. -/
def Obligations.OverridesAreReadOnlyWhenSelected : Prop :=
  ∀ (s t : State) (a b c d e : Bool) (x : Word) (y : Nat),
    (exec (.h2f false a b c d e) s = .next t →
      exec (.h2f false a b c d e) { s with pOvr := y } = .next { t with pOvr := y }) ∧
    (exec (.h2f a false b c d e) s = .next t →
      exec (.h2f a false b c d e) { s with mOvr := x } = .next { t with mOvr := x }) ∧
    (exec (.h2f a b false c d e) s = .next t →
      exec (.h2f a b false c d e) { s with kOvr := x } = .next { t with kOvr := x }) ∧
    (exec (.h2f a b c false d e) s = .next t →
      exec (.h2f a b c false d e) { s with dstLen := x } = .next { t with dstLen := x })

/-- 42 R164 to R166, R168 with 00_scope R17, R19 (e), (f): the pure function `hash_to_field` gives `count`
tuples of `m` coordinates, each below `p`, and it gives them for every modulus, degree and count: no
capacity of the unit enters, only the failures of the expansion or a message of the wrong length. -/
def Obligations.HashToFieldShapeAndRange : Prop :=
  ∀ (present : Bool) (h : List Byte → List Byte) (cf : H2fConfig) (msg : List Byte) (n : Nat),
    (∀ tuples : List (List Nat), hashToField present h cf msg n = .ok tuples →
      tuples.length = n ∧ ∀ tup ∈ tuples, tup.length = cf.m ∧ ∀ x ∈ tup, x < cf.p) ∧
    (0 < cf.p → 0 < cf.m → cf.expand = false → msg.length = cf.lenInBytes n →
      ∃ tuples, hashToField present h cf msg n = .ok tuples ∧
        ∀ i j, i < n → j < cf.m → (tuples.flatten)[i * cf.m + j]? = some
          (os2ip ((msg.drop (cf.coordBytes * (j + i * cf.m))).take cf.coordBytes) % cf.p)) ∧
    (0 < cf.p → 0 < cf.m → cf.expand = true → cf.lenInBytes n ≤ 8160 → cf.dstLen ≤ 255 →
      present = true →
      ∃ tuples, hashToField present h cf msg n = .ok tuples ∧
        ∀ i j, i < n → j < cf.m → (tuples.flatten)[i * cf.m + j]? = some
          (os2ip (((xmdBytes h msg cf.dst (cf.lenInBytes n)).drop
            (cf.coordBytes * (j + i * cf.m))).take cf.coordBytes) % cf.p))

/-! ## LimbCodec -/

/-- 43 R182: B2L writes the little-endian limbs of BIGX, or fails. -/
def Obligations.B2lWritesLittleEndianLimbs : Prop :=
  decodeWord 0x00000040 = some .b2l ∧
  ∀ s : State,
    (1 ≤ s.limbN.toNat → s.limbN.toNat ≤ s.cfg.caps.nMax → 1 ≤ s.limbK.toNat →
      s.limbK.toNat ≤ s.cfg.caps.kMax →
      s.bigx < 2 ^ (s.limbN.toNat * s.limbK.toNat) →
      ∃ t, exec .b2l s = .next t ∧ Completed s t ∧ t.elemCnt = s.limbK ∧
        (∀ k, k < s.limbK.toNat →
          t.elem k = s.bigx / 2 ^ (s.limbN.toNat * k) % 2 ^ s.limbN.toNat) ∧
        FrameElem s t) ∧
    (s.limbN.toNat = 0 ∨ s.cfg.caps.nMax < s.limbN.toNat →
      FailsWith .b2l (.operandRange .limbWidth) s) ∧
    (1 ≤ s.limbN.toNat → s.limbN.toNat ≤ s.cfg.caps.nMax →
      s.limbK.toNat = 0 ∨ s.cfg.caps.kMax < s.limbK.toNat →
      FailsWith .b2l (.operandRange .limbCount) s) ∧
    (1 ≤ s.limbN.toNat → s.limbN.toNat ≤ s.cfg.caps.nMax → 1 ≤ s.limbK.toNat →
      s.limbK.toNat ≤ s.cfg.caps.kMax →
      2 ^ (s.limbN.toNat * s.limbK.toNat) ≤ s.bigx → FailsWith .b2l .capacityOverflow s)

/-- 43 R184: L2B puts `Σ ELEM[i] · 2^(LIMB_N · i)` in BIGX, or fails. -/
def Obligations.L2bSumsLimbs : Prop :=
  decodeWord 0x00000041 = some .l2b ∧
  ∀ s : State,
    (1 ≤ s.limbN.toNat → s.limbN.toNat ≤ s.cfg.caps.nMax → 1 ≤ s.elemCnt.toNat →
      s.elemCnt.toNat ≤ s.cfg.caps.kMax →
      (∀ k, k < s.elemCnt.toNat → s.elem k < 2 ^ s.limbN.toNat) →
      ∃ t, exec .l2b s = .next t ∧ Completed s t ∧
        t.bigx = ∑ k ∈ Finset.range s.elemCnt.toNat,
          s.elem k * 2 ^ (s.limbN.toNat * k) ∧
        FrameBigx s t) ∧
    (s.limbN.toNat = 0 ∨ s.cfg.caps.nMax < s.limbN.toNat →
      FailsWith .l2b (.operandRange .limbWidth) s) ∧
    (1 ≤ s.limbN.toNat → s.limbN.toNat ≤ s.cfg.caps.nMax →
      s.elemCnt.toNat = 0 ∨ s.cfg.caps.kMax < s.elemCnt.toNat →
      FailsWith .l2b (.operandRange .limbCount) s) ∧
    (∀ k, 1 ≤ s.limbN.toNat → s.limbN.toNat ≤ s.cfg.caps.nMax →
      s.elemCnt.toNat ≤ s.cfg.caps.kMax → k < s.elemCnt.toNat →
      2 ^ s.limbN.toNat ≤ s.elem k → FailsWith .l2b (.operandRange .limbTooLarge) s)

/-- 43 R186: HEX2BYTEINTS writes one entry per byte of the hex string, in string order. -/
def Obligations.Hex2byteintsKeepsStringOrder : Prop :=
  ∀ s : State, s.msgLen.toNat ≤ s.cfg.caps.msgMax → s.msgLen.toNat / 2 ≤ s.cfg.caps.elemMax →
    s.msgLen.toNat % 2 = 0 →
    (∀ k, k < s.msgLen.toNat → hexDigit? (s.msgByte k) ≠ none) →
    ∃ t, exec .hex2byteints s = .next t ∧ Completed s t ∧
      t.elemCnt.toNat = s.msgLen.toNat / 2 ∧
      (∀ k, k < s.msgLen.toNat / 2 → ∃ hi lo,
        hexDigit? (s.msgByte (2 * k)) = some hi ∧
        hexDigit? (s.msgByte (2 * k + 1)) = some lo ∧
        t.elem k = 16 * hi + lo) ∧
      FrameElem s t

/-- 43 R183 with 00_scope R19 (g): the two codecs are inverse to each other on limb arrays. -/
def Obligations.LimbRoundTrips : Prop :=
  (∀ n k x : Nat, x < 2 ^ (n * k) →
    ∃ ls, bigintToLimbs n k x = .ok ls ∧ ls.length = k ∧ (∀ l ∈ ls, l < 2 ^ n) ∧
      limbsToBigint n ls = x) ∧
  (∀ (n : Nat) (ls : List Nat), (∀ l ∈ ls, l < 2 ^ n) →
    limbsToBigint n ls < 2 ^ (n * ls.length) ∧
    bigintToLimbs n ls.length (limbsToBigint n ls) = .ok ls)

/-! ## The invariant -/

/-- The state after reset meets the invariant. -/
def Obligations.ResetMeetsInvariant : Prop := State.reset.Inv

/-- Every step of every agent keeps the invariant: storage canonical and within its capacities, OUT
specified only below OUT_LEN, every value within its width, ERRCODE non-zero exactly in ERR, a running
command behind every BUSY with its lengths 0, the digest chain always the running command's own, the
instance constants legal, the state of 10_state R55 while `rst` is asserted. -/
def Obligations.StepKeepsInvariant : Prop := ∀ s t : State, s.Inv → step s = .next t → t.Inv

/-- From a state that meets the invariant every step answers a next state: the machine never stops. -/
def Obligations.InvariantStatesNeverStop : Prop := ∀ s : State, s.Inv → ∃ t, step s = .next t
end

