-- ==== Sys2Proof/Laws/Bytes.lean ====
section
/-! SUPPORT. Lengths and inverses of the byte helpers. -/

namespace Sys2Proof.Machine

@[simp] theorem length_beBytes (v n : Nat) : (beBytes v n).length = n := by simp [beBytes]

@[simp] theorem length_zeroBytes (n : Nat) : (zeroBytes n).length = n := by simp [zeroBytes]

@[simp] theorem length_xorBytes (a b : List Byte) :
    (xorBytes a b).length = min a.length b.length := by simp [xorBytes]

theorem os2ip_lt (bs : List Byte) : os2ip bs < 256 ^ bs.length := by
  induction bs with
  | nil => simp [os2ip]
  | cons b bs ih =>
    have hb := b.isLt
    have : (b.toNat + 1) * 256 ^ bs.length ≤ 256 * 256 ^ bs.length :=
      Nat.mul_le_mul_right _ (by omega)
    simp only [os2ip, List.length_cons, Nat.pow_succ]
    linarith [this, ih, Nat.mul_comm 256 (256 ^ bs.length),
      Nat.add_mul b.toNat 1 (256 ^ bs.length)]

/-- Every bit length bounds its number. -/
theorem lt_two_pow_bitlen (a : Nat) : a < 2 ^ bitlen a := by
  unfold bitlen
  split
  · simp_all
  · exact Nat.lt_log2_self

theorem bitlen_of_range {a t : Nat} (h1 : 2 ^ t ≤ a) (h2 : a < 2 ^ (t + 1)) : bitlen a = t + 1 := by
  have h0 : a ≠ 0 := by have := Nat.two_pow_pos t; omega
  rw [bitlen, if_neg h0, (Nat.log2_eq_iff h0).2 ⟨h1, h2⟩]

theorem bitlen_le {a n : Nat} (h : a < 2 ^ n) : bitlen a ≤ n := by
  unfold bitlen
  split
  · omega
  · next h0 => exact (Nat.log2_lt h0).2 h

end Sys2Proof.Machine
end

