-- ==== Sys2Proof/Laws/State.lean ====
section
/-! SUPPORT. What each shared update does to each field of State and to each read of storage, so that no
later proof unfolds a record update. -/

namespace Sys2Proof.Machine

/-! ## When a read of storage is the same in two states -/

theorem msgByte_congr {s t : State} (hm : t.msgMem = s.msgMem) (hd : t.bootDraw = s.bootDraw)
    (k : Nat) : t.msgByte k = s.msgByte k := by simp only [State.msgByte, hm, hd]

theorem dstByte_congr {s t : State} (hm : t.dstMem = s.dstMem) (hd : t.bootDraw = s.bootDraw)
    (k : Nat) : t.dstByte k = s.dstByte k := by simp only [State.dstByte, hm, hd]

theorem outByte_congr {s t : State} (hm : t.outMem = s.outMem) (hd : t.outDraw = s.outDraw)
    (k : Nat) : t.outByte k = s.outByte k := by simp only [State.outByte, hm, hd]

theorem elem_congr {s t : State} (hm : t.elemMem = s.elemMem) (hd : t.elemDraw = s.elemDraw)
    (hc : t.cfg = s.cfg) (e : Nat) : t.elem e = s.elem e := by simp only [State.elem, hm, hd, hc]

/-! ## `emptyOut` -/

@[simp] theorem emptyOut_cfg (s : State) : (emptyOut s).cfg = s.cfg := rfl
@[simp] theorem emptyOut_rst (s : State) : (emptyOut s).rst = s.rst := rfl
@[simp] theorem emptyOut_phase (s : State) : (emptyOut s).phase = s.phase := rfl
@[simp] theorem emptyOut_ovr (s : State) : (emptyOut s).ovr = s.ovr := rfl
@[simp] theorem emptyOut_errCode (s : State) : (emptyOut s).errCode = s.errCode := rfl
@[simp] theorem emptyOut_errInfo (s : State) : (emptyOut s).errInfo = s.errInfo := rfl
@[simp] theorem emptyOut_ie (s : State) : (emptyOut s).ie = s.ie := rfl
@[simp] theorem emptyOut_cmdLast (s : State) : (emptyOut s).cmdLast = s.cmdLast := rfl
@[simp] theorem emptyOut_msgLen (s : State) : (emptyOut s).msgLen = s.msgLen := rfl
@[simp] theorem emptyOut_dstLen (s : State) : (emptyOut s).dstLen = s.dstLen := rfl
@[simp] theorem emptyOut_lenArg (s : State) : (emptyOut s).lenArg = s.lenArg := rfl
@[simp] theorem emptyOut_count (s : State) : (emptyOut s).count = s.count := rfl
@[simp] theorem emptyOut_mOvr (s : State) : (emptyOut s).mOvr = s.mOvr := rfl
@[simp] theorem emptyOut_kOvr (s : State) : (emptyOut s).kOvr = s.kOvr := rfl
@[simp] theorem emptyOut_limbN (s : State) : (emptyOut s).limbN = s.limbN := rfl
@[simp] theorem emptyOut_limbK (s : State) : (emptyOut s).limbK = s.limbK := rfl
@[simp] theorem emptyOut_outLen (s : State) : (emptyOut s).outLen = 0 := rfl
@[simp] theorem emptyOut_elemCnt (s : State) : (emptyOut s).elemCnt = s.elemCnt := rfl
@[simp] theorem emptyOut_bigx (s : State) : (emptyOut s).bigx = s.bigx := rfl
@[simp] theorem emptyOut_pOvr (s : State) : (emptyOut s).pOvr = s.pOvr := rfl
@[simp] theorem emptyOut_msgMem (s : State) : (emptyOut s).msgMem = s.msgMem := rfl
@[simp] theorem emptyOut_dstMem (s : State) : (emptyOut s).dstMem = s.dstMem := rfl
@[simp] theorem emptyOut_outMem (s : State) : (emptyOut s).outMem = [] := rfl
@[simp] theorem emptyOut_elemMem (s : State) : (emptyOut s).elemMem = s.elemMem := rfl
@[simp] theorem emptyOut_chain (s : State) : (emptyOut s).chain = s.chain := rfl
@[simp] theorem emptyOut_digestReq (s : State) : (emptyOut s).digestReq = s.digestReq := rfl
@[simp] theorem emptyOut_digestResp (s : State) : (emptyOut s).digestResp = s.digestResp := rfl
@[simp] theorem emptyOut_inputs (s : State) : (emptyOut s).inputs = s.inputs := rfl
@[simp] theorem emptyOut_rdata (s : State) : (emptyOut s).rdata = s.rdata := rfl
@[simp] theorem emptyOut_draws (s : State) : (emptyOut s).draws = s.draws + 1 := rfl
@[simp] theorem emptyOut_bootDraw (s : State) : (emptyOut s).bootDraw = s.bootDraw := rfl
@[simp] theorem emptyOut_outDraw (s : State) : (emptyOut s).outDraw = s.draws := rfl
@[simp] theorem emptyOut_elemDraw (s : State) : (emptyOut s).elemDraw = s.elemDraw := rfl
@[simp] theorem emptyOut_msgByte (s : State) (k : Nat) :
    (emptyOut s).msgByte k = s.msgByte k := rfl
@[simp] theorem emptyOut_dstByte (s : State) (k : Nat) :
    (emptyOut s).dstByte k = s.dstByte k := rfl
@[simp] theorem emptyOut_elem (s : State) (k : Nat) :
    (emptyOut s).elem k = s.elem k := rfl

/-! ## `emptyElem` -/

@[simp] theorem emptyElem_cfg (s : State) : (emptyElem s).cfg = s.cfg := rfl
@[simp] theorem emptyElem_rst (s : State) : (emptyElem s).rst = s.rst := rfl
@[simp] theorem emptyElem_phase (s : State) : (emptyElem s).phase = s.phase := rfl
@[simp] theorem emptyElem_ovr (s : State) : (emptyElem s).ovr = s.ovr := rfl
@[simp] theorem emptyElem_errCode (s : State) : (emptyElem s).errCode = s.errCode := rfl
@[simp] theorem emptyElem_errInfo (s : State) : (emptyElem s).errInfo = s.errInfo := rfl
@[simp] theorem emptyElem_ie (s : State) : (emptyElem s).ie = s.ie := rfl
@[simp] theorem emptyElem_cmdLast (s : State) : (emptyElem s).cmdLast = s.cmdLast := rfl
@[simp] theorem emptyElem_msgLen (s : State) : (emptyElem s).msgLen = s.msgLen := rfl
@[simp] theorem emptyElem_dstLen (s : State) : (emptyElem s).dstLen = s.dstLen := rfl
@[simp] theorem emptyElem_lenArg (s : State) : (emptyElem s).lenArg = s.lenArg := rfl
@[simp] theorem emptyElem_count (s : State) : (emptyElem s).count = s.count := rfl
@[simp] theorem emptyElem_mOvr (s : State) : (emptyElem s).mOvr = s.mOvr := rfl
@[simp] theorem emptyElem_kOvr (s : State) : (emptyElem s).kOvr = s.kOvr := rfl
@[simp] theorem emptyElem_limbN (s : State) : (emptyElem s).limbN = s.limbN := rfl
@[simp] theorem emptyElem_limbK (s : State) : (emptyElem s).limbK = s.limbK := rfl
@[simp] theorem emptyElem_outLen (s : State) : (emptyElem s).outLen = s.outLen := rfl
@[simp] theorem emptyElem_elemCnt (s : State) : (emptyElem s).elemCnt = 0 := rfl
@[simp] theorem emptyElem_bigx (s : State) : (emptyElem s).bigx = s.bigx := rfl
@[simp] theorem emptyElem_pOvr (s : State) : (emptyElem s).pOvr = s.pOvr := rfl
@[simp] theorem emptyElem_msgMem (s : State) : (emptyElem s).msgMem = s.msgMem := rfl
@[simp] theorem emptyElem_dstMem (s : State) : (emptyElem s).dstMem = s.dstMem := rfl
@[simp] theorem emptyElem_outMem (s : State) : (emptyElem s).outMem = s.outMem := rfl
@[simp] theorem emptyElem_elemMem (s : State) : (emptyElem s).elemMem = [] := rfl
@[simp] theorem emptyElem_chain (s : State) : (emptyElem s).chain = s.chain := rfl
@[simp] theorem emptyElem_digestReq (s : State) : (emptyElem s).digestReq = s.digestReq := rfl
@[simp] theorem emptyElem_digestResp (s : State) : (emptyElem s).digestResp = s.digestResp := rfl
@[simp] theorem emptyElem_inputs (s : State) : (emptyElem s).inputs = s.inputs := rfl
@[simp] theorem emptyElem_rdata (s : State) : (emptyElem s).rdata = s.rdata := rfl
@[simp] theorem emptyElem_draws (s : State) : (emptyElem s).draws = s.draws + 1 := rfl
@[simp] theorem emptyElem_bootDraw (s : State) : (emptyElem s).bootDraw = s.bootDraw := rfl
@[simp] theorem emptyElem_outDraw (s : State) : (emptyElem s).outDraw = s.outDraw := rfl
@[simp] theorem emptyElem_elemDraw (s : State) : (emptyElem s).elemDraw = s.draws := rfl
@[simp] theorem emptyElem_msgByte (s : State) (k : Nat) :
    (emptyElem s).msgByte k = s.msgByte k := rfl
@[simp] theorem emptyElem_dstByte (s : State) (k : Nat) :
    (emptyElem s).dstByte k = s.dstByte k := rfl
@[simp] theorem emptyElem_outByte (s : State) (k : Nat) :
    (emptyElem s).outByte k = s.outByte k := rfl

/-! ## `dropHidden` -/

@[simp] theorem dropHidden_cfg (s : State) : (dropHidden s).cfg = s.cfg := rfl
@[simp] theorem dropHidden_rst (s : State) : (dropHidden s).rst = s.rst := rfl
@[simp] theorem dropHidden_phase (s : State) : (dropHidden s).phase = s.phase := rfl
@[simp] theorem dropHidden_ovr (s : State) : (dropHidden s).ovr = s.ovr := rfl
@[simp] theorem dropHidden_errCode (s : State) : (dropHidden s).errCode = s.errCode := rfl
@[simp] theorem dropHidden_errInfo (s : State) : (dropHidden s).errInfo = s.errInfo := rfl
@[simp] theorem dropHidden_ie (s : State) : (dropHidden s).ie = s.ie := rfl
@[simp] theorem dropHidden_cmdLast (s : State) : (dropHidden s).cmdLast = s.cmdLast := rfl
@[simp] theorem dropHidden_msgLen (s : State) : (dropHidden s).msgLen = s.msgLen := rfl
@[simp] theorem dropHidden_dstLen (s : State) : (dropHidden s).dstLen = s.dstLen := rfl
@[simp] theorem dropHidden_lenArg (s : State) : (dropHidden s).lenArg = s.lenArg := rfl
@[simp] theorem dropHidden_count (s : State) : (dropHidden s).count = s.count := rfl
@[simp] theorem dropHidden_mOvr (s : State) : (dropHidden s).mOvr = s.mOvr := rfl
@[simp] theorem dropHidden_kOvr (s : State) : (dropHidden s).kOvr = s.kOvr := rfl
@[simp] theorem dropHidden_limbN (s : State) : (dropHidden s).limbN = s.limbN := rfl
@[simp] theorem dropHidden_limbK (s : State) : (dropHidden s).limbK = s.limbK := rfl
@[simp] theorem dropHidden_outLen (s : State) : (dropHidden s).outLen = s.outLen := rfl
@[simp] theorem dropHidden_elemCnt (s : State) : (dropHidden s).elemCnt = s.elemCnt := rfl
@[simp] theorem dropHidden_bigx (s : State) : (dropHidden s).bigx = s.bigx := rfl
@[simp] theorem dropHidden_pOvr (s : State) : (dropHidden s).pOvr = s.pOvr := rfl
@[simp] theorem dropHidden_msgMem (s : State) : (dropHidden s).msgMem = s.msgMem := rfl
@[simp] theorem dropHidden_dstMem (s : State) : (dropHidden s).dstMem = s.dstMem := rfl
@[simp] theorem dropHidden_outMem (s : State) : (dropHidden s).outMem = s.outMem := rfl
@[simp] theorem dropHidden_elemMem (s : State) : (dropHidden s).elemMem = s.elemMem := rfl
@[simp] theorem dropHidden_chain (s : State) : (dropHidden s).chain = none := rfl
@[simp] theorem dropHidden_digestReq (s : State) : (dropHidden s).digestReq = none := rfl
@[simp] theorem dropHidden_digestResp (s : State) : (dropHidden s).digestResp = none := rfl
@[simp] theorem dropHidden_inputs (s : State) : (dropHidden s).inputs = s.inputs := rfl
@[simp] theorem dropHidden_rdata (s : State) : (dropHidden s).rdata = s.rdata := rfl
@[simp] theorem dropHidden_draws (s : State) : (dropHidden s).draws = s.draws := rfl
@[simp] theorem dropHidden_bootDraw (s : State) : (dropHidden s).bootDraw = s.bootDraw := rfl
@[simp] theorem dropHidden_outDraw (s : State) : (dropHidden s).outDraw = s.outDraw := rfl
@[simp] theorem dropHidden_elemDraw (s : State) : (dropHidden s).elemDraw = s.elemDraw := rfl
@[simp] theorem dropHidden_msgByte (s : State) (k : Nat) :
    (dropHidden s).msgByte k = s.msgByte k := rfl
@[simp] theorem dropHidden_dstByte (s : State) (k : Nat) :
    (dropHidden s).dstByte k = s.dstByte k := rfl
@[simp] theorem dropHidden_outByte (s : State) (k : Nat) :
    (dropHidden s).outByte k = s.outByte k := rfl
@[simp] theorem dropHidden_elem (s : State) (k : Nat) :
    (dropHidden s).elem k = s.elem k := rfl

/-! ## `complete` -/

@[simp] theorem complete_cfg (s : State) : (complete s).cfg = s.cfg := rfl
@[simp] theorem complete_rst (s : State) : (complete s).rst = s.rst := rfl
@[simp] theorem complete_phase (s : State) : (complete s).phase = .done := rfl
@[simp] theorem complete_ovr (s : State) : (complete s).ovr = s.ovr := rfl
@[simp] theorem complete_errCode (s : State) : (complete s).errCode = s.errCode := rfl
@[simp] theorem complete_errInfo (s : State) : (complete s).errInfo = s.errInfo := rfl
@[simp] theorem complete_ie (s : State) : (complete s).ie = s.ie := rfl
@[simp] theorem complete_cmdLast (s : State) : (complete s).cmdLast = s.cmdLast := rfl
@[simp] theorem complete_msgLen (s : State) : (complete s).msgLen = s.msgLen := rfl
@[simp] theorem complete_dstLen (s : State) : (complete s).dstLen = s.dstLen := rfl
@[simp] theorem complete_lenArg (s : State) : (complete s).lenArg = s.lenArg := rfl
@[simp] theorem complete_count (s : State) : (complete s).count = s.count := rfl
@[simp] theorem complete_mOvr (s : State) : (complete s).mOvr = s.mOvr := rfl
@[simp] theorem complete_kOvr (s : State) : (complete s).kOvr = s.kOvr := rfl
@[simp] theorem complete_limbN (s : State) : (complete s).limbN = s.limbN := rfl
@[simp] theorem complete_limbK (s : State) : (complete s).limbK = s.limbK := rfl
@[simp] theorem complete_outLen (s : State) : (complete s).outLen = s.outLen := rfl
@[simp] theorem complete_elemCnt (s : State) : (complete s).elemCnt = s.elemCnt := rfl
@[simp] theorem complete_bigx (s : State) : (complete s).bigx = s.bigx := rfl
@[simp] theorem complete_pOvr (s : State) : (complete s).pOvr = s.pOvr := rfl
@[simp] theorem complete_msgMem (s : State) : (complete s).msgMem = s.msgMem := rfl
@[simp] theorem complete_dstMem (s : State) : (complete s).dstMem = s.dstMem := rfl
@[simp] theorem complete_outMem (s : State) : (complete s).outMem = s.outMem := rfl
@[simp] theorem complete_elemMem (s : State) : (complete s).elemMem = s.elemMem := rfl
@[simp] theorem complete_chain (s : State) : (complete s).chain = none := rfl
@[simp] theorem complete_digestReq (s : State) : (complete s).digestReq = none := rfl
@[simp] theorem complete_digestResp (s : State) : (complete s).digestResp = none := rfl
@[simp] theorem complete_inputs (s : State) : (complete s).inputs = s.inputs := rfl
@[simp] theorem complete_rdata (s : State) : (complete s).rdata = s.rdata := rfl
@[simp] theorem complete_draws (s : State) : (complete s).draws = s.draws := rfl
@[simp] theorem complete_bootDraw (s : State) : (complete s).bootDraw = s.bootDraw := rfl
@[simp] theorem complete_outDraw (s : State) : (complete s).outDraw = s.outDraw := rfl
@[simp] theorem complete_elemDraw (s : State) : (complete s).elemDraw = s.elemDraw := rfl
@[simp] theorem complete_msgByte (s : State) (k : Nat) :
    (complete s).msgByte k = s.msgByte k := rfl
@[simp] theorem complete_dstByte (s : State) (k : Nat) :
    (complete s).dstByte k = s.dstByte k := rfl
@[simp] theorem complete_outByte (s : State) (k : Nat) :
    (complete s).outByte k = s.outByte k := rfl
@[simp] theorem complete_elem (s : State) (k : Nat) :
    (complete s).elem k = s.elem k := rfl

/-! ## `clearStatus` -/

@[simp] theorem clearStatus_cfg (s : State) : (clearStatus s).cfg = s.cfg := rfl
@[simp] theorem clearStatus_rst (s : State) : (clearStatus s).rst = s.rst := rfl
@[simp] theorem clearStatus_phase (s : State) : (clearStatus s).phase = .idle := rfl
@[simp] theorem clearStatus_ovr (s : State) : (clearStatus s).ovr = false := rfl
@[simp] theorem clearStatus_errCode (s : State) : (clearStatus s).errCode = 0 := rfl
@[simp] theorem clearStatus_errInfo (s : State) : (clearStatus s).errInfo = 0 := rfl
@[simp] theorem clearStatus_ie (s : State) : (clearStatus s).ie = s.ie := rfl
@[simp] theorem clearStatus_cmdLast (s : State) : (clearStatus s).cmdLast = s.cmdLast := rfl
@[simp] theorem clearStatus_msgLen (s : State) : (clearStatus s).msgLen = s.msgLen := rfl
@[simp] theorem clearStatus_dstLen (s : State) : (clearStatus s).dstLen = s.dstLen := rfl
@[simp] theorem clearStatus_lenArg (s : State) : (clearStatus s).lenArg = s.lenArg := rfl
@[simp] theorem clearStatus_count (s : State) : (clearStatus s).count = s.count := rfl
@[simp] theorem clearStatus_mOvr (s : State) : (clearStatus s).mOvr = s.mOvr := rfl
@[simp] theorem clearStatus_kOvr (s : State) : (clearStatus s).kOvr = s.kOvr := rfl
@[simp] theorem clearStatus_limbN (s : State) : (clearStatus s).limbN = s.limbN := rfl
@[simp] theorem clearStatus_limbK (s : State) : (clearStatus s).limbK = s.limbK := rfl
@[simp] theorem clearStatus_outLen (s : State) : (clearStatus s).outLen = 0 := rfl
@[simp] theorem clearStatus_elemCnt (s : State) : (clearStatus s).elemCnt = s.elemCnt := rfl
@[simp] theorem clearStatus_bigx (s : State) : (clearStatus s).bigx = s.bigx := rfl
@[simp] theorem clearStatus_pOvr (s : State) : (clearStatus s).pOvr = s.pOvr := rfl
@[simp] theorem clearStatus_msgMem (s : State) : (clearStatus s).msgMem = s.msgMem := rfl
@[simp] theorem clearStatus_dstMem (s : State) : (clearStatus s).dstMem = s.dstMem := rfl
@[simp] theorem clearStatus_outMem (s : State) : (clearStatus s).outMem = [] := rfl
@[simp] theorem clearStatus_elemMem (s : State) : (clearStatus s).elemMem = s.elemMem := rfl
@[simp] theorem clearStatus_chain (s : State) : (clearStatus s).chain = s.chain := rfl
@[simp] theorem clearStatus_digestReq (s : State) : (clearStatus s).digestReq = s.digestReq := rfl
@[simp] theorem clearStatus_digestResp (s : State) :
    (clearStatus s).digestResp = s.digestResp := rfl
@[simp] theorem clearStatus_inputs (s : State) : (clearStatus s).inputs = s.inputs := rfl
@[simp] theorem clearStatus_rdata (s : State) : (clearStatus s).rdata = s.rdata := rfl
@[simp] theorem clearStatus_draws (s : State) : (clearStatus s).draws = s.draws + 1 := rfl
@[simp] theorem clearStatus_bootDraw (s : State) : (clearStatus s).bootDraw = s.bootDraw := rfl
@[simp] theorem clearStatus_outDraw (s : State) : (clearStatus s).outDraw = s.draws := rfl
@[simp] theorem clearStatus_elemDraw (s : State) : (clearStatus s).elemDraw = s.elemDraw := rfl
@[simp] theorem clearStatus_msgByte (s : State) (k : Nat) :
    (clearStatus s).msgByte k = s.msgByte k := rfl
@[simp] theorem clearStatus_dstByte (s : State) (k : Nat) :
    (clearStatus s).dstByte k = s.dstByte k := rfl
@[simp] theorem clearStatus_elem (s : State) (k : Nat) :
    (clearStatus s).elem k = s.elem k := rfl

/-! ## `raiseError` -/

@[simp] theorem raiseError_cfg (e : CmdError) (s : State) : (raiseError e s).cfg = s.cfg := rfl
@[simp] theorem raiseError_rst (e : CmdError) (s : State) : (raiseError e s).rst = s.rst := rfl
@[simp] theorem raiseError_phase (e : CmdError) (s : State) : (raiseError e s).phase = .err := rfl
@[simp] theorem raiseError_ovr (e : CmdError) (s : State) : (raiseError e s).ovr = s.ovr := rfl
@[simp] theorem raiseError_errCode (e : CmdError) (s : State) :
    (raiseError e s).errCode = e.code := rfl
@[simp] theorem raiseError_errInfo (e : CmdError) (s : State) :
    (raiseError e s).errInfo = e.info := rfl
@[simp] theorem raiseError_ie (e : CmdError) (s : State) : (raiseError e s).ie = s.ie := rfl
@[simp] theorem raiseError_cmdLast (e : CmdError) (s : State) :
    (raiseError e s).cmdLast = s.cmdLast := rfl
@[simp] theorem raiseError_msgLen (e : CmdError) (s : State) :
    (raiseError e s).msgLen = s.msgLen := rfl
@[simp] theorem raiseError_dstLen (e : CmdError) (s : State) :
    (raiseError e s).dstLen = s.dstLen := rfl
@[simp] theorem raiseError_lenArg (e : CmdError) (s : State) :
    (raiseError e s).lenArg = s.lenArg := rfl
@[simp] theorem raiseError_count (e : CmdError) (s : State) :
    (raiseError e s).count = s.count := rfl
@[simp] theorem raiseError_mOvr (e : CmdError) (s : State) : (raiseError e s).mOvr = s.mOvr := rfl
@[simp] theorem raiseError_kOvr (e : CmdError) (s : State) : (raiseError e s).kOvr = s.kOvr := rfl
@[simp] theorem raiseError_limbN (e : CmdError) (s : State) :
    (raiseError e s).limbN = s.limbN := rfl
@[simp] theorem raiseError_limbK (e : CmdError) (s : State) :
    (raiseError e s).limbK = s.limbK := rfl
@[simp] theorem raiseError_outLen (e : CmdError) (s : State) :
    (raiseError e s).outLen = s.outLen := rfl
@[simp] theorem raiseError_elemCnt (e : CmdError) (s : State) :
    (raiseError e s).elemCnt = s.elemCnt := rfl
@[simp] theorem raiseError_bigx (e : CmdError) (s : State) : (raiseError e s).bigx = s.bigx := rfl
@[simp] theorem raiseError_pOvr (e : CmdError) (s : State) : (raiseError e s).pOvr = s.pOvr := rfl
@[simp] theorem raiseError_msgMem (e : CmdError) (s : State) :
    (raiseError e s).msgMem = s.msgMem := rfl
@[simp] theorem raiseError_dstMem (e : CmdError) (s : State) :
    (raiseError e s).dstMem = s.dstMem := rfl
@[simp] theorem raiseError_outMem (e : CmdError) (s : State) :
    (raiseError e s).outMem = s.outMem := rfl
@[simp] theorem raiseError_elemMem (e : CmdError) (s : State) :
    (raiseError e s).elemMem = s.elemMem := rfl
@[simp] theorem raiseError_chain (e : CmdError) (s : State) :
    (raiseError e s).chain = s.chain := rfl
@[simp] theorem raiseError_digestReq (e : CmdError) (s : State) :
    (raiseError e s).digestReq = s.digestReq := rfl
@[simp] theorem raiseError_digestResp (e : CmdError) (s : State) :
    (raiseError e s).digestResp = s.digestResp := rfl
@[simp] theorem raiseError_inputs (e : CmdError) (s : State) :
    (raiseError e s).inputs = s.inputs := rfl
@[simp] theorem raiseError_rdata (e : CmdError) (s : State) :
    (raiseError e s).rdata = s.rdata := rfl
@[simp] theorem raiseError_draws (e : CmdError) (s : State) :
    (raiseError e s).draws = s.draws := rfl
@[simp] theorem raiseError_bootDraw (e : CmdError) (s : State) :
    (raiseError e s).bootDraw = s.bootDraw := rfl
@[simp] theorem raiseError_outDraw (e : CmdError) (s : State) :
    (raiseError e s).outDraw = s.outDraw := rfl
@[simp] theorem raiseError_elemDraw (e : CmdError) (s : State) :
    (raiseError e s).elemDraw = s.elemDraw := rfl
@[simp] theorem raiseError_msgByte (e : CmdError) (s : State) (k : Nat) :
    (raiseError e s).msgByte k = s.msgByte k := rfl
@[simp] theorem raiseError_dstByte (e : CmdError) (s : State) (k : Nat) :
    (raiseError e s).dstByte k = s.dstByte k := rfl
@[simp] theorem raiseError_outByte (e : CmdError) (s : State) (k : Nat) :
    (raiseError e s).outByte k = s.outByte k := rfl
@[simp] theorem raiseError_elem (e : CmdError) (s : State) (k : Nat) :
    (raiseError e s).elem k = s.elem k := rfl

/-! ## `requestDigest` -/

@[simp] theorem requestDigest_cfg (m : List Byte) (s : State) :
    (requestDigest m s).cfg = s.cfg := rfl
@[simp] theorem requestDigest_rst (m : List Byte) (s : State) :
    (requestDigest m s).rst = s.rst := rfl
@[simp] theorem requestDigest_phase (m : List Byte) (s : State) :
    (requestDigest m s).phase = s.phase := rfl
@[simp] theorem requestDigest_ovr (m : List Byte) (s : State) :
    (requestDigest m s).ovr = s.ovr := rfl
@[simp] theorem requestDigest_errCode (m : List Byte) (s : State) :
    (requestDigest m s).errCode = s.errCode := rfl
@[simp] theorem requestDigest_errInfo (m : List Byte) (s : State) :
    (requestDigest m s).errInfo = s.errInfo := rfl
@[simp] theorem requestDigest_ie (m : List Byte) (s : State) : (requestDigest m s).ie = s.ie := rfl
@[simp] theorem requestDigest_cmdLast (m : List Byte) (s : State) :
    (requestDigest m s).cmdLast = s.cmdLast := rfl
@[simp] theorem requestDigest_msgLen (m : List Byte) (s : State) :
    (requestDigest m s).msgLen = s.msgLen := rfl
@[simp] theorem requestDigest_dstLen (m : List Byte) (s : State) :
    (requestDigest m s).dstLen = s.dstLen := rfl
@[simp] theorem requestDigest_lenArg (m : List Byte) (s : State) :
    (requestDigest m s).lenArg = s.lenArg := rfl
@[simp] theorem requestDigest_count (m : List Byte) (s : State) :
    (requestDigest m s).count = s.count := rfl
@[simp] theorem requestDigest_mOvr (m : List Byte) (s : State) :
    (requestDigest m s).mOvr = s.mOvr := rfl
@[simp] theorem requestDigest_kOvr (m : List Byte) (s : State) :
    (requestDigest m s).kOvr = s.kOvr := rfl
@[simp] theorem requestDigest_limbN (m : List Byte) (s : State) :
    (requestDigest m s).limbN = s.limbN := rfl
@[simp] theorem requestDigest_limbK (m : List Byte) (s : State) :
    (requestDigest m s).limbK = s.limbK := rfl
@[simp] theorem requestDigest_outLen (m : List Byte) (s : State) :
    (requestDigest m s).outLen = s.outLen := rfl
@[simp] theorem requestDigest_elemCnt (m : List Byte) (s : State) :
    (requestDigest m s).elemCnt = s.elemCnt := rfl
@[simp] theorem requestDigest_bigx (m : List Byte) (s : State) :
    (requestDigest m s).bigx = s.bigx := rfl
@[simp] theorem requestDigest_pOvr (m : List Byte) (s : State) :
    (requestDigest m s).pOvr = s.pOvr := rfl
@[simp] theorem requestDigest_msgMem (m : List Byte) (s : State) :
    (requestDigest m s).msgMem = s.msgMem := rfl
@[simp] theorem requestDigest_dstMem (m : List Byte) (s : State) :
    (requestDigest m s).dstMem = s.dstMem := rfl
@[simp] theorem requestDigest_outMem (m : List Byte) (s : State) :
    (requestDigest m s).outMem = s.outMem := rfl
@[simp] theorem requestDigest_elemMem (m : List Byte) (s : State) :
    (requestDigest m s).elemMem = s.elemMem := rfl
@[simp] theorem requestDigest_chain (m : List Byte) (s : State) :
    (requestDigest m s).chain = s.chain := rfl
@[simp] theorem requestDigest_digestReq (m : List Byte) (s : State) :
    (requestDigest m s).digestReq = some m := rfl
@[simp] theorem requestDigest_digestResp (m : List Byte) (s : State) :
    (requestDigest m s).digestResp = none := rfl
@[simp] theorem requestDigest_inputs (m : List Byte) (s : State) :
    (requestDigest m s).inputs = s.inputs := rfl
@[simp] theorem requestDigest_rdata (m : List Byte) (s : State) :
    (requestDigest m s).rdata = s.rdata := rfl
@[simp] theorem requestDigest_draws (m : List Byte) (s : State) :
    (requestDigest m s).draws = s.draws := rfl
@[simp] theorem requestDigest_bootDraw (m : List Byte) (s : State) :
    (requestDigest m s).bootDraw = s.bootDraw := rfl
@[simp] theorem requestDigest_outDraw (m : List Byte) (s : State) :
    (requestDigest m s).outDraw = s.outDraw := rfl
@[simp] theorem requestDigest_elemDraw (m : List Byte) (s : State) :
    (requestDigest m s).elemDraw = s.elemDraw := rfl
@[simp] theorem requestDigest_msgByte (m : List Byte) (s : State) (k : Nat) :
    (requestDigest m s).msgByte k = s.msgByte k := rfl
@[simp] theorem requestDigest_dstByte (m : List Byte) (s : State) (k : Nat) :
    (requestDigest m s).dstByte k = s.dstByte k := rfl
@[simp] theorem requestDigest_outByte (m : List Byte) (s : State) (k : Nat) :
    (requestDigest m s).outByte k = s.outByte k := rfl
@[simp] theorem requestDigest_elem (m : List Byte) (s : State) (k : Nat) :
    (requestDigest m s).elem k = s.elem k := rfl

/-! ## `emptyDests` -/

@[simp] theorem emptyDests_cfg (i : Instr) (s : State) :
    (emptyDests i s).cfg = s.cfg := by cases i <;> rfl
@[simp] theorem emptyDests_rst (i : Instr) (s : State) :
    (emptyDests i s).rst = s.rst := by cases i <;> rfl
@[simp] theorem emptyDests_phase (i : Instr) (s : State) :
    (emptyDests i s).phase = s.phase := by cases i <;> rfl
@[simp] theorem emptyDests_ovr (i : Instr) (s : State) :
    (emptyDests i s).ovr = s.ovr := by cases i <;> rfl
@[simp] theorem emptyDests_errCode (i : Instr) (s : State) :
    (emptyDests i s).errCode = s.errCode := by cases i <;> rfl
@[simp] theorem emptyDests_errInfo (i : Instr) (s : State) :
    (emptyDests i s).errInfo = s.errInfo := by cases i <;> rfl
@[simp] theorem emptyDests_ie (i : Instr) (s : State) :
    (emptyDests i s).ie = s.ie := by cases i <;> rfl
@[simp] theorem emptyDests_cmdLast (i : Instr) (s : State) :
    (emptyDests i s).cmdLast = s.cmdLast := by cases i <;> rfl
@[simp] theorem emptyDests_msgLen (i : Instr) (s : State) :
    (emptyDests i s).msgLen = s.msgLen := by cases i <;> rfl
@[simp] theorem emptyDests_dstLen (i : Instr) (s : State) :
    (emptyDests i s).dstLen = s.dstLen := by cases i <;> rfl
@[simp] theorem emptyDests_lenArg (i : Instr) (s : State) :
    (emptyDests i s).lenArg = s.lenArg := by cases i <;> rfl
@[simp] theorem emptyDests_count (i : Instr) (s : State) :
    (emptyDests i s).count = s.count := by cases i <;> rfl
@[simp] theorem emptyDests_mOvr (i : Instr) (s : State) :
    (emptyDests i s).mOvr = s.mOvr := by cases i <;> rfl
@[simp] theorem emptyDests_kOvr (i : Instr) (s : State) :
    (emptyDests i s).kOvr = s.kOvr := by cases i <;> rfl
@[simp] theorem emptyDests_limbN (i : Instr) (s : State) :
    (emptyDests i s).limbN = s.limbN := by cases i <;> rfl
@[simp] theorem emptyDests_limbK (i : Instr) (s : State) :
    (emptyDests i s).limbK = s.limbK := by cases i <;> rfl
@[simp] theorem emptyDests_bigx (i : Instr) (s : State) :
    (emptyDests i s).bigx = s.bigx := by cases i <;> rfl
@[simp] theorem emptyDests_pOvr (i : Instr) (s : State) :
    (emptyDests i s).pOvr = s.pOvr := by cases i <;> rfl
@[simp] theorem emptyDests_msgMem (i : Instr) (s : State) :
    (emptyDests i s).msgMem = s.msgMem := by cases i <;> rfl
@[simp] theorem emptyDests_dstMem (i : Instr) (s : State) :
    (emptyDests i s).dstMem = s.dstMem := by cases i <;> rfl
@[simp] theorem emptyDests_chain (i : Instr) (s : State) :
    (emptyDests i s).chain = s.chain := by cases i <;> rfl
@[simp] theorem emptyDests_digestReq (i : Instr) (s : State) :
    (emptyDests i s).digestReq = s.digestReq := by cases i <;> rfl
@[simp] theorem emptyDests_digestResp (i : Instr) (s : State) :
    (emptyDests i s).digestResp = s.digestResp := by cases i <;> rfl
@[simp] theorem emptyDests_inputs (i : Instr) (s : State) :
    (emptyDests i s).inputs = s.inputs := by cases i <;> rfl
@[simp] theorem emptyDests_rdata (i : Instr) (s : State) :
    (emptyDests i s).rdata = s.rdata := by cases i <;> rfl
@[simp] theorem emptyDests_bootDraw (i : Instr) (s : State) :
    (emptyDests i s).bootDraw = s.bootDraw := by cases i <;> rfl
@[simp] theorem emptyDests_msgByte (i : Instr) (s : State) (k : Nat) :
    (emptyDests i s).msgByte k = s.msgByte k := by cases i <;> rfl
@[simp] theorem emptyDests_dstByte (i : Instr) (s : State) (k : Nat) :
    (emptyDests i s).dstByte k = s.dstByte k := by cases i <;> rfl
@[simp] theorem emptyDests_outLen (i : Instr) (s : State) :
    (emptyDests i s).outLen = if targetsOut i then 0 else s.outLen := by cases i <;> rfl
@[simp] theorem emptyDests_elemCnt (i : Instr) (s : State) :
    (emptyDests i s).elemCnt = if targetsElem i then 0 else s.elemCnt := by cases i <;> rfl
@[simp] theorem emptyDests_outMem (i : Instr) (s : State) :
    (emptyDests i s).outMem = if targetsOut i then [] else s.outMem := by cases i <;> rfl
@[simp] theorem emptyDests_elemMem (i : Instr) (s : State) :
    (emptyDests i s).elemMem = if targetsElem i then [] else s.elemMem := by cases i <;> rfl

/-- Marking a command's destinations empty leaves OUT alone when it is no destination. -/
theorem emptyDests_outByte {i : Instr} (h : targetsOut i = false) (s : State) (k : Nat) :
    (emptyDests i s).outByte k = s.outByte k := by cases i <;> first | rfl | cases h

/-- Marking a command's destinations empty leaves ELEM alone when it is no destination. -/
theorem emptyDests_elem {i : Instr} (h : targetsElem i = false) (s : State) (e : Nat) :
    (emptyDests i s).elem e = s.elem e := by cases i <;> first | rfl | cases h

end Sys2Proof.Machine
end

