-- ==== Sys2Proof/Laws/Memory.lean ====
section
/-! SUPPORT. Storage: what an index reads after each operation, and that each keeps the canonical form. -/

namespace Sys2Proof.Machine

variable {α : Type}

/-! ## The list of cells -/

/-- A value just written reads back, and every other index as before. -/
theorem get?_put (m : Memory α) (a : Nat) (v : α) (x : Nat) :
    Memory.get? (Memory.put m a v) x = if x = a then some v else Memory.get? m x := by
  induction m with
  | nil => rfl
  | cons c m ih =>
    obtain ⟨b, w⟩ := c
    unfold Memory.put
    split
    · simp only [Memory.get?]
    · split
      · next h =>
        subst h
        simp only [Memory.get?]
        split <;> rfl
      · next h1 h2 =>
        simp only [Memory.get?, ih]
        by_cases hx : x = b
        · have : ¬ b = a := fun h => h2 h.symm
          simp [hx, this]
        · simp [hx]

/-- Every cell of storage after a write is the one written or one from before. -/
theorem mem_put {m : Memory α} {a : Nat} {v : α} {c : Nat × α} (h : c ∈ Memory.put m a v) :
    c = (a, v) ∨ c ∈ m := by
  induction m with
  | nil => exact .inl (by simpa [Memory.put] using h)
  | cons d m ih =>
    obtain ⟨b, w⟩ := d
    unfold Memory.put at h
    split at h
    · exact List.mem_cons.1 h
    · split at h
      · rcases List.mem_cons.1 h with h | h
        · exact .inl h
        · exact .inr (List.mem_cons_of_mem _ h)
      · rcases List.mem_cons.1 h with h | h
        · exact .inr (h ▸ List.mem_cons_self)
        · exact (ih h).imp_right (List.mem_cons_of_mem _)

theorem wf_put {m : Memory α} (h : Memory.wf m) (a : Nat) (v : α) :
    Memory.wf (Memory.put m a v) := by
  induction m with
  | nil => exact List.pairwise_singleton _ _
  | cons d m ih =>
    obtain ⟨b, w⟩ := d
    have hd := List.pairwise_cons.1 h
    unfold Memory.put
    split
    · next hab =>
      refine List.pairwise_cons.2 ⟨fun c hc => ?_, h⟩
      rcases List.mem_cons.1 hc with rfl | hc
      · exact hab
      · exact lt_trans hab (hd.1 c hc)
    · split
      · next hab => exact List.pairwise_cons.2 ⟨fun c hc => hab ▸ hd.1 c hc, hd.2⟩
      · next h1 h2 =>
        refine List.pairwise_cons.2 ⟨fun c hc => ?_, ih hd.2⟩
        rcases mem_put hc with rfl | hc
        · show b < a
          omega
        · exact hd.1 c hc

/-- Consecutive values read back by their index. -/
theorem get?_cellsFrom (a : Nat) (vs : List α) (x : Nat) :
    Memory.get? (cellsFrom a vs) x = if a ≤ x then vs[x - a]? else none := by
  induction vs generalizing a with
  | nil => simp [cellsFrom, Memory.get?]
  | cons b vs ih =>
    simp only [cellsFrom, Memory.get?, ih]
    by_cases h1 : x = a
    · simp [h1]
    · by_cases h2 : a ≤ x
      · have h3 : a + 1 ≤ x := by omega
        have h4 : x - a = x - (a + 1) + 1 := by omega
        simp [h1, h2, h3, h4]
      · have h3 : ¬ a + 1 ≤ x := by omega
        simp [h1, h2, h3]

theorem mem_cellsFrom {a : Nat} {vs : List α} {c : Nat × α} (h : c ∈ cellsFrom a vs) :
    a ≤ c.1 ∧ c.1 < a + vs.length ∧ c.2 ∈ vs := by
  induction vs generalizing a with
  | nil => simp [cellsFrom] at h
  | cons b vs ih =>
    rcases List.mem_cons.1 h with rfl | h
    · simp
    · have := ih h
      simp only [List.length_cons, List.mem_cons]
      exact ⟨by omega, by omega, .inr this.2.2⟩

theorem wf_cellsFrom (a : Nat) (vs : List α) : Memory.wf (cellsFrom a vs) := by
  induction vs generalizing a with
  | nil => exact List.Pairwise.nil
  | cons b vs ih => exact List.Pairwise.cons (fun c hc => (mem_cellsFrom hc).1) (ih _)

/-! ## Reads of the state -/

/-- OUT listed with these bytes reads them back. -/
theorem outByte_of_cells {s : State} {bs : List Byte} (h : s.outMem = cellsFrom 0 bs) {k : Nat}
    (hk : k < bs.length) : s.outByte k = bs[k] := by
  simp [State.outByte, h, get?_cellsFrom, hk]

/-- ELEM listed with these numbers reads them back. -/
theorem elem_of_cells {s : State} {vs : List Nat} (h : s.elemMem = cellsFrom 0 vs) {k : Nat}
    (hk : k < vs.length) : s.elem k = vs[k] := by
  simp [State.elem, h, get?_cellsFrom, hk]

/-- MSG listed with these bytes reads them back. -/
theorem msgByte_of_cells {s : State} {bs : List Byte} (h : s.msgMem = cellsFrom 0 bs) {k : Nat}
    (hk : k < bs.length) : s.msgByte k = bs[k] := by
  simp [State.msgByte, h, get?_cellsFrom, hk]

/-- An entry of ELEM fits its width where the listed ones do (10_state R43). -/
theorem elem_lt {s : State} (h : ∀ c ∈ s.elemMem, c.2 < 2 ^ s.cfg.caps.ew) (e : Nat) :
    s.elem e < 2 ^ s.cfg.caps.ew := by
  unfold State.elem
  cases hg : Memory.get? s.elemMem e with
  | none => exact Nat.mod_lt _ (Nat.two_pow_pos _)
  | some v =>
    have : ∀ m : Memory Nat, (∀ c ∈ m, c.2 < 2 ^ s.cfg.caps.ew) → Memory.get? m e = some v →
        v < 2 ^ s.cfg.caps.ew := by
      intro m hm hv
      induction m with
      | nil => cases hv
      | cons d m ih =>
        obtain ⟨b, w⟩ := d
        simp only [Memory.get?] at hv
        split at hv
        · cases hv
          exact hm (b, v) List.mem_cons_self
        · exact ih (fun c hc => hm c (List.mem_cons_of_mem _ hc)) hv
    exact this _ h hg

@[simp] theorem length_msg (s : State) : s.msg.length = s.msgLen.toNat := by simp [State.msg]

@[simp] theorem length_dst (s : State) : s.dst.length = s.dstLen.toNat := by simp [State.dst]

@[simp] theorem length_elems (s : State) : s.elems.length = s.elemCnt.toNat := by simp [State.elems]

end Sys2Proof.Machine
end

