-- ==== Sys2Proof/Laws/Ops.lean ====
section
/-! SUPPORT. One lemma per shared operation: everything its end leaves. -/

namespace Sys2Proof.Machine

/-! ## Failing -/

/-- A command that fails leaves its lengths 0 and everything outside its destinations alone
(44_system R203). -/
theorem failCommand_frame (i : Instr) (e : CmdError) (s : State) :
    FrameFail i s (failCommand i e s) := by
  refine ⟨?_, by simp [failCommand], by simp [failCommand], by simp [failCommand],
    fun h k => ?_, fun h k => ?_⟩
  · constructor <;> simp [failCommand]
  · exact emptyDests_outByte h s k
  · exact emptyDests_elem h s k

/-- A meaning that answers `failCommand` fails with that error. -/
theorem failsWith_of_exec {i : Instr} {e : CmdError} {s : State}
    (h : exec i s = .next (failCommand i e s)) : FailsWith i e s :=
  ⟨_, h, rfl, rfl, rfl, failCommand_frame i e s⟩

/-! ## Completing into OUT -/

theorem finishOut_completed (i : Instr) (bs : List Byte) (s : State) :
    Completed s (finishOut i bs s) := by
  constructor <;> simp [finishOut]

theorem finishOut_outLen (i : Instr) (bs : List Byte) (s : State) :
    (finishOut i bs s).outLen = BitVec.ofNat 32 bs.length := rfl

theorem finishOut_outLen_toNat (i : Instr) (bs : List Byte) (s : State) (h : bs.length < 2 ^ 32) :
    (finishOut i bs s).outLen.toNat = bs.length := by
  rw [finishOut_outLen, BitVec.toNat_ofNat, Nat.mod_eq_of_lt h]

/-- The bytes a command ends with are the first of OUT (10_state R37). -/
theorem finishOut_outByte (i : Instr) (bs : List Byte) (s : State) {k : Nat} (h : k < bs.length) :
    (finishOut i bs s).outByte k = bs[k] := outByte_of_cells rfl h

/-- The bytes a command ends with are what OUT holds up to OUT_LEN (10_state R37). -/
theorem finishOut_out (i : Instr) (bs : List Byte) (s : State) (h : bs.length < 2 ^ 32) :
    (finishOut i bs s).out = bs := by
  unfold State.out
  rw [finishOut_outLen_toNat i bs s h]
  apply List.ext_getElem (by simp)
  intro k h1 h2
  simp [finishOut_outByte i bs s h2]

theorem finishOut_frame (i : Instr) (bs : List Byte) (s : State) (he : targetsElem i = false) :
    FrameOut s (finishOut i bs s) := by
  refine ⟨?_, by simp [finishOut, he], by simp [finishOut], fun k => emptyDests_elem he s k⟩
  constructor <;> first
    | exact msgByte_congr (by simp [finishOut]) (by simp [finishOut])
    | exact dstByte_congr (by simp [finishOut]) (by simp [finishOut])
    | simp [finishOut]

/-! ## Completing into ELEM -/

theorem finishElem_completed (i : Instr) (vs : List Nat) (s : State) :
    Completed s (finishElem i vs s) := by
  constructor <;> simp [finishElem]

theorem finishElem_elemCnt (i : Instr) (vs : List Nat) (s : State) :
    (finishElem i vs s).elemCnt = BitVec.ofNat 32 vs.length := rfl

theorem finishElem_elemCnt_toNat (i : Instr) (vs : List Nat) (s : State)
    (h : vs.length < 2 ^ 32) : (finishElem i vs s).elemCnt.toNat = vs.length := by
  rw [finishElem_elemCnt, BitVec.toNat_ofNat, Nat.mod_eq_of_lt h]

/-- The integers a command ends with are the first of ELEM (10_state R38). -/
theorem finishElem_elem (i : Instr) (vs : List Nat) (s : State) {k : Nat} (h : k < vs.length) :
    (finishElem i vs s).elem k = vs[k] := elem_of_cells rfl h

/-- The integers a command ends with are what ELEM holds up to ELEM_CNT (10_state R38). -/
theorem finishElem_elems (i : Instr) (vs : List Nat) (s : State) (h : vs.length < 2 ^ 32) :
    (finishElem i vs s).elems = vs := by
  unfold State.elems
  rw [finishElem_elemCnt_toNat i vs s h]
  apply List.ext_getElem (by simp)
  intro k h1 h2
  simp [finishElem_elem i vs s h2]

theorem finishElem_operands (i : Instr) (vs : List Nat) (s : State) :
    KeepsOperands s (finishElem i vs s) := by
  constructor <;> first
    | exact msgByte_congr (by simp [finishElem]) (by simp [finishElem])
    | exact dstByte_congr (by simp [finishElem]) (by simp [finishElem])
    | simp [finishElem]

theorem finishElem_frame (i : Instr) (vs : List Nat) (s : State) (ho : targetsOut i = false) :
    FrameElem s (finishElem i vs s) :=
  ⟨finishElem_operands i vs s, by simp [finishElem, ho], by simp [finishElem],
    fun k => emptyDests_outByte ho s k⟩

theorem finishElem_frameH2f (i : Instr) (vs : List Nat) (s : State) :
    FrameH2f s (finishElem i vs s) := ⟨finishElem_operands i vs s, by simp [finishElem]⟩

/-! ## Completing into BIGX -/

theorem emptyDests_of_no_target {i : Instr} (ho : targetsOut i = false) (he : targetsElem i = false)
    (s : State) : emptyDests i s = s := by
  simp [emptyDests, ho, he]

theorem finishBigx_completed (i : Instr) (v : Nat) (s : State) : Completed s (finishBigx i v s) := by
  constructor <;> simp [finishBigx]

theorem finishBigx_frame (i : Instr) (v : Nat) (s : State) (ho : targetsOut i = false)
    (he : targetsElem i = false) : FrameBigx s (finishBigx i v s) := by
  unfold finishBigx
  rw [emptyDests_of_no_target ho he s]
  exact ⟨by constructor <;> first | rfl | exact fun _ => rfl, rfl, rfl, fun _ => rfl, fun _ => rfl⟩

/-- BIGX holds the value a command ends with (10_state R42). -/
@[simp] theorem finishBigx_bigx (i : Instr) (v : Nat) (s : State) :
    (finishBigx i v s).bigx = v := rfl

end Sys2Proof.Machine
end

