-- ==== Sys2Proof/Laws/Exec.lean ====
section
/-! SUPPORT. Everything one turn of the sequencer on a command can do, once for all commands. -/

namespace Sys2Proof.Machine

/-- The states a turn of the sequencer on command `i` can end in, from state `s`. That a result fits its
destination is said for an instance whose constants are as the spec requires. -/
inductive Ends (i : Instr) (s : State) : State → Prop where
  | fails (e : CmdError) (raises : mayRaise i (expandsIn i s) e = true) :
      Ends i s (failCommand i e s)
  | out (bs : List Byte) (len : CapsOk s.cfg.caps → bs.length ≤ s.cfg.caps.outMax)
      (target : targetsOut i = true) (only : targetsElem i = false) : Ends i s (finishOut i bs s)
  | elems (vs : List Nat) (len : CapsOk s.cfg.caps → vs.length ≤ s.cfg.caps.elemMax)
      (fits : s.ParamsOk → s.WidthsOk → ∀ v ∈ vs, v < 2 ^ s.cfg.caps.ew)
      (target : targetsElem i = true) : Ends i s (finishElem i vs s)
  | bigx (v : Nat) (fits : CapsOk s.cfg.caps → v < 2 ^ s.cfg.caps.xw) (noOut : targetsOut i = false)
      (noElem : targetsElem i = false) (target : targetsBigx i = true) : Ends i s (finishBigx i v s)
  | startsXmd (chain : s.chain = none) (isXmd : i = .xmd)
      (len : s.msgLen.toNat ≤ s.cfg.caps.msgMax)
      (passes : xmdFailure s.cfg.digestPresent s.dstLen.toNat s.lenArg.toNat = none) :
      Ends i s (startChain s.msg s.dst s.lenArg.toNat s)
  | startsH2f (p m k d e v : Bool) (chain : s.chain = none) (isH2f : i = .h2f p m k d e v)
      (expands : (resolveH2f p m k d e v s).expand = true)
      (passes : h2fFailure s.cfg (resolveH2f p m k d e v s) s.count.toNat s.msgLen.toNat = none) :
      Ends i s (startChain s.msg (resolveH2f p m k d e v s).dst
        ((resolveH2f p m k d e v s).lenInBytes s.count.toNat) s)
  | waits (c : Chain) (chain : s.chain = some c) (silent : s.digestResp = none) : Ends i s s
  | asksFirst (c : Chain) (d : List Byte) (chain : s.chain = some c)
      (resp : s.digestResp = some d) (idx : c.idx = 0) :
      Ends i s (requestDigest (firstInput d c.dstp)
        { s with chain := some ⟨c.dstp, c.ell, 1, d, c.bprev, c.blocks⟩ })
  | asksNext (c : Chain) (d : List Byte) (chain : s.chain = some c)
      (resp : s.digestResp = some d) (idx : c.idx ≠ 0) (more : c.idx < c.ell) :
      Ends i s (requestDigest (nextInput c.b0 d c.dstp (c.idx + 1))
        { s with chain := some ⟨c.dstp, c.ell, c.idx + 1, c.b0, d, c.blocks ++ d⟩ })
  | endsXmd (c : Chain) (d : List Byte) (chain : s.chain = some c) (resp : s.digestResp = some d)
      (isXmd : i = .xmd) (idx : c.idx ≠ 0) (last : ¬ c.idx < c.ell) :
      Ends i s (finishXmd (c.blocks ++ d) s)
  | endsH2f (c : Chain) (d : List Byte) (p m k dst e v : Bool) (chain : s.chain = some c)
      (resp : s.digestResp = some d) (isH2f : i = .h2f p m k dst e v) (idx : c.idx ≠ 0)
      (last : ¬ c.idx < c.ell) :
      Ends i s (finishExpandedH2f i (resolveH2f p m k dst e v s) (c.blocks ++ d) s)

/-! ## Lengths and ranges of the pure functions' results -/

theorem length_hexPairs (cs : List Byte) : (hexPairs cs).length = cs.length / 2 := by
  induction cs using hexPairs.induct with
  | case1 c0 c1 cs ih => simp [hexPairs, ih]; omega
  | case2 cs h =>
    match cs, h with
    | [], _ => rfl
    | [_], _ => simp [hexPairs]
    | a :: b :: cs, h => exact absurd rfl (h a b cs)

/-- `hexToBytes` fails only as MalformedHex, and its result has half as many bytes as characters. -/
theorem hexToBytes_cases (hex : List Byte) :
    hexToBytes hex = .error .malformedHexOdd ∨ (∃ t, hexToBytes hex = .error (.malformedHexAt t)) ∨
      hexToBytes hex = .ok (hexPairs hex) := by
  unfold hexToBytes
  split
  · exact .inl rfl
  · split
    · exact .inr (.inl ⟨_, rfl⟩)
    · exact .inr (.inr rfl)

theorem length_bytesToHex (bs : List Byte) : (bytesToHex bs).length = 2 * bs.length := by
  unfold bytesToHex
  induction bs with
  | nil => rfl
  | cons b bs ih =>
    rw [List.flatMap_cons, List.length_append, ih, List.length_cons]
    simp only [List.length_cons, List.length_nil]
    omega

@[simp] theorem length_limbsOf (n k x : Nat) : (limbsOf n k x).length = k := by simp [limbsOf]

theorem lt_of_mem_limbsOf {n k x l : Nat} (h : l ∈ limbsOf n k x) : l < 2 ^ n := by
  simp only [limbsOf, List.mem_map] at h
  obtain ⟨i, -, rfl⟩ := h
  exact Nat.mod_lt _ (Nat.two_pow_pos n)

theorem limbWidthOk_iff (c : Config.Capacities) (n : Nat) :
    limbWidthOk c n = true ↔ 1 ≤ n ∧ n ≤ c.nMax := by
  rw [limbWidthOk, Bool.and_eq_true, decide_eq_true_iff, decide_eq_true_iff]

theorem limbCountOk_iff (c : Config.Capacities) (k : Nat) :
    limbCountOk c k = true ↔ 1 ≤ k ∧ k ≤ c.kMax := by
  rw [limbCountOk, Bool.and_eq_true, decide_eq_true_iff, decide_eq_true_iff]

/-- The number of a limb array lies below `2^(n·k)` (43 R183). -/
theorem limbsToBigint_lt {n : Nat} {ls : List Nat} (h : ∀ l ∈ ls, l < 2 ^ n) :
    limbsToBigint n ls < 2 ^ (n * ls.length) := by
  induction ls with
  | nil => simp [limbsToBigint]
  | cons l ls ih =>
    have h1 := h l (by simp)
    have h2 := ih fun x hx => h x (by simp [hx])
    have h3 : 2 ^ (n * (ls.length + 1)) = 2 ^ n * 2 ^ (n * ls.length) := by
      rw [Nat.mul_succ, Nat.add_comm, Nat.pow_add]
    rw [limbsToBigint, List.length_cons, h3]
    calc l + 2 ^ n * limbsToBigint n ls < 2 ^ n + 2 ^ n * limbsToBigint n ls := by omega
      _ = 2 ^ n * (limbsToBigint n ls + 1) := by ring
      _ ≤ 2 ^ n * 2 ^ (n * ls.length) := Nat.mul_le_mul_left _ h2

theorem length_fieldTuples_flatten (u : List Byte) (p m L n : Nat) :
    (fieldTuples u p m L n).flatten.length = n * m := by
  simp [fieldTuples, List.length_flatten, Function.comp_def]

/-- Every coordinate is a residue below the modulus (42 R166). -/
theorem lt_of_mem_fieldTuples {u : List Byte} {p m L n x : Nat} (hp : 0 < p)
    (h : x ∈ (fieldTuples u p m L n).flatten) : x < p := by
  simp only [fieldTuples, List.mem_flatten, List.mem_map] at h
  obtain ⟨tup, ⟨i, -, rfl⟩, hx⟩ := h
  obtain ⟨j, -, rfl⟩ := List.mem_map.1 hx
  exact Nat.mod_lt _ hp

/-- The modulus of a configuration fits an ELEM entry (42 R167). -/
theorem resolveH2f_p_lt (p m k d e v : Bool) {s : State} (hp : s.ParamsOk) (hw : s.WidthsOk) :
    (resolveH2f p m k d e v s).p < 2 ^ s.cfg.caps.ew := by
  cases p
  · refine lt_of_lt_of_le (lt_two_pow_bitlen s.cfg.pDefault) (Nat.pow_le_pow_right (by omega) ?_)
    rw [hp.modulus]
    exact hp.caps.modulus.trans hp.caps.entry
  · exact lt_of_lt_of_le hw.pOvr (Nat.pow_le_pow_right (by omega) hp.caps.entry)

/-! ## The tests of the expanding commands -/

/-- The failures of an expansion are the three of 41 R145. -/
theorem xmdFailure_raises {i : Instr} {present : Bool} {dstLen len : Nat} {e : CmdError}
    (h : xmdFailure present dstLen len = some e) : mayRaise i true e = true := by
  unfold xmdFailure at h
  split at h
  · cases h; rfl
  · split at h
    · cases h; rfl
    · split at h
      · cases h; rfl
      · cases h

/-- With its operand tests passed a configuration has a modulus, a degree and no more coordinates than
ELEM has entries (42 R167). -/
theorem h2fOperandFailure_none {caps : Config.Capacities} {c : H2fConfig} {count msgLen : Nat}
    (h : h2fOperandFailure caps c count msgLen = none) :
    msgLen ≤ caps.msgMax ∧ c.p ≠ 0 ∧ c.m ≠ 0 ∧ count * c.m ≤ caps.elemMax := by
  unfold h2fOperandFailure at h
  split at h
  · cases h
  · split at h
    · cases h
    · split at h
      · cases h
      · split at h
        · cases h
        · omega

theorem h2fFailure_none {g : Config.Params} {c : H2fConfig} {count msgLen : Nat}
    (h : h2fFailure g c count msgLen = none) :
    h2fOperandFailure g.caps c count msgLen = none ∧
      (c.expand = true → xmdFailure g.digestPresent c.dstLen (c.lenInBytes count) = none) ∧
      (c.expand = false → msgLen = c.lenInBytes count) := by
  unfold h2fFailure at h
  cases ho : h2fOperandFailure g.caps c count msgLen with
  | some e => rw [ho] at h; cases h
  | none =>
    rw [ho] at h
    unfold uniformFailure at h
    cases hx : c.expand <;> simp_all

/-- An H2F whose tests pass asks for a `hash_to_field` that does not fail: the command only adds
capacity tests (00_scope R17, 90_conflicts C8). -/
theorem hashToFieldFailure_of_h2fFailure {g : Config.Params} {c : H2fConfig} {count msgLen : Nat}
    (h : h2fFailure g c count msgLen = none) :
    hashToFieldFailure g.digestPresent c count msgLen = none := by
  have ho := h2fOperandFailure_none (h2fFailure_none h).1
  unfold hashToFieldFailure
  rw [if_neg ho.2.1, if_neg ho.2.2.1]
  unfold h2fFailure at h
  rwa [(h2fFailure_none (by unfold h2fFailure; exact h)).1] at h

theorem uniformFailure_raises {p m k d e v present : Bool} {c : H2fConfig} {count msgLen : Nat}
    {err : CmdError} (h : uniformFailure present c count msgLen = some err) :
    mayRaise (.h2f p m k d e v) c.expand err = true := by
  unfold uniformFailure at h
  split at h
  · next hx => rw [hx]; exact xmdFailure_raises h
  · next hx =>
    split at h
    · cases h; simp [mayRaise, hx]
    · cases h

theorem h2fFailure_raises {p m k d e v : Bool} {g : Config.Params} {c : H2fConfig}
    {count msgLen : Nat} {err : CmdError} (h : h2fFailure g c count msgLen = some err) :
    mayRaise (.h2f p m k d e v) c.expand err = true := by
  unfold h2fFailure at h
  split at h
  · next e' ho =>
    cases h
    unfold h2fOperandFailure at ho
    split at ho
    · cases ho; simp [mayRaise]
    · split at ho
      · cases ho; simp [mayRaise]
      · split at ho
        · cases ho; simp [mayRaise]
        · split at ho
          · cases ho; simp [mayRaise]
          · cases ho
  · exact uniformFailure_raises h

/-! ## The inversion lemma -/

theorem ends_chainTurn {i : Instr} {s : State} {c : Chain} {finish : List Byte → State → State}
    (hc : s.chain = some c)
    (hf : ∀ d, s.digestResp = some d → c.idx ≠ 0 → ¬ c.idx < c.ell →
      Ends i s (finish (c.blocks ++ d) s)) : Ends i s (chainTurn c finish s) := by
  unfold chainTurn
  split
  · next h => exact .waits c hc h
  · next d h =>
    split
    · next h0 => exact .asksFirst c d hc h h0
    · next h0 =>
      split
      · next h1 => exact .asksNext c d hc h h0 h1
      · next h1 => exact hf d h h0 h1

theorem finishH2f_ends {p m k d e v : Bool} {s : State} {u : List Byte}
    (ho : h2fOperandFailure s.cfg.caps (resolveH2f p m k d e v s) s.count.toNat s.msgLen.toNat =
      none) :
    Ends (.h2f p m k d e v) s
      (finishH2f (.h2f p m k d e v) (resolveH2f p m k d e v s) u s) := by
  have h := h2fOperandFailure_none ho
  refine .elems _ (fun _ => ?_) (fun hp hw x hx => ?_) rfl
  · rw [length_fieldTuples_flatten]; exact h.2.2.2
  · exact lt_trans (lt_of_mem_fieldTuples (Nat.pos_of_ne_zero h.2.1) hx)
      (resolveH2f_p_lt p m k d e v hp hw)

/-- Everything a turn of the sequencer on a command other than CLR can do. -/
theorem exec_ends {i : Instr} (hi : i ≠ .clr) (s : State) :
    ∃ t, exec i s = .next t ∧ Ends i s t := by
  cases i with
  | clr => exact absurd rfl hi
  | hex2bytes =>
    refine ⟨_, rfl, ?_⟩
    unfold runHex2bytes
    split
    · exact .fails _ rfl
    · next h =>
      rcases hexToBytes_cases s.msg with hh | ⟨t, hh⟩ | hh <;> rw [hh]
      · exact .fails _ rfl
      · exact .fails _ rfl
      · refine .out _ (fun hc => ?_) rfl rfl
        rw [length_hexPairs, length_msg]
        have := hc.copy
        omega
  | bytes2hex =>
    refine ⟨_, rfl, ?_⟩
    unfold runBytes2hex
    split
    · exact .fails _ rfl
    · split
      · exact .fails _ rfl
      · next h =>
        refine .out _ (fun _ => ?_) rfl rfl
        rw [length_bytesToHex, length_msg]
        omega
  | i2osp =>
    refine ⟨_, rfl, ?_⟩
    unfold runI2osp
    split
    · exact .fails _ rfl
    · next h =>
      unfold i2osp
      split
      · exact .fails _ rfl
      · refine .out _ (fun _ => ?_) rfl rfl
        rw [length_beBytes]
        omega
  | os2ip =>
    refine ⟨_, rfl, ?_⟩
    unfold runOs2ip
    split
    · exact .fails _ rfl
    · split
      · exact .fails _ rfl
      · next h =>
        refine .bigx _ (fun _ => ?_) rfl rfl rfl
        refine lt_of_lt_of_le (os2ip_lt s.msg) ?_
        rw [length_msg, show 256 = 2 ^ 8 from rfl, ← Nat.pow_mul]
        exact Nat.pow_le_pow_right (by omega) (by omega)
  | concat0 => exact ⟨_, rfl, .out _ (fun _ => by simp [concatBytes]) rfl rfl⟩
  | concat1 =>
    refine ⟨_, rfl, ?_⟩
    unfold runConcat1
    split
    · exact .fails _ rfl
    · next h =>
      refine .out _ (fun hc => ?_) rfl rfl
      simp only [concatBytes, List.flatten_cons, List.flatten_nil, List.append_nil, length_msg]
      have := hc.copy
      omega
  | concat2 =>
    refine ⟨_, rfl, ?_⟩
    unfold runConcat2
    split
    · exact .fails _ rfl
    · split
      · exact .fails _ rfl
      · split
        · exact .fails _ rfl
        · next h =>
          refine .out _ (fun _ => ?_) rfl rfl
          simp only [concatBytes, List.flatten_cons, List.flatten_nil, List.append_nil,
            List.length_append, length_msg, length_dst]
          omega
  | str2bytes =>
    refine ⟨_, rfl, ?_⟩
    unfold runStr2bytes
    split
    · exact .fails _ rfl
    · next h =>
      unfold stringToBytes
      split
      · refine .out _ (fun hc => ?_) rfl rfl
        rw [List.length_map, length_elems]
        have := hc.string
        omega
      · exact .fails _ rfl
  | xmd =>
    refine ⟨_, rfl, ?_⟩
    unfold runXmd
    split
    · next hc =>
      unfold startXmd
      split
      · exact .fails _ rfl
      · next hm =>
        split
        · next e he => exact .fails _ (xmdFailure_raises he)
        · next he => exact .startsXmd hc rfl (Nat.le_of_not_lt hm) he
    · next c hc => exact ends_chainTurn hc fun d h h0 h1 => .endsXmd c d hc h rfl h0 h1
  | h2f p m k d e v =>
    refine ⟨_, rfl, ?_⟩
    unfold runH2f
    dsimp only
    split
    · next hc =>
      unfold startH2f
      split
      · next err he => exact .fails _ (h2fFailure_raises he)
      · next he =>
        split
        · next hx => exact .startsH2f _ _ _ _ _ _ hc rfl hx he
        · exact finishH2f_ends (h2fFailure_none he).1
    · next c hc =>
      exact ends_chainTurn hc fun d h h0 h1 => .endsH2f c d _ _ _ _ _ _ hc h rfl h0 h1
  | b2l =>
    refine ⟨_, rfl, ?_⟩
    unfold runB2l
    split
    · exact .fails _ rfl
    · next hn =>
      split
      · exact .fails _ rfl
      · next hk =>
        unfold bigintToLimbs
        split
        · exact .fails _ rfl
        · rw [Bool.not_eq_false, limbWidthOk_iff] at hn
          rw [Bool.not_eq_false, limbCountOk_iff] at hk
          refine .elems _ (fun hc => ?_) (fun hp _ x hx => ?_) rfl
          · rw [length_limbsOf]; exact hk.2.trans hc.limbs
          · exact lt_of_lt_of_le (lt_of_mem_limbsOf hx)
              (Nat.pow_le_pow_right (by omega) (hn.2.trans hp.caps.limb))
  | l2b =>
    refine ⟨_, rfl, ?_⟩
    unfold runL2b
    split
    · exact .fails _ rfl
    · next hn =>
      split
      · exact .fails _ rfl
      · next hk =>
        split
        · exact .fails _ rfl
        · next hl =>
          rw [Bool.not_eq_false, limbWidthOk_iff] at hn
          rw [Bool.not_eq_false, limbCountOk_iff] at hk
          refine .bigx _ (fun hc => ?_) rfl rfl rfl
          refine lt_of_lt_of_le (limbsToBigint_lt (n := s.limbN.toNat) fun l h => ?_)
            (Nat.pow_le_pow_right (by omega) ?_)
          · simp only [Bool.not_eq_false, List.all_eq_true, decide_eq_true_eq] at hl
            exact hl l h
          · rw [length_elems]
            exact (Nat.mul_le_mul hn.2 hk.2).trans hc.wide
  | hex2byteints =>
    refine ⟨_, rfl, ?_⟩
    unfold runHex2byteints
    split
    · exact .fails _ rfl
    · split
      · exact .fails _ rfl
      · next h =>
        unfold hexToByteInts
        rcases hexToBytes_cases s.msg with hh | ⟨t, hh⟩ | hh <;> rw [hh]
        · exact .fails _ rfl
        · exact .fails _ rfl
        · refine .elems _ (fun _ => ?_) (fun hp _ x hx => ?_) rfl
          · rw [List.length_map, length_hexPairs, length_msg]
            omega
          · obtain ⟨b, -, rfl⟩ := List.mem_map.1 hx
            refine lt_of_lt_of_le b.isLt (Nat.pow_le_pow_right (by omega) ?_)
            exact le_trans (by omega) (hp.caps.modulus.trans hp.caps.entry)

end Sys2Proof.Machine
end

