-- ==== Sys2Proof/Laws/Chain.lean ====
section
/-! SUPPORT. The digest chain of the sequencer and the blocks of `expand_message_xmd`. -/

namespace Sys2Proof.Machine

/-! ## SHA-256 gives 32 bytes -/

@[simp] theorem length_sha256 (s : List Byte) : (sha256 s).length = 32 := by
  simp only [sha256, shaOutput, List.flatMap_cons, List.flatMap_nil, List.length_append,
    length_beBytes, List.length_nil]

/-! ## Blocks -/

/-- The `i`-th digest input gives the `i`-th block. -/
theorem chainBlock_eq_input (h : List Byte → List Byte) (msg dst : List Byte) (len i : Nat)
    (hi : i ≠ 0) : chainBlock h (h (msgPrime msg len (dstPrime dst))) (dstPrime dst) i =
      h (chainInput h msg dst len i) := by
  match i, hi with
  | 1, _ => rfl
  | i + 2, _ => simp [chainBlock, chainInput]

theorem chainBlocks_succ (h : List Byte → List Byte) (b0 dstp : List Byte) (n : Nat) :
    chainBlocks h b0 dstp (n + 1) = chainBlocks h b0 dstp n ++ chainBlock h b0 dstp (n + 1) := by
  simp [chainBlocks, List.range_succ]

@[simp] theorem chainBlocks_zero (h : List Byte → List Byte) (b0 dstp : List Byte) :
    chainBlocks h b0 dstp 0 = [] := rfl

/-- The loop of 41 R144 step 6 appends the blocks from `i` on. -/
theorem chainBlocks_append_xmdTail (h : List Byte → List Byte) (b0 dstp : List Byte) (n i : Nat) :
    chainBlocks h b0 dstp (i + 1) ++ xmdTail h b0 dstp n (i + 2) (chainBlock h b0 dstp (i + 1)) =
      chainBlocks h b0 dstp (i + 1 + n) := by
  induction n generalizing i with
  | zero => simp [xmdTail]
  | succ n ih =>
    have hb : h (nextInput b0 (chainBlock h b0 dstp (i + 1)) dstp (i + 2)) =
        chainBlock h b0 dstp (i + 1 + 1) := rfl
    rw [xmdTail]
    rw [hb, ← List.append_assoc, ← chainBlocks_succ, ih (i + 1)]
    congr 1
    omega

/-- The expanded message is the first `len` bytes of the blocks (41 R144 step 7). -/
theorem xmdBytes_eq_take (h : List Byte → List Byte) (msg dst : List Byte) (len : Nat) :
    xmdBytes h msg dst len =
      (chainBlocks h (h (msgPrime msg len (dstPrime dst))) (dstPrime dst)
        (max (xmdEll len) 1)).take len := by
  unfold xmdBytes
  have h1 := chainBlocks_append_xmdTail h (h (msgPrime msg len (dstPrime dst))) (dstPrime dst)
    (xmdEll len - 1) 0
  have h2 : chainBlocks h (h (msgPrime msg len (dstPrime dst))) (dstPrime dst) (0 + 1) =
      h (firstInput (h (msgPrime msg len (dstPrime dst))) (dstPrime dst)) := by
    rw [chainBlocks_succ]; rfl
  have h3 : 0 + 1 + (xmdEll len - 1) = max (xmdEll len) 1 := by omega
  rw [h2, h3] at h1
  exact congrArg (List.take len) h1

theorem length_chainBlock {h : List Byte → List Byte} (hh : ∀ x, (h x).length = 32)
    (b0 dstp : List Byte) {i : Nat} (hi : i ≠ 0) : (chainBlock h b0 dstp i).length = 32 := by
  match i, hi with
  | 1, _ => exact hh _
  | i + 2, _ => exact hh _

theorem length_chainBlocks {h : List Byte → List Byte} (hh : ∀ x, (h x).length = 32)
    (b0 dstp : List Byte) (n : Nat) : (chainBlocks h b0 dstp n).length = 32 * n := by
  induction n with
  | zero => rfl
  | succ n ih =>
    rw [chainBlocks_succ, List.length_append, ih, length_chainBlock hh _ _ (by omega)]
    omega

/-- The output length is the requested one (41 R147). -/
theorem length_xmdBytes {h : List Byte → List Byte} (hh : ∀ x, (h x).length = 32)
    (msg dst : List Byte) (len : Nat) : (xmdBytes h msg dst len).length = len := by
  rw [xmdBytes_eq_take, List.length_take, length_chainBlocks hh]
  have : len ≤ 32 * xmdEll len := by
    simp only [xmdEll, ceilDiv, Config.bInBytes]
    omega
  omega

/-- With the tests of an expansion passed its output has at most 8160 bytes (41 R147, R148). -/
theorem le_of_xmdFailure_none {present : Bool} {dstLen len : Nat}
    (h : xmdFailure present dstLen len = none) :
    xmdEll len ≤ 255 ∧ len ≤ 8160 ∧ dstLen ≤ 255 ∧ present = true := by
  unfold xmdFailure at h
  split at h
  · cases h
  · next h1 =>
    split at h
    · cases h
    · next h2 =>
      split at h
      · cases h
      · next h3 =>
        simp only [Config.ellMax, Config.dstMax] at h1 h2
        refine ⟨by omega, ?_, by omega, by simpa using h3⟩
        simp only [xmdEll, ceilDiv, Config.bInBytes] at h1
        omega

/-! ## The chain of a running expansion -/

/-- Where a chain stands reads nothing of the state but the digest interface. -/
theorem ChainAt.congr {msg dst : List Byte} {len : Nat} {c : Chain} {s t : State}
    (h : ChainAt msg dst len c s) (hq : t.digestReq = s.digestReq)
    (hr : t.digestResp = s.digestResp) : ChainAt msg dst len c t :=
  ⟨h.dstp, h.ell, h.ellMax, h.idx, h.b0, h.bprev, h.blocks, by rw [hq, hr]; exact h.pending⟩

/-- The response that waits is the digest of the current input. -/
theorem ChainAt.resp {msg dst : List Byte} {len : Nat} {c : Chain} {s : State} {d : List Byte}
    (h : ChainAt msg dst len c s) (hd : s.digestResp = some d) :
    d = sha256 (chainInput sha256 msg dst len c.idx) := by
  rcases h.pending with ⟨-, h1⟩ | ⟨-, h1⟩
  · rw [h1] at hd; cases hd
  · rw [h1] at hd; exact (Option.some.inj hd).symm

/-- A started chain is at its beginning (41 R149). -/
theorem chainAt_start (msg dst : List Byte) (len : Nat) (s : State) (h : xmdEll len ≤ 255) :
    ChainAt msg dst len ⟨dstPrime dst, xmdEll len, 0, [], [], []⟩ (startChain msg dst len s) :=
  ⟨rfl, rfl, h, by simp, by simp, by simp, rfl, .inl ⟨rfl, rfl⟩⟩

/-- The first response moves the chain to `b[1]` (41 R149). -/
theorem chainAt_first {msg dst : List Byte} {len : Nat} {c : Chain} {s : State} {d : List Byte}
    (h : ChainAt msg dst len c s) (hd : s.digestResp = some d) (h0 : c.idx = 0) :
    ChainAt msg dst len ⟨c.dstp, c.ell, 1, d, c.bprev, c.blocks⟩
      (requestDigest (firstInput d c.dstp)
        { s with chain := some ⟨c.dstp, c.ell, 1, d, c.bprev, c.blocks⟩ }) := by
  have hr := h.resp hd
  have hb0 : d = sha256 (msgPrime msg len (dstPrime dst)) := by simpa [chainInput, h0] using hr
  refine ⟨h.dstp, h.ell, h.ellMax, by simp, by simpa using hb0, ?_, ?_, .inl ⟨?_, rfl⟩⟩
  · have := h.bprev; simpa [h0] using this
  · have := h.blocks; simpa [h0] using this
  · rw [h.dstp]; simp [requestDigest, chainInput, hb0]

/-- A later response but the last moves the chain by one block (41 R149). -/
theorem chainAt_next {msg dst : List Byte} {len : Nat} {c : Chain} {s : State} {d : List Byte}
    (h : ChainAt msg dst len c s) (hd : s.digestResp = some d) (h0 : c.idx ≠ 0)
    (h1 : c.idx < c.ell) :
    ChainAt msg dst len ⟨c.dstp, c.ell, c.idx + 1, c.b0, d, c.blocks ++ d⟩
      (requestDigest (nextInput c.b0 d c.dstp (c.idx + 1))
        { s with chain := some ⟨c.dstp, c.ell, c.idx + 1, c.b0, d, c.blocks ++ d⟩ }) := by
  have hr := h.resp hd
  have hb0 : c.b0 = sha256 (msgPrime msg len (dstPrime dst)) := by simpa [h0] using h.b0
  have hblk : d = chainBlock sha256 c.b0 c.dstp c.idx := by
    rw [hr, hb0, h.dstp, chainBlock_eq_input _ _ _ _ _ h0]
  refine ⟨h.dstp, h.ell, h.ellMax, by simp; omega, by simpa using hb0, ?_, ?_, .inl ⟨?_, rfl⟩⟩
  · have hne : ¬ c.idx + 1 ≤ 1 := by omega
    simp only [hne, if_false, Nat.add_sub_cancel]
    exact hblk
  · obtain ⟨n, hn⟩ := Nat.exists_eq_succ_of_ne_zero h0
    have hb := h.blocks
    simp only [hn, Nat.add_sub_cancel, Nat.succ_eq_add_one] at hb hblk ⊢
    rw [chainBlocks_succ, ← hb, ← hblk]
  · have hne : c.idx + 1 ≠ 0 := by omega
    have hne' : c.idx + 1 ≠ 1 := by omega
    simp only [requestDigest, chainInput, hne, hne', if_false, Nat.add_sub_cancel]
    rw [hblk, h.dstp, hb0]

/-- The last response completes the blocks (41 R149). -/
theorem chainAt_last {msg dst : List Byte} {len : Nat} {c : Chain} {s : State} {d : List Byte}
    (h : ChainAt msg dst len c s) (hd : s.digestResp = some d) (h0 : c.idx ≠ 0)
    (h1 : ¬ c.idx < c.ell) :
    (c.blocks ++ d).take len = xmdBytes sha256 msg dst len := by
  have hr := h.resp hd
  have hb0 : c.b0 = sha256 (msgPrime msg len (dstPrime dst)) := by simpa [h0] using h.b0
  have hblk : d = chainBlock sha256 c.b0 c.dstp c.idx := by
    rw [hr, hb0, h.dstp, chainBlock_eq_input _ _ _ _ _ h0]
  obtain ⟨n, hn⟩ := Nat.exists_eq_succ_of_ne_zero h0
  have hb := h.blocks
  have hm : c.idx = max (xmdEll len) 1 := by
    have := h.idx; rw [← h.ell]; omega
  rw [xmdBytes_eq_take, ← hm, ← hb0, ← h.dstp]
  simp only [hn, Nat.add_sub_cancel, Nat.succ_eq_add_one] at hb hblk ⊢
  rw [chainBlocks_succ, ← hb, ← hblk]

end Sys2Proof.Machine
end

