-- ==== Sys2Proof/Laws/Encoding.lean ====
section
/-! SUPPORT. The three fields of a command word. -/

namespace Sys2Proof

/-- A word whose Z field is zero is its other two fields side by side (30_encoding R90). -/
theorem word_eq_fields (w : Word) (h : zField w = 0) : w = 0#16 ++ argField w ++ opcField w := by
  apply BitVec.eq_of_getLsbD_eq
  intro i hi
  have hz : ∀ k, k < 16 → w.getLsbD (16 + k) = false := by
    intro k hk
    have := congrArg (fun x => BitVec.getLsbD x k) h
    simpa [zField, BitVec.getLsbD_extractLsb', hk] using this
  simp only [BitVec.getLsbD_append, argField, opcField, BitVec.getLsbD_extractLsb']
  by_cases h1 : i < 8
  · simp [h1]
  · by_cases h2 : i - 8 < 8
    · simp [h1, h2]
      congr 1
      omega
    · have h3 := hz (i - 16) (by omega)
      rw [show 16 + (i - 16) = i by omega] at h3
      simp [h1, h2, h3]

end Sys2Proof
end

