-- ==== Sys2Proof/Laws/Port.lean ====
section
/-! SUPPORT. The host port: regions of the window, lanes of buffers and words of wide values. -/

namespace Sys2Proof.Machine

/-! ## Regions of the window -/

theorem inDstb_iff (a : Nat) : inDstb a = true ↔ 0x200 ≤ a ∧ a < 0x2FF := by
  simp only [inDstb, Bool.and_eq_true, decide_eq_true_eq]
  exact Iff.rfl

theorem inMsg_iff (c : Config.Capacities) (a : Nat) :
    inMsg c a = true ↔ (0x1000 ≤ a ∧ a < 0x3000) ∧ a - 0x1000 < c.msgMax := by
  simp only [inMsg, Bool.and_eq_true, decide_eq_true_eq]
  exact Iff.rfl

theorem inOut_iff (c : Config.Capacities) (a : Nat) :
    inOut c a = true ↔ (0x3000 ≤ a ∧ a < 0x5000) ∧ a - 0x3000 < c.outMax := by
  simp only [inOut, Bool.and_eq_true, decide_eq_true_eq]
  exact Iff.rfl

theorem inElem_iff (c : Config.Capacities) (a : Nat) :
    inElem c a = true ↔ ((0x8000 ≤ a ∧ a < 0xC000) ∧ (a - 0x8000) / 64 < c.elemMax) ∧
      32 * (a % 64 / 4) < c.ew := by
  simp only [inElem, Bool.and_eq_true, decide_eq_true_eq]
  exact Iff.rfl

/-! ## Lanes of the buffers -/

/-- One lane of a host write: the byte written where it is a byte of DSTB or MSG, every other byte as
before (20_memory R64, R70). -/
theorem portByte_writeLane (s : State) (a x : Nat) (b : Byte) :
    (writeLane a b s).portByte x =
      if x = a ∧ (inDstb a = true ∨ inMsg s.cfg.caps a = true) then b else s.portByte x := by
  unfold writeLane
  by_cases hd : inDstb a = true
  · simp only [hd, if_true, true_or, and_true]
    by_cases hx : x = a
    · subst hx
      simp [State.portByte, hd, State.dstByte, get?_put]
    · rw [if_neg hx]
      unfold State.portByte
      split
      · next h =>
        rw [inDstb_iff] at h hd
        have : ¬ x - Config.dstbBase = a - Config.dstbBase := by
          simp only [Config.dstbBase]; omega
        simp [State.dstByte, get?_put, this]
      · rfl
  · by_cases hm : inMsg s.cfg.caps a = true
    · simp only [hd, hm, if_true, or_true, and_true, Bool.false_eq_true, if_false]
      by_cases hx : x = a
      · subst hx
        simp [State.portByte, hd, hm, State.msgByte, get?_put]
      · rw [if_neg hx]
        unfold State.portByte
        split
        · rfl
        · split
          · next h =>
            rw [inMsg_iff] at h hm
            have : ¬ x - Config.msgBase = a - Config.msgBase := by
              simp only [Config.msgBase]; omega
            simp [State.msgByte, get?_put, this]
          · rfl
    · simp [hd, hm]

/-! ## Words of wide values -/

theorem toNat_wideWord (x j : Nat) : (wideWord x j).toNat = x / 2 ^ (32 * j) % 2 ^ 32 :=
  BitVec.toNat_ofNat ..

theorem setWideWord_lt (w x j : Nat) (v : Word) : setWideWord w x j v < 2 ^ w :=
  Nat.mod_lt _ (Nat.two_pow_pos w)

/-- Bit by bit: a word written replaces 32 bits, and no bit reaches past the width (20_memory R64). -/
theorem testBit_setWideWord (w x j i : Nat) (v : Word) : (setWideWord w x j v).testBit i =
    (decide (i < w) && if i < 32 * j then x.testBit i
      else if i < 32 * j + 32 then v.toNat.testBit (i - 32 * j) else x.testBit i) := by
  unfold setWideWord
  rw [Nat.testBit_mod_two_pow]
  congr 1
  rw [Nat.add_comm, Nat.testBit_two_pow_mul_add _ (Nat.mod_lt _ (Nat.two_pow_pos _))]
  split
  · next h => rw [Nat.testBit_mod_two_pow]; simp [h]
  · next h =>
    rw [Nat.add_comm, Nat.testBit_two_pow_mul_add _ v.isLt]
    have e1 : (i - 32 * j < 32) = (i < 32 * j + 32) := by apply propext; omega
    simp only [e1]
    split
    · rfl
    · rw [Nat.testBit_div_two_pow]
      congr 1
      omega

theorem testBit_wideWord (x j i : Nat) :
    (wideWord x j).getLsbD i = (decide (i < 32) && x.testBit (32 * j + i)) := by
  unfold wideWord
  rw [BitVec.getLsbD_ofNat, Nat.testBit_div_two_pow, Nat.add_comm]

/-- A word of a wide value reads back what was written, cut to the value's width, and every other word
as before (20_memory R64, 00_scope R14). -/
theorem wideWord_setWideWord {w x : Nat} (hx : x < 2 ^ w) (j k : Nat) (v : Word) :
    wideWord (setWideWord w x j v) k =
      if k = j then BitVec.ofNat 32 (v.toNat % 2 ^ (w - 32 * j)) else wideWord x k := by
  apply BitVec.eq_of_getLsbD_eq
  intro i hi
  rw [testBit_wideWord, testBit_setWideWord]
  by_cases hkj : k = j
  · subst hkj
    rw [if_pos rfl, BitVec.getLsbD_ofNat, Nat.testBit_mod_two_pow]
    have h1 : ¬ 32 * k + i < 32 * k := by omega
    have h2 : 32 * k + i < 32 * k + 32 := by omega
    have h3 : decide (32 * k + i < w) = decide (i < w - 32 * k) := by
      apply decide_eq_decide.2; omega
    simp [h1, h2, h3]
  · rw [if_neg hkj, testBit_wideWord]
    have h1 : (decide (32 * k + i < w) && x.testBit (32 * k + i)) = x.testBit (32 * k + i) := by
      by_cases h : 32 * k + i < w
      · simp [h]
      · have := Nat.testBit_lt_two_pow (lt_of_lt_of_le hx
          (Nat.pow_le_pow_right (by omega) (Nat.le_of_not_lt h)))
        simp [this]
    by_cases h2 : 32 * k + i < 32 * j
    · simp [h2, h1]
    · have h3 : ¬ 32 * k + i < 32 * j + 32 := by omega
      simp [h2, h3, h1]

end Sys2Proof.Machine
end

