-- ==== Sys2Proof/Laws/Invariant.lean ====
section
/-! SUPPORT. What each operation keeps of the invariant, part by part. -/

namespace Sys2Proof.Machine

/-! ## Storage -/

theorem State.StorageOk.congr {s t : State} (h : s.StorageOk) (hm : t.msgMem = s.msgMem)
    (hd : t.dstMem = s.dstMem) (ho : t.outMem = s.outMem) (he : t.elemMem = s.elemMem)
    (hl : t.outLen = s.outLen) (hc : t.cfg = s.cfg) : t.StorageOk := by
  obtain ⟨a, b, c, d, e, f, g, i, j⟩ := h
  constructor <;> simp only [hm, hd, ho, he, hl, hc] <;> assumption

theorem State.WidthsOk.congr {s t : State} (h : s.WidthsOk) (hb : t.bigx = s.bigx)
    (hp : t.pOvr = s.pOvr) (hc : t.cfg = s.cfg) : t.WidthsOk :=
  ⟨by rw [hb, hc]; exact h.bigx, by rw [hp, hc]; exact h.pOvr⟩

theorem State.ParamsOk.congr {s t : State} (h : s.ParamsOk) (hc : t.cfg = s.cfg) : t.ParamsOk :=
  ⟨by rw [hc]; exact h.prime, by rw [hc]; exact h.modulus, by rw [hc]; exact h.tag,
    by rw [hc]; exact h.caps⟩

theorem State.StorageOk.emptyOut {s : State} (h : s.StorageOk) : (emptyOut s).StorageOk :=
  { h with outWf := List.Pairwise.nil, out := by simp, outLen := by simp }

theorem State.StorageOk.emptyElem {s : State} (h : s.StorageOk) : (emptyElem s).StorageOk :=
  { h with elemWf := List.Pairwise.nil, elem := by simp }

theorem State.StorageOk.emptyDests {s : State} (h : s.StorageOk) (i : Instr) :
    (emptyDests i s).StorageOk := by
  unfold Sys2Proof.Machine.emptyDests
  cases targetsOut i <;> cases targetsElem i
  · exact h
  · exact h.emptyElem
  · exact h.emptyOut
  · exact h.emptyOut.emptyElem

theorem State.StorageOk.writeLane {s : State} (h : s.StorageOk) (a : Nat) (b : Byte) :
    (writeLane a b s).StorageOk := by
  unfold Sys2Proof.Machine.writeLane
  split
  · next hd =>
    refine { h with dstWf := wf_put h.dstWf _ _, dst := fun c hc => ?_ }
    rcases mem_put hc with rfl | hc
    · rw [inDstb_iff] at hd
      simp only [Config.dstbBase, Config.dstMax]
      omega
    · exact h.dst c hc
  · split
    · next hm =>
      refine { h with msgWf := wf_put h.msgWf _ _, msg := fun c hc => ?_ }
      rcases mem_put hc with rfl | hc
      · exact ((inMsg_iff _ _).1 hm).2
      · exact h.msg c hc
    · exact h

theorem State.StorageOk.writeBufferWord {s : State} (h : s.StorageOk) (off : Nat) (v : Word) :
    (writeBufferWord off v s).StorageOk :=
  (((h.writeLane _ _).writeLane _ _).writeLane _ _).writeLane _ _

theorem State.StorageOk.writeElemWord {s : State} (h : s.StorageOk) (off : Nat) (v : Word) :
    (writeElemWord off v s).StorageOk := by
  unfold Sys2Proof.Machine.writeElemWord
  split
  · next he =>
    refine { h with elemWf := wf_put h.elemWf _ _, elem := fun c hc => ?_ }
    rcases mem_put hc with rfl | hc
    · exact ⟨((inElem_iff _ _).1 he).1.2, setWideWord_lt _ _ _ _⟩
    · exact h.elem c hc
  · exact h

/-- Completing into OUT keeps storage canonical: the bytes written lie below OUT_LEN. -/
theorem State.StorageOk.finishOut {s : State} (h : s.StorageOk) {i : Instr} {bs : List Byte}
    (hl : bs.length ≤ s.cfg.caps.outMax) (h32 : s.cfg.caps.outMax < 2 ^ 32) :
    (finishOut i bs s).StorageOk := by
  have h1 := h.emptyDests i
  have h2 := finishOut_outLen_toNat i bs s (by omega)
  refine { h1 with outWf := wf_cellsFrom 0 bs, out := fun c hc => ?_, outLen := ?_ }
  · have := (mem_cellsFrom hc).2.1
    rw [h2]
    omega
  · rw [h2]
    simpa [Sys2Proof.Machine.finishOut] using hl

/-- Completing into ELEM keeps storage canonical: the entries exist and fit their width. -/
theorem State.StorageOk.finishElem {s : State} (h : s.StorageOk) {i : Instr} {vs : List Nat}
    (hl : vs.length ≤ s.cfg.caps.elemMax) (hv : ∀ v ∈ vs, v < 2 ^ s.cfg.caps.ew) :
    (finishElem i vs s).StorageOk := by
  have h1 := h.emptyDests i
  refine { h1 with elemWf := wf_cellsFrom 0 vs, elem := fun c hc => ?_ }
  have := mem_cellsFrom hc
  have hcfg : (Sys2Proof.Machine.finishElem i vs s).cfg = s.cfg := by
    simp [Sys2Proof.Machine.finishElem]
  rw [hcfg]
  exact ⟨by omega, hv _ this.2.2⟩

theorem State.StorageOk.failCommand {s : State} (h : s.StorageOk) (i : Instr) (e : CmdError) :
    (failCommand i e s).StorageOk := (h.emptyDests i).congr rfl rfl rfl rfl rfl rfl

/-- With its operand tests passed H2F ends with residues that fit ELEM (42 R167). -/
theorem State.StorageOk.finishH2f {s : State} (h : s.StorageOk) (hp : s.ParamsOk) (hw : s.WidthsOk)
    {p m k d e v : Bool} (u : List Byte) (ht : h2fOperandFailure s.cfg.caps
      (resolveH2f p m k d e v s) s.count.toNat s.msgLen.toNat = none) (i : Instr) :
    (finishH2f i (resolveH2f p m k d e v s) u s).StorageOk := by
  have h1 := h2fOperandFailure_none ht
  refine h.finishElem ?_ fun x hx => ?_
  · rw [length_fieldTuples_flatten]; exact h1.2.2.2
  · exact lt_trans (lt_of_mem_fieldTuples (Nat.pos_of_ne_zero h1.2.1) hx)
      (resolveH2f_p_lt p m k d e v hp hw)

/-- A turn of the sequencer on a command keeps storage canonical, if a running expansion passed its
tests. -/
theorem Ends.storageOk {i : Instr} {s t : State} (he : Ends i s t) (h : s.StorageOk)
    (hp : s.ParamsOk) (hw : s.WidthsOk)
    (hx : i = .xmd → s.chain ≠ none → s.lenArg.toNat ≤ s.cfg.caps.outMax)
    (hh : ∀ p m k d e v, i = .h2f p m k d e v → s.chain ≠ none → h2fOperandFailure s.cfg.caps
      (resolveH2f p m k d e v s) s.count.toNat s.msgLen.toNat = none) : t.StorageOk := by
  cases he with
  | fails e _ => exact h.failCommand i e
  | out bs len target _ => exact h.finishOut (len hp.caps) hp.caps.lengths
  | elems vs len fits _ => exact h.finishElem (len hp.caps) (fits hp hw)
  | bigx v _ _ _ _ => exact (h.emptyDests i).congr rfl rfl rfl rfl rfl rfl
  | startsXmd _ _ _ _ => exact h.congr rfl rfl rfl rfl rfl rfl
  | startsH2f _ _ _ _ _ _ _ _ _ _ => exact h.congr rfl rfl rfl rfl rfl rfl
  | waits c _ _ => exact h
  | asksFirst c d _ _ _ => exact h.congr rfl rfl rfl rfl rfl rfl
  | asksNext c d _ _ _ _ => exact h.congr rfl rfl rfl rfl rfl rfl
  | endsXmd c d chain _ isXmd _ _ =>
    subst isXmd
    refine h.finishOut ?_ hp.caps.lengths
    rw [List.length_take]
    exact le_trans (Nat.min_le_left _ _) (hx rfl (by simp [chain]))
  | endsH2f c d p m k dst e v chain _ isH2f _ _ =>
    exact h.finishH2f hp hw _ (hh _ _ _ _ _ _ isH2f (by simp [chain])) i

/-- A turn of the sequencer on a command leaves BIGX and P_OVR within their widths. -/
theorem Ends.widthsOk {i : Instr} {s t : State} (he : Ends i s t) (h : s.WidthsOk)
    (hp : s.ParamsOk) : t.WidthsOk := by
  cases he with
  | fails e _ => refine h.congr ?_ ?_ ?_ <;> simp [failCommand]
  | out bs _ _ _ => refine h.congr ?_ ?_ ?_ <;> simp [finishOut]
  | elems vs _ _ _ => refine h.congr ?_ ?_ ?_ <;> simp [finishElem]
  | bigx v fits _ _ _ =>
    exact ⟨by simpa [finishBigx] using fits hp.caps, by simpa [finishBigx] using h.pOvr⟩
  | startsXmd _ _ _ _ => exact h.congr rfl rfl rfl
  | startsH2f _ _ _ _ _ _ _ _ _ _ => exact h.congr rfl rfl rfl
  | waits c _ _ => exact h
  | asksFirst c d _ _ _ => exact h.congr rfl rfl rfl
  | asksNext c d _ _ _ _ => exact h.congr rfl rfl rfl
  | endsXmd c d _ _ _ _ _ => refine h.congr ?_ ?_ ?_ <;> simp [finishXmd, finishOut]
  | endsH2f c d _ _ _ _ _ _ _ _ _ _ _ =>
    refine h.congr ?_ ?_ ?_ <;> simp [finishExpandedH2f, finishH2f, finishElem]

/-! ## The other parts -/

theorem State.ErrorOk.congr {s t : State} (h : s.ErrorOk) (hp : t.phase = s.phase)
    (hc : t.errCode = s.errCode) (hi : t.errInfo = s.errInfo) : t.ErrorOk := by
  obtain ⟨a, b, c⟩ := h
  constructor <;> simp only [hp, hc, hi] <;> assumption

theorem CmdError.code_range (e : CmdError) : e.code ≠ 0 ∧ e.code.toNat ≤ 7 := by
  cases e <;> simp [CmdError.code]

theorem State.ErrorOk.of_err {s : State} {e : CmdError} (hp : s.phase = .err)
    (hc : s.errCode = e.code) : s.ErrorOk :=
  ⟨by simpa [hp, hc] using e.code_range.1, by rw [hc]; exact e.code_range.2, by simp [hp]⟩

theorem State.ErrorOk.of_ok {s : State} (hp : s.phase ≠ .err) (hc : s.errCode = 0)
    (hi : s.errInfo = 0) : s.ErrorOk :=
  ⟨by simp [hp, hc], by simp [hc], fun _ => hi⟩

theorem State.DrawsOk.congr {s t : State} (h : s.DrawsOk) (hd : s.draws ≤ t.draws)
    (hb : t.bootDraw = s.bootDraw) (ho : t.outDraw = s.outDraw) (he : t.elemDraw = s.elemDraw) :
    t.DrawsOk := by
  obtain ⟨a, b, c⟩ := h
  constructor <;> omega

theorem State.DrawsOk.emptyDests {s : State} (h : s.DrawsOk) (i : Instr) :
    (emptyDests i s).DrawsOk := by
  obtain ⟨a, b, c⟩ := h
  unfold Sys2Proof.Machine.emptyDests
  cases targetsOut i <;> cases targetsElem i <;> constructor <;>
    simp [Sys2Proof.Machine.emptyOut, Sys2Proof.Machine.emptyElem] <;> omega

theorem State.ResetOk.of_false {s : State} (h : s.rst = false) : s.ResetOk := fun hr => by
  rw [h] at hr; cases hr

/-- `rst` is not asserted outside IDLE. -/
theorem State.ResetOk.rst {s : State} (h : s.ResetOk) (hp : s.phase ≠ .idle) : s.rst = false := by
  cases hr : s.rst with
  | false => rfl
  | true => exact absurd (h hr).phase hp

/-- The reset state does not depend on the level of `rst`, the turns to come, the port's read data or
the number of free values drawn. -/
theorem AtReset.congr {s t : State} (h : AtReset s)
    (ht : ∃ b n r d, t = { s with rst := b, inputs := n, rdata := r, draws := d }) : AtReset t := by
  obtain ⟨b, n, r, d, rfl⟩ := ht
  exact ⟨h.phase, h.status, h.errCode, h.errInfo, h.ie, h.cmdLast, h.scalars, h.hidden, h.irq,
    h.storage⟩

/-- A command's turn leaves it running, with all but the chain as it was, or completed, or failed with
an error of the table. -/
theorem Ends.outcome {i : Instr} {s t : State} (he : Ends i s t) :
    (t.phase = s.phase ∧ ∃ c q r, c ≠ none ∧
      t = { s with chain := c, digestReq := q, digestResp := r }) ∨
    Completed s t ∨
    (∃ e, mayRaise i (expandsIn i s) e = true ∧ t = failCommand i e s) := by
  cases he with
  | fails e he => exact .inr (.inr ⟨e, he, rfl⟩)
  | out bs _ _ _ => exact .inr (.inl (finishOut_completed i bs s))
  | elems vs _ _ _ => exact .inr (.inl (finishElem_completed i vs s))
  | bigx v _ _ _ _ => exact .inr (.inl (finishBigx_completed i v s))
  | startsXmd _ _ _ _ => exact .inl ⟨rfl, _, _, _, by simp, rfl⟩
  | startsH2f _ _ _ _ _ _ _ _ _ _ => exact .inl ⟨rfl, _, _, _, by simp, rfl⟩
  | waits c chain _ => exact .inl ⟨rfl, s.chain, s.digestReq, s.digestResp, by simp [chain], rfl⟩
  | asksFirst c d _ _ _ => exact .inl ⟨rfl, _, _, _, by simp, rfl⟩
  | asksNext c d _ _ _ _ => exact .inl ⟨rfl, _, _, _, by simp, rfl⟩
  | endsXmd c d _ _ _ _ _ => exact .inr (.inl (finishOut_completed _ _ s))
  | endsH2f c d _ _ _ _ _ _ _ _ _ _ _ => exact .inr (.inl (finishElem_completed _ _ s))

/-- What a turn of the sequencer on a command never changes. -/
theorem Ends.fields {i : Instr} {s t : State} (he : Ends i s t) :
    t.cfg = s.cfg ∧ t.rst = s.rst ∧ t.ovr = s.ovr ∧ t.cmdLast = s.cmdLast ∧ t.inputs = s.inputs ∧
      t.msgLen = s.msgLen ∧ t.lenArg = s.lenArg ∧ t.dstLen = s.dstLen := by
  cases he with
  | fails e he => simp [failCommand]
  | out bs _ _ _ => simp [finishOut]
  | elems vs _ _ _ => simp [finishElem]
  | bigx v _ _ _ _ => simp [finishBigx]
  | startsXmd _ _ _ _ => simp [startChain]
  | startsH2f _ _ _ _ _ _ _ _ _ _ => simp [startChain]
  | waits c chain _ => simp
  | asksFirst c d _ _ _ => simp
  | asksNext c d _ _ _ _ => simp
  | endsXmd c d _ _ _ _ _ => simp [finishXmd, finishOut]
  | endsH2f c d _ _ _ _ _ _ _ _ _ _ _ => simp [finishExpandedH2f, finishH2f, finishElem]

/-- A turn of the sequencer keeps the numbering of free values. -/
theorem Ends.drawsOk {i : Instr} {s t : State} (he : Ends i s t) (h : s.DrawsOk) : t.DrawsOk := by
  have hd := h.emptyDests i
  cases he with
  | fails e he => exact hd.congr (by simp [failCommand]) rfl rfl rfl
  | out bs _ _ _ => exact hd.congr (by simp [finishOut]) rfl rfl rfl
  | elems vs _ _ _ =>
    refine hd.congr ?_ ?_ ?_ ?_ <;> simp [finishElem]
  | bigx v _ _ _ _ => exact hd.congr (by simp [finishBigx]) rfl rfl rfl
  | startsXmd _ _ _ _ => exact h.congr le_rfl rfl rfl rfl
  | startsH2f _ _ _ _ _ _ _ _ _ _ => exact h.congr le_rfl rfl rfl rfl
  | waits c chain _ => exact h
  | asksFirst c d _ _ _ => exact h.congr le_rfl rfl rfl rfl
  | asksNext c d _ _ _ _ => exact h.congr le_rfl rfl rfl rfl
  | endsXmd c d _ _ isXmd _ _ =>
    subst isXmd
    exact hd.congr (by simp [finishXmd, finishOut]) rfl rfl rfl
  | endsH2f c d _ _ _ _ _ _ _ _ _ _ _ =>
    refine hd.congr ?_ ?_ ?_ ?_ <;> simp [finishExpandedH2f, finishH2f, finishElem]

/-! ## The digest chain -/

/-- A chain belongs to its command by what the command reads and the digest interface alone. -/
theorem ChainBelongs.congr {i : Instr} {c : Chain} {s t : State} (h : ChainBelongs i c s)
    (hcfg : t.cfg = s.cfg) (hml : t.msgLen = s.msgLen) (hdl : t.dstLen = s.dstLen)
    (hla : t.lenArg = s.lenArg) (hco : t.count = s.count) (hm : t.mOvr = s.mOvr)
    (hk : t.kOvr = s.kOvr) (hp : t.pOvr = s.pOvr) (hmm : t.msgMem = s.msgMem)
    (hdm : t.dstMem = s.dstMem) (hb : t.bootDraw = s.bootDraw)
    (hq : t.digestReq = s.digestReq) (hr : t.digestResp = s.digestResp) : ChainBelongs i c t := by
  have hmsg : t.msg = s.msg := by
    unfold State.msg; rw [hml]; exact List.map_congr_left fun k _ => msgByte_congr hmm hb k
  have hdst : t.dst = s.dst := by
    unfold State.dst; rw [hdl]; exact List.map_congr_left fun k _ => dstByte_congr hdm hb k
  cases i with
  | xmd =>
    simp only [ChainBelongs, hcfg, hml, hdl, hla, hmsg, hdst] at h ⊢
    exact ⟨h.1, h.2.1, h.2.2.congr hq hr⟩
  | h2f p m k d e v =>
    have hres : resolveH2f p m k d e v t = resolveH2f p m k d e v s := by
      simp only [resolveH2f, hcfg, hdl, hm, hk, hp, hdst]
    simp only [ChainBelongs, hres, hcfg, hml, hco, hmsg] at h ⊢
    exact ⟨h.1, h.2.1, h.2.2.congr hq hr⟩
  | _ => exact h.elim

/-! ## Whole operations -/

/-- A turn of the sequencer on the running command keeps the invariant. -/
theorem Ends.inv {i : Instr} {s t : State} (hI : s.Inv) (hb : s.phase = .busy)
    (hd : decodeWord s.cmdLast = some i) (he : Ends i s t) : t.Inv := by
  obtain ⟨hst, hwi, her, hph, hch, hpa, hro, hdr⟩ := hI
  obtain ⟨i', hi', hclr, hol, hec⟩ := hph.busy hb
  have : i' = i := by rw [hd] at hi'; exact (Option.some.inj hi').symm
  subst this
  have hf := he.fields
  have herr0 : s.errCode = 0 := by
    by_contra h; have := her.code.2 h; rw [hb] at this; cases this
  have hinf0 : s.errInfo = 0 := her.info (by rw [hb]; simp)
  have hbel : ∀ c, s.chain = some c → ChainBelongs i' c s := by
    intro c hc
    obtain ⟨-, j, hj, hB⟩ := hch.belongs c hc
    rw [hd] at hj; cases hj; exact hB
  refine ⟨?_, he.widthsOk hwi hpa, ?_, ?_, ?_, hpa.congr hf.1,
    .of_false (hf.2.1.trans (hro.rst (by rw [hb]; simp))), he.drawsOk hdr⟩
  · refine he.storageOk hst hpa hwi ?_ ?_
    · rintro rfl hc
      obtain ⟨c, hc⟩ := Option.ne_none_iff_exists'.1 hc
      have := hbel c hc
      exact (le_of_xmdFailure_none this.2.1).2.1.trans hpa.caps.xmdOut
    · rintro p m k d e v rfl hc
      obtain ⟨c, hc⟩ := Option.ne_none_iff_exists'.1 hc
      have := hbel c hc
      exact (h2fFailure_none this.2.1).1
  · rcases he.outcome with ⟨hp, c, q, r, -, ht⟩ | hC | ⟨e, -, rfl⟩
    · subst ht; exact her.congr rfl rfl rfl
    · exact .of_ok (by rw [hC.phase]; simp) (by rw [hC.errCode, herr0])
        (by rw [hC.errInfo, hinf0])
    · exact .of_err (e := e) rfl rfl
  · rcases he.outcome with ⟨hp, c, q, r, hcn, ht⟩ | hC | ⟨e, -, rfl⟩
    · subst ht
      exact ⟨hph.busy, fun h => absurd hb h⟩
    · exact ⟨fun h => (by rw [hC.phase] at h; cases h), fun _ => hC.hidden⟩
    · exact ⟨fun h => (by cases h), fun _ => ⟨rfl, rfl, rfl⟩⟩
  · have hmk : ∀ c' t, t.phase = .busy → t.cmdLast = s.cmdLast → t.chain = some c' →
        ChainBelongs i' c' t → t.ChainOk := by
      intro c' t h1 h2 h3 h4
      refine ⟨fun c hc => ?_, fun h => by rw [h3] at h; cases h⟩
      rw [h3] at hc; cases hc
      exact ⟨h1, i', by rw [h2, hd], h4⟩
    have hdone : ∀ t : State,
        t.chain = none ∧ t.digestReq = none ∧ t.digestResp = none → t.ChainOk :=
      fun t h => ⟨fun c hc => (by rw [h.1] at hc; cases hc), fun _ => h.2⟩
    cases he with
    | fails e he => exact hdone _ ⟨rfl, rfl, rfl⟩
    | out bs _ _ _ => exact hdone _ ⟨rfl, rfl, rfl⟩
    | elems vs _ _ _ => exact hdone _ ⟨rfl, rfl, rfl⟩
    | bigx v _ _ _ _ => exact hdone _ ⟨rfl, rfl, rfl⟩
    | startsXmd hc hx hl hp =>
      subst hx
      exact hmk _ _ hb rfl rfl ⟨hl, hp, chainAt_start _ _ _ _ (le_of_xmdFailure_none hp).1⟩
    | startsH2f p m k d e v hc hx hex hp =>
      subst hx
      exact hmk _ _ hb rfl rfl ⟨hex, hp, chainAt_start _ _ _ _
        (le_of_xmdFailure_none ((h2fFailure_none hp).2.1 hex)).1⟩
    | waits c chain _ => exact hch
    | asksFirst c d hc hr h0 =>
      have hB := hbel c hc
      cases i' with
      | xmd => exact hmk _ _ hb rfl rfl ⟨hB.1, hB.2.1, chainAt_first hB.2.2 hr h0⟩
      | h2f p m k d e v => exact hmk _ _ hb rfl rfl ⟨hB.1, hB.2.1, chainAt_first hB.2.2 hr h0⟩
      | _ => exact hB.elim
    | asksNext c d hc hr h0 h1 =>
      have hB := hbel c hc
      cases i' with
      | xmd => exact hmk _ _ hb rfl rfl ⟨hB.1, hB.2.1, chainAt_next hB.2.2 hr h0 h1⟩
      | h2f p m k d e v => exact hmk _ _ hb rfl rfl ⟨hB.1, hB.2.1, chainAt_next hB.2.2 hr h0 h1⟩
      | _ => exact hB.elim
    | endsXmd c d _ _ _ _ _ => exact hdone _ ⟨rfl, rfl, rfl⟩
    | endsH2f c d _ _ _ _ _ _ _ _ _ _ _ => exact hdone _ ⟨rfl, rfl, rfl⟩

/-- Outside BUSY and reset the invariant reads only PHASE, the error registers, storage, the hidden
state, the instance constants and the draws. -/
theorem State.Inv.congrIdle {s t : State} (h : s.Inv) (hrst : t.rst = false) (hp : t.phase = s.phase)
    (hc : t.errCode = s.errCode) (hi : t.errInfo = s.errInfo) (hnb : s.phase ≠ .busy)
    (hch : t.chain = s.chain) (hq : t.digestReq = s.digestReq)
    (hr : t.digestResp = s.digestResp) (hcfg : t.cfg = s.cfg)
    (hst : t.StorageOk) (hw : t.WidthsOk) (hd : t.DrawsOk) : t.Inv := by
  have hid := h.phase.idle hnb
  refine ⟨hst, hw, h.error.congr hp hc hi,
    ⟨fun hb => absurd (hp ▸ hb) hnb, fun _ => by rw [hch, hq, hr]; exact hid⟩,
    ⟨fun c hcc => ?_, fun _ => by rw [hq, hr]; exact hid.2⟩,
    h.params.congr hcfg, .of_false hrst, hd⟩
  rw [hch, hid.1] at hcc; cases hcc

theorem writeLane_frame (a : Nat) (b : Byte) (s : State) :
    ∃ m d, writeLane a b s = { s with msgMem := m, dstMem := d } := by
  unfold writeLane
  split
  · exact ⟨s.msgMem, _, rfl⟩
  · split
    · exact ⟨_, s.dstMem, rfl⟩
    · exact ⟨s.msgMem, s.dstMem, rfl⟩

/-- A host write to the buffers changes MSG and DSTB alone. -/
theorem writeBufferWord_frame (off : Nat) (v : Word) (s : State) :
    ∃ m d, writeBufferWord off v s = { s with msgMem := m, dstMem := d } := by
  unfold writeBufferWord
  obtain ⟨m1, d1, h1⟩ := writeLane_frame off (v.extractLsb' 0 8) s
  rw [h1]
  obtain ⟨m2, d2, h2⟩ := writeLane_frame (off + 1) (v.extractLsb' 8 8)
    { s with msgMem := m1, dstMem := d1 }
  rw [h2]
  obtain ⟨m3, d3, h3⟩ := writeLane_frame (off + 2) (v.extractLsb' 16 8)
    { s with msgMem := m2, dstMem := d2 }
  rw [h3]
  obtain ⟨m4, d4, h4⟩ := writeLane_frame (off + 3) (v.extractLsb' 24 8)
    { s with msgMem := m3, dstMem := d3 }
  rw [h4]
  exact ⟨m4, d4, rfl⟩

/-- A host write to ELEM changes ELEM alone. -/
theorem writeElemWord_frame (off : Nat) (v : Word) (s : State) :
    ∃ m, writeElemWord off v s = { s with elemMem := m } := by
  unfold writeElemWord
  split
  · exact ⟨_, rfl⟩
  · exact ⟨s.elemMem, rfl⟩

theorem writeWindow_inv {s : State} (h : s.Inv) (hrst : s.rst = false) (hnb : s.phase ≠ .busy) (off : Nat) (v : Word) :
    (writeWindow off v s).Inv := by
  have hdr : ∀ t : State, t.draws = s.draws → t.bootDraw = s.bootDraw → t.outDraw = s.outDraw →
      t.elemDraw = s.elemDraw → t.DrawsOk := fun t a b c d => h.draws.congr (by omega) b c d
  unfold writeWindow
  split
  · unfold writeScalar
    split <;> exact h.congrIdle hrst rfl rfl rfl hnb rfl rfl rfl rfl
      (h.storage.congr rfl rfl rfl rfl rfl rfl) (h.widths.congr rfl rfl rfl)
      (hdr _ rfl rfl rfl rfl)
  · split
    · exact h.congrIdle hrst rfl rfl rfl hnb rfl rfl rfl rfl (h.storage.congr rfl rfl rfl rfl rfl rfl)
        ⟨setWideWord_lt _ _ _ _, h.widths.pOvr⟩ (hdr _ rfl rfl rfl rfl)
    · split
      · exact h.congrIdle hrst rfl rfl rfl hnb rfl rfl rfl rfl
          (h.storage.congr rfl rfl rfl rfl rfl rfl) ⟨h.widths.bigx, setWideWord_lt _ _ _ _⟩
          (hdr _ rfl rfl rfl rfl)
      · split
        · have hs := h.storage.writeElemWord off v
          obtain ⟨m, hm⟩ := writeElemWord_frame off v s
          rw [hm] at hs ⊢
          exact h.congrIdle hrst rfl rfl rfl hnb rfl rfl rfl rfl hs (h.widths.congr rfl rfl rfl)
            (hdr _ rfl rfl rfl rfl)
        · have hs := h.storage.writeBufferWord off v
          obtain ⟨m, d, hm⟩ := writeBufferWord_frame off v s
          rw [hm] at hs ⊢
          exact h.congrIdle hrst rfl rfl rfl hnb rfl rfl rfl rfl hs (h.widths.congr rfl rfl rfl)
            (hdr _ rfl rfl rfl rfl)

/-- The invariant does not read the turns to come or the port's read data, allows free values to be
drawn, and outside reset does not read OVR or IE. -/
theorem State.Inv.congrPort {s t : State} (h : s.Inv) (ht : ∃ o i n r d, s.draws ≤ d ∧
    (s.rst = true → o = s.ovr ∧ i = s.ie) ∧
    t = { s with ovr := o, ie := i, inputs := n, rdata := r, draws := d }) : t.Inv := by
  obtain ⟨o, i, n, r, d, hd, ho, rfl⟩ := ht
  refine ⟨h.storage.congr rfl rfl rfl rfl rfl rfl, h.widths.congr rfl rfl rfl,
    h.error.congr rfl rfl rfl, ⟨h.phase.busy, h.phase.idle⟩,
    ⟨fun c hc => ?_, h.chain.none⟩, h.params.congr rfl, fun hr => ?_, h.draws.congr hd rfl rfl rfl⟩
  rotate_left
  · obtain ⟨rfl, rfl⟩ := ho hr
    exact (h.reset hr).congr ⟨_, _, _, _, rfl⟩
  obtain ⟨hb, j, hj, hB⟩ := h.chain.belongs c hc
  exact ⟨hb, j, hj, hB.congr rfl rfl rfl rfl rfl rfl rfl rfl rfl rfl rfl rfl rfl⟩

/-- The invariant does not read the turns to come. -/
theorem State.Inv.setInputs {s : State} (h : s.Inv) (n : List Turn) :
    State.Inv { s with inputs := n } :=
  h.congrPort ⟨_, _, _, _, _, le_rfl, fun _ => ⟨rfl, rfl⟩, rfl⟩

/-- Outside reset the invariant does not read OVR or IE. -/
theorem State.Inv.setFlags {s : State} (h : s.Inv) (hrst : s.rst = false) (o : Bool)
    (i : BitVec 2) : State.Inv { s with ovr := o, ie := i } :=
  h.congrPort ⟨_, _, _, _, _, le_rfl, fun hr => (by rw [hrst] at hr; cases hr), rfl⟩

/-- A host write outside reset keeps the invariant. -/
theorem portWrite_inv {s : State} (h : s.Inv) (hrst : s.rst = false) (off : Nat) (v : Word) : (portWrite off v s).Inv := by
  unfold portWrite
  split
  · split
    · next ho =>
      subst ho
      exact h.setFlags hrst s.ovr (v.extractLsb' 0 2)
    · exact h
  · next hb => exact writeWindow_inv h hrst hb off v

/-- A host read keeps the invariant. -/
theorem portRead_inv {s : State} (h : s.Inv) (off : Nat) : (portRead off s).Inv := by
  unfold portRead
  split
  · exact h.congrPort ⟨_, _, _, _, _, Nat.le_succ _, fun _ => ⟨rfl, rfl⟩, rfl⟩
  · exact h.congrPort ⟨_, _, _, _, _, le_rfl, fun _ => ⟨rfl, rfl⟩, rfl⟩

/-- The state a reset leaves is that of 10_state R55. -/
theorem atReset_resetWith (cfg : Config.Params) (d : Nat) : AtReset (State.resetWith cfg d) := by
  constructor <;> simp [State.resetWith, statusWord, irq]

/-- The state a reset leaves meets the invariant, for an instance with legal constants. -/
theorem resetWith_inv (cfg : Config.Params) (d : Nat) (rst : Bool) (inputs : List Turn)
    (rdata : Word) (h : (State.resetWith cfg d).ParamsOk) :
    State.Inv { State.resetWith cfg d with rst := rst, inputs := inputs, rdata := rdata } := by
  refine ⟨⟨List.Pairwise.nil, List.Pairwise.nil, List.Pairwise.nil, List.Pairwise.nil,
    ?_, ?_, ?_, ?_, ?_⟩, ⟨?_, ?_⟩, ⟨?_, ?_, ?_⟩, ⟨?_, ?_⟩, ⟨?_, ?_⟩, h.congr rfl,
    fun _ => (atReset_resetWith cfg d).congr ⟨_, _, _, _, rfl⟩, ⟨?_, ?_, ?_⟩⟩ <;>
    simp [State.resetWith, Nat.mod_lt]

/-- The assertion of `rst` keeps the invariant. -/
theorem resetTurn_inv {s : State} (h : s.Inv) : (resetTurn s).Inv :=
  resetWith_inv _ _ _ _ _ (h.params.congr rfl)

/-- The release of `rst` keeps the invariant. -/
theorem releaseTurn_inv {s : State} (h : s.Inv) : (releaseTurn s).Inv := by
  unfold releaseTurn
  split
  · exact resetWith_inv _ _ _ _ _ (h.params.congr rfl)
  · exact h

/-- The engine's turn keeps the invariant. -/
theorem engineTurn_inv {s : State} (h : s.Inv) : (engineTurn s).Inv := by
  unfold engineTurn
  split
  · next m hm =>
    have hb : s.phase = .busy := by
      by_contra hb; have := (h.phase.idle hb).2.1; rw [this] at hm; cases hm
    refine ⟨h.storage.congr rfl rfl rfl rfl rfl rfl, h.widths.congr rfl rfl rfl,
    h.error.congr rfl rfl rfl,
      ⟨h.phase.busy, fun hn => absurd hb hn⟩, ⟨fun c hc => ?_, fun hc => ?_⟩,
      h.params.congr rfl, .of_false (h.reset.rst (by rw [hb]; simp)),
      h.draws.congr le_rfl rfl rfl rfl⟩
    · obtain ⟨hb, j, hj, hB⟩ := h.chain.belongs c hc
      refine ⟨hb, j, hj, ?_⟩
      have hpend : ∀ {msg dst len}, ChainAt msg dst len c s →
          ChainAt msg dst len c { s with digestReq := none, digestResp := some (sha256 m) } := by
        intro msg dst len hA
        refine ⟨hA.dstp, hA.ell, hA.ellMax, hA.idx, hA.b0, hA.bprev, hA.blocks,
          .inr ⟨rfl, ?_⟩⟩
        rcases hA.pending with ⟨h1, -⟩ | ⟨h1, -⟩
        · rw [h1] at hm; cases hm; rfl
        · rw [h1] at hm; cases hm
      cases j with
      | xmd => exact ⟨hB.1, hB.2.1, hpend hB.2.2⟩
      | h2f p m' k d e v => exact ⟨hB.1, hB.2.1, hpend hB.2.2⟩
      | _ => exact hB.elim
    · have := (h.chain.none hc).1; rw [this] at hm; cases hm
  · exact h

/-- CLR outside BUSY and reset keeps the invariant. -/
theorem clearStatus_inv {s : State} (h : s.Inv) (hrst : s.rst = false) (hnb : s.phase ≠ .busy) :
    (clearStatus s).Inv := by
  have hid := h.phase.idle hnb
  have hst : State.StorageOk { s with phase := .idle, errCode := 0, errInfo := 0, ovr := false } :=
    h.storage.congr rfl rfl rfl rfl rfl rfl
  refine ⟨hst.emptyOut, h.widths.congr rfl rfl rfl, .of_ok (by simp) (by simp) (by simp),
    ⟨fun hb => by simp at hb, fun _ => hid⟩, ⟨fun c hc => ?_, fun _ => hid.2⟩,
    h.params.congr rfl, .of_false hrst, ?_⟩
  · have : s.chain = some c := hc
    rw [hid.1] at this; cases this
  · obtain ⟨a, b, c⟩ := h.draws
    constructor <;> simp [clearStatus, emptyOut] <;> omega

/-- Acceptance outside reset keeps the invariant. -/
theorem accept_inv {s : State} (h : s.Inv) (hrst : s.rst = false) {i : Instr} {w : Word} (hw : decodeWord w = some i)
    (hi : i ≠ .clr) : (accept i w s).Inv := by
  have hst : State.StorageOk { s with cmdLast := w, phase := .busy, errCode := 0, errInfo := 0 } :=
    h.storage.congr rfl rfl rfl rfl rfl rfl
  have hd : State.DrawsOk { s with cmdLast := w, phase := .busy, errCode := 0, errInfo := 0 } :=
    h.draws.congr le_rfl rfl rfl rfl
  refine ⟨(hst.emptyDests i).congr rfl rfl rfl rfl rfl rfl,
    h.widths.congr (by simp [accept]) (by simp [accept]) (by simp [accept]),
    .of_ok (by simp [accept]) (by simp [accept]) (by simp [accept]),
    ⟨fun _ => ⟨i, by simpa [accept] using hw, hi, ?_, ?_⟩, fun hn => ?_⟩,
    ⟨fun c hc => ?_, fun _ => ⟨rfl, rfl⟩⟩, h.params.congr (by simp [accept]),
    .of_false (by simpa [accept] using hrst), (hd.emptyDests i).congr (by simp [accept]) rfl rfl rfl⟩
  · intro ho; simp [accept, ho]
  · intro ho; simp [accept, ho]
  · exact absurd (by simp [accept]) hn
  · cases hc

/-- An illegal word outside BUSY and reset keeps the invariant. -/
theorem illegal_inv {s : State} (h : s.Inv) (hrst : s.rst = false) (hnb : s.phase ≠ .busy) (w : Word) :
    (raiseError (.illegalCommand w) { s with cmdLast := w }).Inv := by
  have hid := h.phase.idle hnb
  refine ⟨h.storage.congr rfl rfl rfl rfl rfl rfl, h.widths.congr rfl rfl rfl,
    .of_err (e := .illegalCommand w) rfl rfl,
    ⟨fun hb => by simp at hb, fun _ => hid⟩, ⟨fun c hc => ?_, fun _ => hid.2⟩,
    h.params.congr rfl, .of_false hrst, h.draws.congr le_rfl rfl rfl rfl⟩
  have : s.chain = some c := hc
  rw [hid.1] at this; cases this

theorem setLast_inv {s : State} (h : s.Inv) (hrst : s.rst = false) (hnb : s.phase ≠ .busy) (w : Word) :
    State.Inv { s with cmdLast := w } :=
  h.congrIdle hrst rfl rfl rfl hnb rfl rfl rfl rfl (h.storage.congr rfl rfl rfl rfl rfl rfl)
    (h.widths.congr rfl rfl rfl) (h.draws.congr le_rfl rfl rfl rfl)

/-- A CMD write outside reset keeps the invariant. -/
theorem issue_inv {s t : State} (h : s.Inv) (hrst : s.rst = false) (w : Word) (ht : issue w s = .next t) : t.Inv := by
  unfold issue at ht
  split at ht
  · cases ht; exact h.setFlags hrst true s.ie
  · next hp =>
    have hnb : s.phase ≠ .busy := by rw [hp]; simp
    split at ht
    · cases ht; exact clearStatus_inv (setLast_inv h hrst hnb w) hrst hnb
    · cases ht; exact h.setFlags hrst true s.ie
  all_goals
    next hp =>
    have hnb : s.phase ≠ .busy := by rw [hp]; simp
    split at ht
    · cases ht; exact illegal_inv h hrst hnb w
    · cases ht; exact clearStatus_inv (setLast_inv h hrst hnb w) hrst hnb
    · next i hi hw => cases ht; exact accept_inv h hrst hw hi

end Sys2Proof.Machine
end

