-- ==== Sys2Proof/Laws/Operands.lean ====
section
/-! SUPPORT. What commands read depends only on the operands their rules name. -/

namespace Sys2Proof.Machine

theorem msg_congr {s t : State} (h : SameMsg s t) (hl : s.msgLen.toNat ≤ s.cfg.caps.msgMax) :
    t.msg = s.msg := by
  unfold State.msg
  rw [h.1]
  apply List.map_congr_left
  intro k hk
  have := List.mem_range.1 hk
  exact h.2 k this (by omega)

theorem dst_congr {s t : State} (h : SameTag s t) (hl : s.dstLen.toNat ≤ Config.dstMax) :
    t.dst = s.dst := by
  unfold State.dst
  rw [h.1]
  apply List.map_congr_left
  intro k hk
  have := List.mem_range.1 hk
  exact h.2 k this (by omega)

theorem elems_congr {s t : State} (h : SameElems s t)
    (hl : s.elemCnt.toNat ≤ s.cfg.caps.elemMax) : t.elems = s.elems := by
  unfold State.elems
  rw [h.1]
  apply List.map_congr_left
  intro k hk
  have := List.mem_range.1 hk
  exact h.2 k this (by omega)

/-- The configuration of an H2F reads only the override registers its word selects (42 R162). -/
theorem resolveH2f_congr {s t : State} {p m k d e v : Bool}
    (h : SameOperands (.h2f p m k d e v) s t) :
    resolveH2f p m k d e v t = resolveH2f p m k d e v s := by
  obtain ⟨-, -, -, h2, h3, h4, h5, h6⟩ := h
  unfold resolveH2f
  rw [h2]
  congr 1
  · cases p
    · rfl
    · simp [h3 rfl]
  · cases m
    · rfl
    · simp [h4 rfl]
  · cases k
    · rfl
    · simp [h5 rfl]
  · cases d
    · rfl
    · simp [(h6 rfl).1]
  · cases d
    · rfl
    · have h7 := h6 rfl
      simp only [if_true, h7.1]
      split
      · next hl => exact dst_congr h7 hl
      · rfl

end Sys2Proof.Machine
end

