-- ==== Sys2Proof/Laws/PerInstr.lean ====
section
/-! SUPPORT. One lemma per command about its word: the three fields of format C. -/

namespace Sys2Proof.Laws.CommandWord

/-- The word of a command has a zero Z field, the command's opcode and its argument byte (30_encoding
R90, R91). -/
def Statement (i : Instr) : Prop :=
  zField (encode i) = 0 ∧ opcField (encode i) = i.opc ∧ argField (encode i) = i.arg

theorem clr : Statement .clr := by unfold Statement; decide
theorem hex2bytes : Statement .hex2bytes := by unfold Statement; decide
theorem bytes2hex : Statement .bytes2hex := by unfold Statement; decide
theorem i2osp : Statement .i2osp := by unfold Statement; decide
theorem os2ip : Statement .os2ip := by unfold Statement; decide
theorem concat0 : Statement .concat0 := by unfold Statement; decide
theorem concat1 : Statement .concat1 := by unfold Statement; decide
theorem concat2 : Statement .concat2 := by unfold Statement; decide
theorem str2bytes : Statement .str2bytes := by unfold Statement; decide
theorem xmd : Statement .xmd := by unfold Statement; decide
theorem h2f (p m k d e v : Bool) : Statement (.h2f p m k d e v) := by
  revert p m k d e v
  unfold Statement
  decide
theorem b2l : Statement .b2l := by unfold Statement; decide
theorem l2b : Statement .l2b := by unfold Statement; decide
theorem hex2byteints : Statement .hex2byteints := by unfold Statement; decide

end Sys2Proof.Laws.CommandWord
end

