-- ==== Sys2Proof/Laws/Run.lean ====
section
/-! SUPPORT. Steps of the sequencer and the engine in turn: the run of a digest chain. -/

namespace Sys2Proof.Machine

/-- The engine's turn with a request outstanding. -/
theorem step_engine {s : State} {m : List Byte} {rest : List Turn}
    (hi : s.inputs = .engine :: rest) (hr : s.rst = false) (hq : s.digestReq = some m) :
    step s = .next { s with inputs := rest, digestReq := none, digestResp := some (sha256 m) } := by
  simp only [step, hi, takeTurn, hr, Bool.false_eq_true, if_false, engineTurn, hq]

/-- The sequencer's turn in BUSY. -/
theorem step_sequencer {s : State} {i : Instr} {rest : List Turn}
    (hi : s.inputs = .sequencer :: rest) (hr : s.rst = false) (hb : s.phase = .busy)
    (hd : decodeWord s.cmdLast = some i) : step s = exec i { s with inputs := rest } := by
  simp only [step, hi, takeTurn, hr, Bool.false_eq_true, if_false, sequencerTurn, hb, hd, if_true]

/-- A run whose first step answers a next state goes on from it. -/
theorem run_succ {s t : State} (n : Nat) (h : step s = .next t) :
    Host.Core.run core (n + 1) s = Host.Core.run core n t := by
  have h' : core.step s = .next t := h
  simp only [Host.Core.run, h']

/-- One digest: the engine answers and the sequencer takes the answer. -/
theorem run_digest {s t : State} {i : Instr} {m : List Byte} {rest : List Turn}
    (hi : s.inputs = .engine :: .sequencer :: rest) (hr : s.rst = false) (hq : s.digestReq = some m)
    (hb : s.phase = .busy) (hd : decodeWord s.cmdLast = some i) (n : Nat)
    (h : exec i { s with inputs := rest, digestReq := none, digestResp := some (sha256 m) } =
      .next t) :
    Host.Core.run core (n + 2) s = Host.Core.run core n t := by
  rw [run_succ (n + 1) (step_engine hi hr hq)]
  have h2 := step_sequencer (rest := rest)
    (s := { s with inputs := .sequencer :: rest, digestReq := none, digestResp := some (sha256 m) })
    rfl hr hb hd
  exact run_succ n (h2.trans h)

/-- The engine's answer is the digest of the chain's current input. -/
theorem chainAt_answered {s : State} {msg dst : List Byte} {len : Nat} {c : Chain} {m : List Byte}
    (l : List Turn) (hA : ChainAt msg dst len c s) (hm : s.digestReq = some m) :
    ChainAt msg dst len c
      { s with inputs := l, digestReq := none, digestResp := some (sha256 m) } := by
  refine ⟨hA.dstp, hA.ell, hA.ellMax, hA.idx, hA.b0, hA.bprev, hA.blocks, .inr ⟨rfl, ?_⟩⟩
  rcases hA.pending with ⟨h1, -⟩ | ⟨h1, -⟩ <;> rw [h1] at hm <;> cases hm
  rfl

/-- A chain with `n` blocks still to come after the current one reaches its end in `n + 1` digests, and
ends with `fin` of blocks whose first `len` bytes are the expanded message. -/
theorem run_chain {i : Instr} {fin : State → List Byte → State → State}
    (hexec : ∀ s c, s.chain = some c → exec i s = .next (chainTurn c (fin s) s))
    {msg dst : List Byte} {len : Nat} (n : Nat) : ∀ (s : State) (c : Chain),
    s.rst = false → s.phase = .busy → decodeWord s.cmdLast = some i → s.chain = some c →
    ChainAt msg dst len c s → s.digestReq ≠ none → max c.ell 1 = c.idx + n →
    s.inputs = (List.replicate (n + 1) [Turn.engine, Turn.sequencer]).flatten →
    ∃ blocks c' d t, blocks.take len = xmdBytes sha256 msg dst len ∧
      t = { s with chain := some c', digestReq := none, digestResp := some d, inputs := [] } ∧
      Host.Core.run core (2 * (n + 1)) s = .next (fin t blocks t) := by
  induction n with
  | zero =>
    intro s c hrst hb hd hc hA hq hn hi
    obtain ⟨m, hm⟩ := Option.ne_none_iff_exists'.1 hq
    have hA' := chainAt_answered [] hA hm
    generalize hs' : ({ s with inputs := [], digestReq := none, digestResp := some (sha256 m) } :
      State) = s' at hA'
    have hc' : s'.chain = some c := by rw [← hs']; exact hc
    have hr' : s'.digestResp = some (sha256 m) := by rw [← hs']
    have h0 : c.idx ≠ 0 := by omega
    have h1 : ¬ c.idx < c.ell := by omega
    have he : exec i s' = .next (fin s' (c.blocks ++ sha256 m) s') := by
      rw [hexec s' c hc']
      simp only [chainTurn, hr', h0, h1, if_false]
    refine ⟨c.blocks ++ sha256 m, c, sha256 m, s', chainAt_last hA' hr' h0 h1, ?_, ?_⟩
    · rw [← hs', ← hc]
    · rw [show 2 * (0 + 1) = 0 + 2 from rfl,
        run_digest (rest := []) hi hrst hm hb hd 0 (by rw [hs']; exact he)]
      rfl
  | succ n ih =>
    intro s c hrst hb hd hc hA hq hn hi
    obtain ⟨m, hm⟩ := Option.ne_none_iff_exists'.1 hq
    have hA' := chainAt_answered (List.replicate (n + 1) [Turn.engine, Turn.sequencer]).flatten
      hA hm
    generalize hs' : ({ s with
      inputs := (List.replicate (n + 1) [Turn.engine, Turn.sequencer]).flatten
      digestReq := none, digestResp := some (sha256 m) } : State) = s' at hA'
    have hc' : s'.chain = some c := by rw [← hs']; exact hc
    have hr' : s'.digestResp = some (sha256 m) := by rw [← hs']
    have hi' : s'.inputs = (List.replicate (n + 1) [Turn.engine, Turn.sequencer]).flatten := by
      rw [← hs']
    have hb' : s'.phase = .busy := by rw [← hs']; exact hb
    have hrst' : s'.rst = false := by rw [← hs']; exact hrst
    have hd' : decodeWord s'.cmdLast = some i := by rw [← hs']; exact hd
    have hrun : ∀ t, exec i s' = .next t →
        Host.Core.run core (2 * (n + 1 + 1)) s = Host.Core.run core (2 * (n + 1)) t := fun t ht =>
      run_digest (rest := (List.replicate (n + 1) [Turn.engine, Turn.sequencer]).flatten) hi hrst hm
        hb hd (2 * (n + 1)) (by rw [hs']; exact ht)
    by_cases h0 : c.idx = 0
    · have hF := chainAt_first hA' hr' h0
      have hx : exec i s' = .next (requestDigest (firstInput (sha256 m) c.dstp)
          { s' with chain := some ⟨c.dstp, c.ell, 1, sha256 m, c.bprev, c.blocks⟩ }) := by
        rw [hexec s' c hc']
        unfold chainTurn
        simp only [hr', h0, if_true]
      obtain ⟨bl, c', d, t, hx2, hE, hr⟩ := ih (requestDigest (firstInput (sha256 m) c.dstp)
        { s' with chain := some ⟨c.dstp, c.ell, 1, sha256 m, c.bprev, c.blocks⟩ }) _
        (by exact hrst') hb' hd' rfl hF (by simp) (by dsimp only; omega) hi'
      refine ⟨bl, c', d, t, hx2, ?_, ?_⟩
      · rw [hE, ← hs']; rfl
      · rw [hrun _ hx]; exact hr
    · have h1 : c.idx < c.ell := by omega
      have hF := chainAt_next hA' hr' h0 h1
      let c2 : Chain := ⟨c.dstp, c.ell, c.idx + 1, c.b0, sha256 m, c.blocks ++ sha256 m⟩
      have hx : exec i s' = .next (requestDigest (nextInput c.b0 (sha256 m) c.dstp (c.idx + 1))
          { s' with chain := some c2 }) := by
        rw [hexec s' c hc']
        unfold chainTurn
        simp only [hr', h0, h1, if_true, if_false, c2]
      obtain ⟨bl, c', d, t, hx2, hE, hr⟩ := ih (requestDigest
        (nextInput c.b0 (sha256 m) c.dstp (c.idx + 1))
        { s' with chain := some c2 }) c2
        (by exact hrst') hb' hd' rfl hF (by simp) (by simp only [c2]; omega) hi'
      refine ⟨bl, c', d, t, hx2, ?_, ?_⟩
      · rw [hE, ← hs']; rfl
      · rw [hrun _ hx]; exact hr

end Sys2Proof.Machine
end

