-- ==== Sys2Proof/Machine/HostScript.lean ====
section
/-! DEFINITION. The host-script notation as functions that write lists of turns (30_encoding R100,
R101). It is notation, not hardware: no step reads this file. -/

namespace Sys2Proof.Machine

/-- One 32-bit write at a byte offset of the window: `WR` of a scalar register. -/
def wrWord (off : Nat) (v : Word) : Turn := .write (BitVec.ofNat 14 (off / 4)) v

/-- One 32-bit read at a byte offset of the window: `RD` of a scalar register. -/
def rdWord (off : Nat) : Turn := .read (BitVec.ofNat 14 (off / 4))

/-- Writes of `n` words of a wide value, least significant first. -/
def wrWide (base n v : Nat) : List Turn :=
  (List.range n).map fun j => wrWord (base + 4 * j) (BitVec.ofNat 32 (v / 2 ^ (32 * j)))

/-- `WR BIGX, v` (30_encoding R100). -/
def wrBigx (v : Nat) : List Turn := wrWide Config.bigxBase 32 v

/-- `WR P_OVR, v` (30_encoding R100). -/
def wrPOvr (v : Nat) : List Turn := wrWide Config.pOvrBase 12 v

/-- The window offset of entry `e` of ELEM (10_state R43). -/
def elemAddr (e : Nat) : Nat := Config.elemBase + Config.elemStride * e

/-- `WRE i, v`: twelve words, least significant first (30_encoding R100). -/
def wrElem (i v : Nat) : List Turn := wrWide (elemAddr i) 12 v

/-- Bytes packed four per word by the lanes of 20_memory R64, a trailing partial word padded with zero
bytes. -/
def packLanes : List Byte → List Word
  | [] => []
  | [a] => [0#8 ++ 0#8 ++ 0#8 ++ a]
  | [a, b] => [0#8 ++ 0#8 ++ b ++ a]
  | [a, b, c] => [0#8 ++ c ++ b ++ a]
  | a :: b :: c :: d :: bs => (d ++ c ++ b ++ a) :: packLanes bs

/-- Writes of consecutive words from a byte offset. -/
def wrWords : (off : Nat) → List Word → List Turn
  | _, [] => []
  | off, w :: ws => wrWord off w :: wrWords (off + 4) ws

/-- `WRB buf, bytes` for the buffer at `base` (30_encoding R100). -/
def wrBuf (base : Nat) (bs : List Byte) : List Turn := wrWords base (packLanes bs)

/-- `RD BIGX`, all words. -/
def rdBigx : List Turn := (List.range 32).map fun j => rdWord (Config.bigxBase + 4 * j)

/-- `RDE i`: the twelve words of an entry. -/
def rdElem (i : Nat) : List Turn := (List.range 12).map fun j => rdWord (elemAddr i + 4 * j)

/-- `RDB OUT, a, n`: the words that hold `n` bytes of OUT from index `a`. -/
def rdOut (a n : Nat) : List Turn :=
  (List.range ((a + n + 3) / 4 - a / 4)).map fun j => rdWord (Config.outBase + 4 * (a / 4 + j))

/-- `CMD` with a command's word (30_encoding R100). -/
def cmd (i : Instr) : Turn := wrWord 0x000 (encode i)

/-- `n` rounds of `WAIT`: in each the sequencer and the engine have a turn and STATUS is read. The
notation's loop ends when BUSY reads 0; how many rounds that takes the list of turns decides. -/
def waitRounds (n : Nat) : List Turn :=
  (List.replicate n [Turn.sequencer, Turn.engine, rdWord 0x004]).flatten

/-- `LOADMSG bytes` (30_encoding R101). -/
def loadMsg (bs : List Byte) : List Turn :=
  wrBuf Config.msgBase bs ++ [wrWord 0x018 (BitVec.ofNat 32 bs.length)]

/-- `LOADDST bytes` (30_encoding R101). -/
def loadDst (bs : List Byte) : List Turn :=
  wrBuf Config.dstbBase bs ++ [wrWord 0x01C (BitVec.ofNat 32 bs.length)]

/-- The bytes of a text's code points, valid below 256, as `LOADMSG "text"` takes them (30_encoding
R101). -/
def textBytes (text : String) : List Byte := text.toList.map fun c => BitVec.ofNat 8 c.toNat

/-- Writes of consecutive ELEM entries. -/
def wrElems : (i : Nat) → List Nat → List Turn
  | _, [] => []
  | i, v :: vs => wrElem i v ++ wrElems (i + 1) vs

/-- `LOADLIMBS [v0, …]` (30_encoding R101). -/
def loadLimbs (vs : List Nat) : List Turn :=
  wrElems 0 vs ++ [wrWord 0x03C (BitVec.ofNat 32 vs.length)]

/-- `RUN` of a command with `n` rounds of `WAIT` (30_encoding R101). -/
def runCmd (i : Instr) (n : Nat) : List Turn := cmd i :: waitRounds n

end Sys2Proof.Machine
end

