-- ==== Sys2Proof/Tests/Slice0.lean ====
section
/-! SUPPORT. Tests: words written out from the spec's encodings, the spec's vectors (95_test_vectors)
one step at a time, and a witness for the hypotheses of every statement. -/

namespace Sys2Proof.Tests

-- One theorem at a time: side by side, the kernel evaluations below need more threads than the
-- checker's memory limit leaves room for.
set_option Elab.async false

open Sys2Proof Sys2Proof.Machine

/-! ## States to test on -/

/-- The conventional instance constants of 00_scope R11, with the default capacities. -/
def cfg : Config.Params where
  pDefault := 0x1a0111ea397fe69a4b1ba7b6434bacd764774b84f38512bf6730d2a0f6b0f6241eabfffeb153ffffb9feffffffffaaab
  dstDefault :=
    [0x42, 0x4c, 0x53, 0x5f, 0x53, 0x49, 0x47, 0x5f, 0x42, 0x4c, 0x53, 0x31, 0x32, 0x33, 0x38,
     0x31, 0x47, 0x32, 0x5f, 0x58, 0x4d, 0x44, 0x3a, 0x53, 0x48, 0x41, 0x2d, 0x32, 0x35, 0x36,
     0x5f, 0x53, 0x53, 0x57, 0x55, 0x5f, 0x52, 0x4f, 0x5f, 0x50, 0x4f, 0x50, 0x5f]
  digestPresent := true
  caps := Config.defaultCaps

/-- An idle state of that instance with its wide registers 0. -/
def st : State := { State.resetWith cfg 0 with bigx := 0, pOvr := 0 }

/-- A state without a digest engine. -/
def stNoDigest : State := { st with cfg := { cfg with digestPresent := false } }

/-- `LOADMSG`, taken at once. -/
def withMsg (bs : List Byte) (s : State) : State :=
  { s with msgMem := cellsFrom 0 bs, msgLen := BitVec.ofNat 32 bs.length }

/-- `LOADDST`, taken at once. -/
def withTag (bs : List Byte) (s : State) : State :=
  { s with dstMem := cellsFrom 0 bs, dstLen := BitVec.ofNat 32 bs.length }

/-- `LOADLIMBS`, taken at once. -/
def withElems (vs : List Nat) (s : State) : State :=
  { s with elemMem := cellsFrom 0 vs, elemCnt := BitVec.ofNat 32 vs.length }

/-- The state in which command `i` is running and the sequencer has the next turn. -/
def busy (i : Instr) (s : State) : State :=
  { s with phase := .busy, cmdLast := encode i, inputs := [.sequencer] }

/-- What one step from a state with command `i` running leaves, as a test of the next state. -/
def after (i : Instr) (s : State) (test : State → Bool) : Bool :=
  match step (busy i s) with
  | .next t => test t
  | .fault _ => false
  | .refused _ => false

/-- DONE with this byte sequence in OUT. -/
def doneOut (bs : List Byte) (t : State) : Bool :=
  decide (t.phase = .done) && decide (t.outLen.toNat = bs.length) && decide (t.out = bs)

/-- DONE with these integers in ELEM. -/
def doneElems (vs : List Nat) (t : State) : Bool :=
  decide (t.phase = .done) && decide (t.elemCnt.toNat = vs.length) && decide (t.elems = vs)

/-- DONE with this integer in BIGX. -/
def doneBigx (v : Nat) (t : State) : Bool :=
  decide (t.phase = .done) && decide (t.bigx = v)

/-- ERR with this code and detail. -/
def errIs (code : BitVec 4) (info : Word) (t : State) : Bool :=
  decide (t.phase = .err) && decide (t.errCode = code) && decide (t.errInfo = info)

/-! ## WellFormed: the ill-formed selector pairs are refused (30_encoding R95) -/

theorem test_wellformed_refuses_expand_val_without_override :
    (Instr.h2f false false false false false true).wf = false ∧
      h2fSelectorsWf false true = false := by decide

theorem test_wellformed_admits_other_selector_pairs :
    h2fSelectorsWf false false = true ∧ h2fSelectorsWf true false = true ∧
      h2fSelectorsWf true true = true := by decide

/-! ## Decode: Z, ARG and OPC written out bit by bit (30_encoding R90, R91, R98) -/

theorem test_decode_clr :
    decodeTableWord 32 0b00000000000000000000000000000001 = some .clr := by decide

theorem test_decode_hex2bytes :
    decodeTableWord 32 0b00000000000000000000000000010000 = some .hex2bytes := by decide

theorem test_decode_bytes2hex :
    decodeTableWord 32 0b00000000000000000000000000010001 = some .bytes2hex := by decide

theorem test_decode_i2osp :
    decodeTableWord 32 0b00000000000000000000000000010010 = some .i2osp := by decide

theorem test_decode_os2ip :
    decodeTableWord 32 0b00000000000000000000000000010011 = some .os2ip := by decide

theorem test_decode_concat0 :
    decodeTableWord 32 0b00000000000000000000000000010100 = some .concat0 := by decide

theorem test_decode_concat1 :
    decodeTableWord 32 0b00000000000000000000000100010100 = some .concat1 := by decide

theorem test_decode_concat2 :
    decodeTableWord 32 0b00000000000000000000001000010100 = some .concat2 := by decide

theorem test_decode_str2bytes :
    decodeTableWord 32 0b00000000000000000000000000010101 = some .str2bytes := by decide

theorem test_decode_xmd :
    decodeTableWord 32 0b00000000000000000000000000100000 = some .xmd := by decide

theorem test_decode_b2l :
    decodeTableWord 32 0b00000000000000000000000001000000 = some .b2l := by decide

theorem test_decode_l2b :
    decodeTableWord 32 0b00000000000000000000000001000001 = some .l2b := by decide

theorem test_decode_hex2byteints :
    decodeTableWord 32 0b00000000000000000000000001000010 = some .hex2byteints := by decide

/-- Bits 13:8 are EXPAND_VAL, OVR_EXPAND, OVR_DST, OVR_K, OVR_M, OVR_P (30_encoding R95). -/
theorem test_decode_h2f :
    decodeTableWord 32 0b00000000000000000000000000110000 =
      some (.h2f false false false false false false) ∧
    decodeTableWord 32 0b00000000000000000000000100110000 =
      some (.h2f true false false false false false) ∧
    decodeTableWord 32 0b00000000000000000000001000110000 =
      some (.h2f false true false false false false) ∧
    decodeTableWord 32 0b00000000000000000000010000110000 =
      some (.h2f false false true false false false) ∧
    decodeTableWord 32 0b00000000000000000000100000110000 =
      some (.h2f false false false true false false) ∧
    decodeTableWord 32 0b00000000000000000001000000110000 =
      some (.h2f false false false false true false) ∧
    decodeTableWord 32 0b00000000000000000011000000110000 =
      some (.h2f false false false false true true) := by decide

/-- V50 to V55: words that are illegal. -/
theorem test_decode_illegal :
    decodeWord 0x00000000 = none ∧ decodeWord 0xFFFFFFFF = none ∧ decodeWord 0x00010012 = none ∧
    decodeWord 0x00000112 = none ∧ decodeWord 0x00000314 = none ∧ decodeWord 0x00004030 = none ∧
    decodeWord 0x00002030 = none ∧ decodeWord 0x00000002 = none := by decide

/-- Each row's word placed with `withFetchWord` runs at the very next step after reset. -/
theorem test_fetch_word_runs :
    [0x01, 0x10, 0x11, 0x12, 0x13, 0x14, 0x114, 0x214, 0x15, 0x20, 0x30, 0x40, 0x41, 0x42].all
      (fun w => match step (State.reset.withFetchWord 32 w) with
        | .next _ => true
        | .fault _ => false
        | .refused _ => false) = true := by decide

/-! ## Witnesses: states and operands that meet the hypotheses of each statement -/

/-- The default capacities are as the spec requires (00_scope R12, 92_eei_decisions D6). -/
theorem capsOk_default : CapsOk Config.defaultCaps := by constructor <;> decide

/-- Capacities other than the default that are as the spec requires. -/
def largeCaps : Config.Capacities := ⟨65536, 65536, 1024, 521, 544, 128, 32, 4096⟩

theorem capsOk_large : CapsOk largeCaps := by constructor <;> decide

/-- The instance of `State.reset` with a digest engine. -/
def legal : State := State.resetWith { Config.instanceParams with digestPresent := true } 0

theorem legal_params : legal.ParamsOk where
  prime := (@Config.defaultModulus ⟨Config.leastDefaultModulus⟩).prime
  modulus := bitlen_of_range (@Config.defaultModulus ⟨Config.leastDefaultModulus⟩).low
    (@Config.defaultModulus ⟨Config.leastDefaultModulus⟩).high
  tag := List.length_take_le _ _
  caps := capsOk_default

theorem legal_inv : legal.Inv := resetWith_inv _ 0 false [] 0 legal_params

/-- A message of `n` equal bytes. -/
def withByteMsg (n : Nat) (b : Byte) (s : State) : State := withMsg (List.replicate n b) s

theorem withByteMsg_len (n : Nat) (b : Byte) (s : State) (h : n < 2 ^ 32) :
    (withByteMsg n b s).msgLen.toNat = n := by
  simp only [withByteMsg, withMsg, List.length_replicate, BitVec.toNat_ofNat]
  omega

theorem withByteMsg_byte (n : Nat) (b : Byte) (s : State) (k : Nat) (hk : k < n) :
    (withByteMsg n b s).msgByte k = b := by
  have h := msgByte_of_cells (s := withByteMsg n b s) (bs := List.replicate n b) rfl
    (k := k) (by simpa using hk)
  rw [h, List.getElem_replicate]

/-- The number of entries of ELEM just loaded. -/
theorem withElems_cnt (vs : List Nat) (s : State) (h : vs.length < 2 ^ 32) :
    (withElems vs s).elemCnt.toNat = vs.length := by
  simp only [withElems, BitVec.toNat_ofNat]
  omega

/-- The entries of ELEM just loaded. -/
theorem withElems_elem (vs : List Nat) (s : State) (k : Nat) (hk : k < vs.length) :
    (withElems vs s).elem k = vs[k] := elem_of_cells rfl hk

theorem witness_DecodeAndEncodeAgree :
    decodeWord 0x00003F30 = some (.h2f true true true true true true) ∧
      (Instr.h2f true true true true true true).wf = true := by decide

theorem witness_StepRunsTheDecodedCommand :
    (∃ (s : State) (rest : List Turn) (i : Instr), s.rst = false ∧
      s.inputs = .sequencer :: rest ∧ s.phase = .busy ∧ decodeWord s.cmdLast = some i) ∧
    (∃ s : State, ∃ rest, s.rst = false ∧ s.inputs = .write 0 0x00000001 :: rest ∧
      s.phase ≠ .busy) ∧
    (∃ s : State, ∃ rest a v, s.rst = false ∧ s.inputs = .write a v :: rest ∧ a ≠ 0) ∧
    (∃ s : State, ∃ rest a, s.inputs = .read a :: rest) ∧
    (∃ s : State, ∃ rest, s.rst = false ∧ s.inputs = .engine :: rest) ∧
    (∃ s : State, ∃ rest, s.inputs = .reset :: rest) ∧
    (∃ s : State, ∃ rest, s.inputs = .release :: rest) ∧
    (∃ s : State, ∃ rest, s.inputs = .sequencer :: rest ∧ s.phase ≠ .busy) ∧
    (∃ s : State, s.inputs = []) :=
  ⟨⟨busy .xmd st, [], .xmd, rfl, rfl, rfl, by decide⟩,
    ⟨{ st with inputs := [.write 0 1] }, [], rfl, rfl, by decide⟩,
    ⟨{ st with inputs := [.write 0x3FFF 7] }, [], 0x3FFF, 7, rfl, rfl, by decide⟩,
    ⟨{ st with inputs := [.read 0] }, [], 0, rfl⟩,
    ⟨{ st with inputs := [.engine] }, [], rfl, rfl⟩,
    ⟨{ st with inputs := [.reset] }, [], rfl⟩, ⟨{ st with inputs := [.release] }, [], rfl⟩,
    ⟨{ st with inputs := [.sequencer] }, [], rfl, by decide⟩, ⟨st, rfl⟩⟩

/-- A unit held in reset, with these turns to come. -/
def held (l : List Turn) : State := { resetTurn st with inputs := l }

theorem held_atReset (l : List Turn) : AtReset (held l) :=
  (atReset_resetWith _ _).congr ⟨_, _, _, _, rfl⟩

/-- The assertion while BUSY; a CMD write, an IE write, a turn of the sequencer and of the engine, a read
and the release, each while `rst` is asserted; and a release without an assertion. -/
theorem witness_ResetLeavesStatedValues :
    (∃ s : State, ∃ rest, s.inputs = .reset :: rest ∧ s.phase = .busy) ∧
    (∀ e ∈ [Turn.write 0 0x20, .write 4 3, .sequencer, .engine, .read 4, .release],
      ∃ s : State, s.rst = true ∧ AtReset s ∧ s.inputs = [e] ∧ ∃ t, step s = .next t) ∧
    (∃ s : State, s.rst = false ∧ s.inputs = [.release]) := by
  refine ⟨⟨{ busy .xmd st with inputs := [.reset] }, [], rfl, rfl⟩,
    fun e he => ⟨held [e], rfl, held_atReset _, rfl, ?_⟩, ⟨{ st with inputs := [.release] }, rfl, rfl⟩⟩
  cases e <;> exact ⟨_, rfl⟩

/-- A host write of CMD and of IE while `rst` is asserted has no effect; after the release CMD is taken
(70_reset R260). -/
theorem test_write_in_reset :
    step (held [.write 0 0x20]) = .next (held []) ∧ step (held [.write 4 3]) = .next (held []) ∧
    ((match step (held [.release, .write 0 0x20]) with
      | .next t => match step t with
        | .next u => decide (u.phase = .busy) && !u.rst
        | _ => false
      | _ => false) = true) := ⟨rfl, rfl, rfl⟩

theorem witness_CmdWriteIsHandledByPhase :
    (∃ s : State, ∃ w rest, s.rst = false ∧ s.inputs = .write 0 w :: rest ∧ s.phase = .busy) ∧
    (∃ s : State, ∃ w rest, s.rst = false ∧ s.inputs = .write 0 w :: rest ∧ s.phase = .err ∧
      w ≠ 0x00000001) ∧
    (∃ s : State, ∃ w rest, s.rst = false ∧ s.inputs = .write 0 w :: rest ∧
      (s.phase = .idle ∨ s.phase = .done) ∧ decodeWord w = none) ∧
    (∃ s : State, ∃ w rest, s.rst = false ∧ s.inputs = .write 0 w :: rest ∧ s.phase ≠ .busy ∧
      w = 0x00000001) ∧
    (∃ s : State, ∃ w rest i, s.rst = false ∧ s.inputs = .write 0 w :: rest ∧
      (s.phase = .idle ∨ s.phase = .done) ∧ decodeWord w = some i ∧ i ≠ .clr) :=
  ⟨⟨{ busy .xmd st with inputs := [.write 0 1] }, 1, [], rfl, rfl, rfl⟩,
    ⟨{ st with phase := .err, inputs := [.write 0 2] }, 2, [], rfl, rfl, rfl, by decide⟩,
    ⟨{ st with inputs := [.write 0 0] }, 0, [], rfl, rfl, .inl rfl, by decide⟩,
    ⟨{ st with phase := .err, inputs := [.write 0 1] }, 1, [], rfl, rfl, by decide, rfl⟩,
    ⟨{ st with phase := .done, inputs := [.write 0 0x3F30] }, 0x3F30, [],
      .h2f true true true true true true, rfl, rfl, .inr rfl, by decide, by decide⟩⟩

theorem witness_ClrClearsStatusOnly :
    (∃ s : State, ∃ rest, s.rst = false ∧ s.inputs = .write 0 0x00000001 :: rest ∧
      s.phase ≠ .busy) ∧
    (∃ s : State, ∃ rest, s.rst = false ∧ s.inputs = .write 0 0x00000001 :: rest ∧
      s.phase = .busy) :=
  ⟨⟨{ st with phase := .err, inputs := [.write 0 1] }, [], rfl, rfl, by decide⟩,
    ⟨{ busy .xmd st with inputs := [.write 0 1] }, [], rfl, rfl, rfl⟩⟩

/-- An idle state that meets PhaseOk whatever turns are to come. -/
theorem phaseOk_idle (l : List Turn) : State.PhaseOk { st with inputs := l } :=
  ⟨fun h => (by cases h), fun _ => ⟨rfl, rfl, rfl⟩⟩

/-- A state in ERR that meets PhaseOk. -/
theorem phaseOk_err (l : List Turn) : State.PhaseOk { st with phase := .err, inputs := l } :=
  ⟨fun h => (by cases h), fun _ => ⟨rfl, rfl, rfl⟩⟩

/-- A running command that meets PhaseOk. -/
theorem phaseOk_busy (l : List Turn) : State.PhaseOk { busy .hex2bytes st with inputs := l } :=
  ⟨fun _ => ⟨.hex2bytes, (by decide : decodeWord (encode .hex2bytes) = some .hex2bytes),
    by decide, fun _ => rfl, fun _ => rfl⟩,
    fun h => absurd rfl h⟩

theorem witness_PhaseChangesOnlyAsTabled :
    (∃ s t : State, s.PhaseOk ∧ s.ResetOk ∧ step s = .next t ∧ s.phase = .idle ∧ t.phase = .busy) ∧
    (∃ s t : State, s.PhaseOk ∧ s.ResetOk ∧ step s = .next t ∧ s.phase = .idle ∧ t.phase = .err) ∧
    (∃ s t : State, s.PhaseOk ∧ s.ResetOk ∧ step s = .next t ∧ s.phase = .err ∧ t.phase = .idle) ∧
    (∃ s t : State, s.PhaseOk ∧ s.ResetOk ∧ step s = .next t ∧ s.phase = .busy ∧ t.phase = .done) ∧
    (∃ s t : State, s.PhaseOk ∧ s.ResetOk ∧ step s = .next t ∧ s.phase = .busy ∧ t.phase = .idle) :=
  ⟨⟨_, _, phaseOk_idle [.write 0 0x10], .of_false rfl, rfl, rfl, rfl⟩,
    ⟨_, _, phaseOk_idle [.write 0 0], .of_false rfl, rfl, rfl, rfl⟩,
    ⟨_, _, phaseOk_err [.write 0 1], .of_false rfl, rfl, rfl, rfl⟩,
    ⟨_, _, phaseOk_busy [.sequencer], .of_false rfl, rfl, rfl, rfl⟩,
    ⟨_, _, phaseOk_busy [.reset], .of_false rfl, rfl, rfl, rfl⟩⟩

theorem witness_ErrIsLeftOnlyByClrOrReset :
    (∃ s t : State, s.ResetOk ∧ s.phase = .err ∧ step s = .next t ∧ t.phase = .err) ∧
    (∃ s t : State, s.ResetOk ∧ s.phase = .err ∧ step s = .next t ∧ t.phase = .idle) :=
  ⟨⟨{ st with phase := .err, inputs := [.write 0 0x10] }, _, .of_false rfl, rfl, rfl, rfl⟩,
    ⟨{ st with phase := .err, inputs := [.write 0 1] }, _, .of_false rfl, rfl, rfl, rfl⟩⟩

theorem witness_OvrIsSticky :
    (∃ s t : State, s.PhaseOk ∧ s.ResetOk ∧ step s = .next t ∧ s.ovr = false ∧ t.ovr = true) ∧
    (∃ s t : State, s.PhaseOk ∧ s.ResetOk ∧ step s = .next t ∧ s.ovr = true ∧ t.ovr = false) :=
  ⟨⟨_, _, phaseOk_busy [.write 0 1], .of_false rfl, rfl, rfl, rfl⟩,
    ⟨{ st with ovr := true, inputs := [.write 0 1] }, _,
      ⟨fun h => (by cases h), fun _ => ⟨rfl, rfl, rfl⟩⟩, .of_false rfl, rfl, rfl, rfl⟩⟩

theorem witness_InstanceConstantsNeverChange :
    ∃ s t : State, step s = .next t := ⟨{ st with inputs := [.reset] }, _, rfl⟩

theorem witness_CommandsKeepTheirOperands :
    ∃ (i : Instr) (s t : State), i ≠ .clr ∧ exec i s = .next t :=
  ⟨.concat0, st, _, by decide, rfl⟩

theorem witness_BusyIgnoresHostWrites :
    ∃ (s : State) (a : PortAddr) (v : Word) (rest : List Turn),
      s.rst = false ∧ s.phase = .busy ∧ s.inputs = .write a v :: rest :=
  ⟨{ busy .xmd st with inputs := [.write 4 3] }, 4, 3, [], rfl, rfl, rfl⟩

/-- A read outside BUSY, one of MSG while XMD runs, and one of BIGX while XMD runs. -/
theorem witness_HostReadsHaveNoSideEffect :
    (∃ (s : State) (a : PortAddr) (rest : List Turn), s.inputs = .read a :: rest ∧
      s.phase ≠ .busy) ∧
    (∀ a ∈ [(0x400 : PortAddr), 0x40], ∃ (s : State) (rest : List Turn),
      s.inputs = .read a :: rest ∧ s.phase = .busy ∧
      ∀ i, s.phase = .busy → decodeWord s.cmdLast = some i →
        (0x3000 ≤ 4 * a.toNat → 4 * a.toNat < 0x5000 →
          4 * a.toNat - 0x3000 < s.cfg.caps.outMax → targetsOut i = false) ∧
        (0x8000 ≤ 4 * a.toNat → 4 * a.toNat < 0xC000 →
          (4 * a.toNat - 0x8000) / 64 < s.cfg.caps.elemMax →
          32 * (4 * a.toNat % 64 / 4) < s.cfg.caps.ew → targetsElem i = false) ∧
        (0x100 ≤ 4 * a.toNat → 4 * a.toNat < 0x180 → i ≠ .os2ip ∧ i ≠ .l2b)) := by
  refine ⟨⟨{ st with inputs := [.read 0x3FFF] }, 0x3FFF, [], rfl, by decide⟩, fun a ha =>
    ⟨{ busy .xmd st with inputs := [.read a] }, [], rfl, rfl, fun i _ h => ?_⟩⟩
  have : decodeWord (busy .xmd st).cmdLast = some .xmd := by decide
  rw [show decodeWord (busy .xmd st).cmdLast = some i from h] at this
  cases this
  simp only [List.mem_cons, List.not_mem_nil, or_false] at ha
  rcases ha with rfl | rfl <;> decide

/-- H2F with the default configuration. -/
def h2f0 : Instr := .h2f false false false false false false

theorem decode_h2f0 : decodeWord (encode h2f0) = some h2f0 := by decide

/-- A running H2F, which zeroed both lengths, meets PhaseOk. -/
theorem phaseOk_busy_h2f (l : List Turn) :
    State.PhaseOk { busy h2f0 st with inputs := l } :=
  ⟨fun _ => ⟨h2f0, decode_h2f0, by decide, fun _ => rfl, fun _ => rfl⟩, fun h => absurd rfl h⟩

theorem witness_BusyLengthsReadZero :
    ∃ i : Instr, targetsOut i = true ∧ targetsElem i = true ∧
      ∀ l ∈ [[Turn.read 14], [Turn.read 15], [Turn.read 1]], ∃ s : State, s.PhaseOk ∧
        s.phase = .busy ∧ decodeWord s.cmdLast = some i ∧ s.inputs = l :=
  ⟨h2f0, rfl, rfl, fun l _ => ⟨_, phaseOk_busy_h2f l, rfl, decode_h2f0, rfl⟩⟩

theorem witness_ScalarRegistersReadBack :
    (∃ s : State, s.phase ≠ .busy) ∧
    ∀ a : PortAddr, a.toNat < 16 → ∃ (s : State) (rest : List Turn), s.inputs = .read a :: rest ∧
      s.phase = .busy :=
  ⟨⟨st, by decide⟩, fun a _ => ⟨{ busy .xmd st with inputs := [.read a] }, [], rfl, rfl⟩⟩

theorem st_widths : st.WidthsOk := ⟨Nat.two_pow_pos _, Nat.two_pow_pos _⟩

/-- The last words of the registers at the default widths, and a word cut by a width of 521 bits. -/
theorem witness_WideRegisterWordsReadBack :
    (∃ s : State, s.phase ≠ .busy ∧ s.WidthsOk ∧ (∃ j k, j < 32 ∧ k < 32 ∧ j = 31 ∧ k = 0 ∧ k ≠ j ∧
        32 * j + 32 ≤ s.cfg.caps.xw) ∧
      ∃ j k, j < 12 ∧ k < 12 ∧ j = 11 ∧ k = 0 ∧ k ≠ j ∧ 32 * j + 32 ≤ s.cfg.caps.pw) ∧
    ∃ s : State, s.phase ≠ .busy ∧ s.WidthsOk ∧ (∃ j, j < 32 ∧ s.cfg.caps.xw < 32 * j + 32) ∧
      ∃ j, j < 12 ∧ s.cfg.caps.pw < 32 * j + 32 :=
  ⟨⟨st, by decide, st_widths, ⟨31, 0, by decide⟩, ⟨11, 0, by decide⟩⟩,
    ⟨{ st with cfg := { cfg with caps := { largeCaps with xw := 1000, pw := 381 } } }, by decide,
      ⟨Nat.two_pow_pos _, Nat.two_pow_pos _⟩, ⟨31, by decide⟩, ⟨11, by decide⟩⟩⟩

/-- The first and the last word of MSG, of DSTB and of ELEM. -/
theorem witness_StorageLanesReadBack :
    ∃ s : State, s.phase ≠ .busy ∧ (∀ off ∈ [0x1000, 0x2FFC], off % 4 = 0 ∧ 0x1000 ≤ off ∧
      off < 0x3000) ∧
      (∀ off ∈ [0x200, 0x2FC], off % 4 = 0 ∧ 0x200 ≤ off ∧ off < 0x300) ∧
      (∀ off ∈ [0x8000, 0xBFFC], off % 4 = 0 ∧ 0x8000 ≤ off ∧ off < 0xC000) ∧
      ∀ e, s.elem e < 2 ^ s.cfg.caps.ew :=
  ⟨st, by decide, by decide, by decide, by decide, elem_lt (s := st) (by simp [st, State.resetWith])⟩

theorem witness_StorageReadImages :
    (∀ off ∈ [0x1000, 0x2FFC], off % 4 = 0 ∧ 0x1000 ≤ off ∧ off < 0x3000) ∧
    (∀ off ∈ [0x3000, 0x4FFC], off % 4 = 0 ∧ 0x3000 ≤ off ∧ off < 0x5000) ∧
    (∀ off ∈ [0x200, 0x2FC], off % 4 = 0 ∧ 0x200 ≤ off ∧ off < 0x300) ∧
    (∀ off ∈ [0x8000, 0xBFFC], off % 4 = 0 ∧ 0x8000 ≤ off ∧ off < 0xC000) ∧ (3 : Nat) < 4 := by decide

theorem witness_UnmappedAndReadOnlyOffsets :
    (∀ off ∈ [0x40, 0xFC, 0x1B0, 0x1FC, 0x300, 0xFFC, 0x5000, 0x7FFC, 0xC000, 0xFFFC],
      off % 4 = 0 ∧ ((0x40 ≤ off ∧ off < 0x100) ∨ (0x1B0 ≤ off ∧ off < 0x200) ∨
        (0x300 ≤ off ∧ off < 0x1000) ∨ (0x5000 ≤ off ∧ off < 0x8000) ∨
        (0xC000 ≤ off ∧ off < 0x10000))) ∧
    (∀ off ∈ [0x3000, 0x4FFC], off % 4 = 0 ∧ 0x3000 ≤ off ∧ off < 0x5000) ∧
    (∀ off ∈ [0x8030, 0xBFFC], off % 4 = 0 ∧ (0x8000 ≤ off ∧ off < 0xC000) ∧ 48 ≤ off % 64 ∧
      st.cfg.caps = Config.defaultCaps ∧
      (st.cfg.caps.ew ≤ 32 * (off % 64 / 4) ∨ st.cfg.caps.elemMax ≤ (off - 0x8000) / 64)) ∧
    ∃ s : State, s.cfg.caps.elemMax ≤ (0xBFC0 - 0x8000) / 64 := by
  refine ⟨by decide, by decide, by decide, ?_⟩
  exact ⟨{ st with cfg := { cfg with caps := { largeCaps with elemMax := 255 } } }, by decide⟩

theorem witness_IrqFollowsStatusAndEnables :
    irq { st with phase := .done, ie := 1 } = true ∧ irq { st with phase := .err, ie := 2 } = true ∧
      irq { st with phase := .done, ie := 2 } = false := by decide

theorem witness_ErrorCodesAndDetails : (2 ^ 32 - 1 : Nat) < 2 ^ 32 := by decide

/-- I2OSP of 1 into no bytes fails (V15b). -/
theorem i2osp_fails : exec .i2osp (busy .i2osp { st with bigx := 1 }) =
    .next (failCommand .i2osp .integerRangeValue (busy .i2osp { st with bigx := 1 })) := by
  show Host.Outcome.next (runI2osp _) = _
  unfold runI2osp i2osp
  rw [if_neg (by decide), if_pos (by decide)]
  rfl

theorem witness_FailingCommandWritesNothing :
    ∃ (i : Instr) (s t : State), s.phase = .busy ∧ exec i s = .next t ∧ t.phase = .err :=
  ⟨.i2osp, busy .i2osp { st with bigx := 1 }, _, rfl, i2osp_fails, rfl⟩

theorem witness_CommandsRaiseOnlyTabledErrors :
    ∃ (i : Instr) (s t : State), s.phase = .busy ∧ exec i s = .next t ∧ t.phase = .err :=
  ⟨.i2osp, busy .i2osp { st with bigx := 1 }, _, rfl, i2osp_fails, rfl⟩

theorem witness_RetryReproducesTheError :
    ∃ (i : Instr) (w : Word) (s t t1 t2 : State), i ≠ .clr ∧ s.phase = .busy ∧ s.chain = none ∧
      exec i s = .next t ∧ t.phase = .err ∧ exec .clr t = .next t1 ∧
      exec i (accept i w t1) = .next t2 :=
  ⟨.i2osp, encode .i2osp, _, _, _, _, by decide, rfl, rfl, i2osp_fails, rfl, rfl, rfl⟩

/-- Two states that differ in LIMB_K, which L2B does not read. -/
theorem witness_ResultsDependOnOperandsAlone :
    ∃ (i : Instr) (s s' t t' : State), s.cfg.caps.kMax ≤ s.cfg.caps.elemMax ∧
      SameOperands i s s' ∧ s ≠ s' ∧ s.phase = .busy ∧ s'.phase = .busy ∧ s.chain = none ∧
        s'.chain = none ∧ exec i s = .next t ∧
      exec i s' = .next t' :=
  ⟨.l2b, busy .l2b { st with limbN := 8, elemCnt := 1 },
    busy .l2b { st with limbN := 8, elemCnt := 1, limbK := 9 }, _, _,
    capsOk_default.limbs, ⟨rfl, rfl, rfl, fun _ _ _ => rfl⟩, fun h => by
      have := congrArg State.limbK h
      revert this
      decide, rfl, rfl, rfl, rfl, rfl, rfl⟩

/-- The first and the last code of each range of digits, and codes beside them. -/
theorem witness_HexDigitCodes :
    (∀ c ∈ [0x30#8, 0x39#8], 0x30 ≤ c.toNat ∧ c.toNat ≤ 0x39 ∧ hexDigit? c ≠ none) ∧
    (∀ c ∈ [0x61#8, 0x66#8], 0x61 ≤ c.toNat ∧ c.toNat ≤ 0x66 ∧ hexDigit? c ≠ none) ∧
    (∀ c ∈ [0x41#8, 0x46#8], 0x41 ≤ c.toNat ∧ c.toNat ≤ 0x46 ∧ hexDigit? c ≠ none) ∧
    (∀ c ∈ [0x2F#8, 0x3A#8, 0x40#8, 0x47#8, 0x60#8, 0x67#8], hexDigit? c = none) ∧
    hexChar 9 = 0x39 ∧ hexChar 10 = 0x61 ∧ hexChar 15 = 0x66 := by decide

/-- The longest message and the empty one. -/
theorem witness_Hex2bytesDecodesPairs : ∀ n ∈ [0, 8192], ∃ s : State, s.msgLen.toNat = n ∧
    s.msgLen.toNat ≤ s.cfg.caps.msgMax ∧ s.msgLen.toNat % 2 = 0 ∧
    ∀ k, k < s.msgLen.toNat → hexDigit? (s.msgByte k) ≠ none := by
  intro n hn
  have h1 : n ≤ 8192 ∧ n % 2 = 0 := by
    simp only [List.mem_cons, List.not_mem_nil, or_false] at hn
    omega
  refine ⟨withByteMsg n 0x30 st, withByteMsg_len _ _ _ (by omega), ?_, ?_, fun k hk => ?_⟩
  · rw [withByteMsg_len _ _ _ (by omega)]; exact h1.1
  · rw [withByteMsg_len _ _ _ (by omega)]; exact h1.2
  · rw [withByteMsg_len _ _ _ (by omega)] at hk
    rw [withByteMsg_byte _ _ _ _ hk]
    decide

theorem witness_HexCommandsFailInOrder :
    (∃ s : State, s.cfg.caps.msgMax < s.msgLen.toNat) ∧
    (∃ s : State, s.msgLen.toNat ≤ s.cfg.caps.msgMax ∧ s.cfg.caps.elemMax < s.msgLen.toNat / 2) ∧
    (∃ s : State, s.msgLen.toNat ≤ s.cfg.caps.msgMax ∧ s.msgLen.toNat % 2 = 1 ∧
      s.msgLen.toNat / 2 ≤ s.cfg.caps.elemMax) ∧
    (∃ (s : State) (k : Nat), s.msgLen.toNat ≤ s.cfg.caps.msgMax ∧ s.msgLen.toNat % 2 = 0 ∧
      k < s.msgLen.toNat ∧ hexDigit? (s.msgByte k) = none ∧
      (∀ j, j < k → hexDigit? (s.msgByte j) ≠ none) ∧ s.msgLen.toNat / 2 ≤ s.cfg.caps.elemMax) :=
  ⟨⟨{ st with msgLen := 8193 }, by decide⟩, ⟨{ st with msgLen := 514 }, by decide⟩,
    ⟨{ st with msgLen := 513 }, by decide⟩, ⟨withMsg [0x30, 0x67] st, 1, by decide⟩⟩

theorem witness_Bytes2hexEncodesNibbles :
    (∃ s : State, s.msgLen.toNat ≤ s.cfg.caps.msgMax ∧ 2 * s.msgLen.toNat = s.cfg.caps.outMax ∧
      2 * s.msgLen.toNat < 2 ^ 32) ∧ (∃ s : State, s.cfg.caps.msgMax < s.msgLen.toNat) ∧
    (∃ s : State, s.msgLen.toNat ≤ s.cfg.caps.msgMax ∧ s.cfg.caps.outMax < 2 * s.msgLen.toNat) :=
  ⟨⟨{ st with msgLen := 4096 }, by decide⟩, ⟨{ st with msgLen := 8193 }, by decide⟩,
    ⟨{ st with msgLen := 4097 }, by decide⟩⟩

theorem witness_I2ospWritesBigEndianBytes :
    (∃ s : State, s.lenArg.toNat = 0 ∧ s.bigx < 2 ^ (8 * s.lenArg.toNat)) ∧
    (∃ s : State, s.lenArg.toNat ≤ s.cfg.caps.outMax ∧ s.bigx = 255 ∧
      s.bigx < 2 ^ (8 * s.lenArg.toNat)) ∧
    (∃ s : State, s.cfg.caps.outMax < s.lenArg.toNat) ∧
    (∃ s : State, s.lenArg.toNat ≤ s.cfg.caps.outMax ∧ 2 ^ (8 * s.lenArg.toNat) ≤ s.bigx) :=
  ⟨⟨st, by decide +kernel⟩, ⟨{ st with bigx := 255, lenArg := 1 }, by decide +kernel⟩,
    ⟨{ st with lenArg := 8193 }, by decide⟩,
    ⟨{ st with bigx := 256, lenArg := 1 }, by decide +kernel⟩⟩

theorem witness_Os2ipReadsBigEndianInteger :
    (∃ s : State, s.msgLen.toNat ≤ s.cfg.caps.msgMax ∧ s.msgLen.toNat ≤ s.cfg.caps.xw / 8 ∧
      s.msgLen.toNat = 128) ∧
    (∃ s : State, s.cfg.caps.msgMax < s.msgLen.toNat) ∧
    (∃ s : State, s.msgLen.toNat ≤ s.cfg.caps.msgMax ∧ s.cfg.caps.xw / 8 < s.msgLen.toNat) :=
  ⟨⟨{ st with msgLen := 128 }, by decide⟩, ⟨{ st with msgLen := 8193 }, by decide +kernel⟩,
    ⟨{ st with msgLen := 129 }, by decide +kernel⟩⟩

theorem witness_ConcatJoinsBuffersInOrder :
    (∃ s : State, s.msgLen.toNat ≤ s.cfg.caps.msgMax ∧ s.msgLen.toNat = 8192) ∧
    (∃ s : State, s.msgLen.toNat + s.dstLen.toNat < 2 ^ 32 ∧ s.dstLen.toNat = 255 ∧
      s.msgLen.toNat + s.dstLen.toNat = 8192 ∧ s.msgLen.toNat ≤ s.cfg.caps.msgMax ∧
      s.dstLen.toNat ≤ 255 ∧ s.msgLen.toNat + s.dstLen.toNat ≤ s.cfg.caps.outMax) ∧
    (∃ s : State, s.cfg.caps.msgMax < s.msgLen.toNat) ∧
    (∃ s : State, s.msgLen.toNat ≤ s.cfg.caps.msgMax ∧ 255 < s.dstLen.toNat) ∧
    (∃ s : State, s.msgLen.toNat ≤ s.cfg.caps.msgMax ∧ s.dstLen.toNat ≤ 255 ∧
      s.cfg.caps.outMax < s.msgLen.toNat + s.dstLen.toNat) :=
  ⟨⟨{ st with msgLen := 8192 }, by decide⟩, 
    ⟨{ st with msgLen := 7937, dstLen := 255 }, by decide⟩,
    ⟨{ st with msgLen := 8193 }, by decide⟩, ⟨{ st with dstLen := 256 }, by decide⟩,
    ⟨{ st with msgLen := 8192, dstLen := 1 }, by decide⟩⟩

theorem witness_Str2bytesWritesCodePoints :
    (∃ s : State, s.elemCnt.toNat = 256 ∧ s.elemCnt.toNat ≤ s.cfg.caps.elemMax ∧
      ∀ k, k < s.elemCnt.toNat → s.elem k < 256) ∧
    (∃ s : State, s.cfg.caps.elemMax < s.elemCnt.toNat) ∧
    (∃ (s : State) (k : Nat), s.elemCnt.toNat ≤ s.cfg.caps.elemMax ∧ k < s.elemCnt.toNat ∧
      256 ≤ s.elem k) :=
  have hc : (withElems (List.replicate 256 255) st).elemCnt.toNat = 256 := by
    rw [withElems_cnt _ _ (by rw [List.length_replicate]; decide), List.length_replicate]
  ⟨⟨withElems (List.replicate 256 255) st, hc, hc.le, fun k hk => by
      rw [withElems_elem _ _ k (by rw [List.length_replicate]; omega), List.getElem_replicate]
      decide⟩,
    ⟨{ st with elemCnt := 257 }, by decide⟩,
    ⟨withElems [255, 256] st, 1, by decide +kernel⟩⟩

theorem witness_ByteCodecRoundTrips :
    (∃ v n : Nat, v < 2 ^ (8 * n) ∧ v = 255 ∧ n = 1) ∧ (∃ v n : Nat, 2 ^ (8 * n) ≤ v) :=
  ⟨⟨255, 1, by decide⟩, ⟨256, 1, by decide⟩⟩

theorem witness_EngineAnswersOutstandingRequest :
    (∃ (s : State) (rest : List Turn) (m : List Byte), s.rst = false ∧
      s.inputs = .engine :: rest ∧ s.digestReq = some m) ∧
    (∃ (s : State) (rest : List Turn), s.inputs = .engine :: rest ∧ s.digestReq = none) ∧
    (∃ (s : State) (rest : List Turn), s.inputs = .reset :: .engine :: rest) ∧
    (∃ (s : State) (rest : List Turn), s.inputs = .reset :: .release :: .engine :: rest) :=
  ⟨⟨{ st with inputs := [.engine], digestReq := some [] }, [], [], rfl, rfl, rfl⟩,
    ⟨{ st with inputs := [.engine] }, [], rfl, rfl⟩,
    ⟨{ st with inputs := [.reset, .engine] }, [], rfl⟩,
    ⟨{ st with inputs := [.reset, .release, .engine] }, [], rfl⟩⟩

/-- An accepted XMD with empty message and tag, every length 0. -/
def xmd0 : State := busy .xmd st

/-- An accepted XMD that asks for 64 bytes: two blocks. -/
def xmd64 : State := busy .xmd { st with lenArg := 64 }

theorem witness_XmdStartsWithMsgPrime :
    ∃ s : State, s.chain = none ∧ s.msgLen.toNat ≤ s.cfg.caps.msgMax ∧ s.lenArg.toNat ≤ 8160 ∧
      s.dstLen.toNat ≤ 255 ∧ s.cfg.digestPresent = true ∧ s.msgLen.toNat = 8192 ∧
      s.lenArg.toNat = 8160 ∧ s.dstLen.toNat = 255 :=
  ⟨{ st with msgLen := 8192, lenArg := 8160, dstLen := 255 }, by decide⟩

theorem witness_XmdFailsInOrder :
    (∃ s : State, s.chain = none ∧ s.cfg.caps.msgMax < s.msgLen.toNat) ∧
    (∃ s : State, s.chain = none ∧ s.msgLen.toNat ≤ s.cfg.caps.msgMax ∧ 8160 < s.lenArg.toNat) ∧
    (∃ s : State, s.chain = none ∧ s.msgLen.toNat ≤ s.cfg.caps.msgMax ∧ s.lenArg.toNat ≤ 8160 ∧
      255 < s.dstLen.toNat) ∧
    (∃ s : State, s.chain = none ∧ s.msgLen.toNat ≤ s.cfg.caps.msgMax ∧ s.lenArg.toNat ≤ 8160 ∧
      s.dstLen.toNat ≤ 255 ∧ s.cfg.digestPresent = false) :=
  ⟨⟨{ st with msgLen := 8193 }, by decide⟩, ⟨{ st with lenArg := 8161 }, by decide⟩,
    ⟨{ st with dstLen := 256 }, by decide⟩, ⟨stNoDigest, by decide⟩⟩

/-- The chain of an XMD of `n` bytes just started, from an accepted XMD. -/
def started (s : State) : State := startChain s.msg s.dst s.lenArg.toNat s

theorem started_belongs {s : State} (hm : s.msgLen.toNat ≤ s.cfg.caps.msgMax)
    (h : xmdFailure s.cfg.digestPresent s.dstLen.toNat s.lenArg.toNat = none) :
    ChainBelongs .xmd ⟨dstPrime s.dst, xmdEll s.lenArg.toNat, 0, [], [], []⟩ (started s) :=
  ⟨hm, h, chainAt_start _ _ _ _ (le_of_xmdFailure_none h).1⟩

/-- The same chain with the first digest answered. -/
theorem answered_belongs {s : State} {c : Chain} {m : List Byte} (h : ChainBelongs .xmd c s)
    (hq : s.digestReq = some m) :
    ChainBelongs .xmd c { s with digestReq := none, digestResp := some (sha256 m) } :=
  ⟨h.1, h.2.1, chainAt_answered s.inputs h.2.2 hq⟩

/-- The same chain after the first answer is taken. -/
theorem advanced_belongs {s : State} {c : Chain} {d : List Byte} (h : ChainBelongs .xmd c s)
    (hr : s.digestResp = some d) (h0 : c.idx = 0) :
    ChainBelongs .xmd ⟨c.dstp, c.ell, 1, d, c.bprev, c.blocks⟩
      (requestDigest (firstInput d c.dstp)
        { s with chain := some ⟨c.dstp, c.ell, 1, d, c.bprev, c.blocks⟩ }) :=
  ⟨h.1, h.2.1, chainAt_first h.2.2 hr h0⟩

/-- The last response of a chain that asked for no bytes and has computed one block. -/
theorem witness_XmdEndsWithExpandedMessage :
    ∃ (s : State) (c : Chain), s.chain = some c ∧ ChainBelongs .xmd c s ∧ c.idx = max c.ell 1 ∧
      s.digestResp ≠ none := by
  have h0 := started_belongs (s := xmd0) (by decide) (by decide)
  have h1 := answered_belongs h0 rfl
  have h2 := advanced_belongs h1 rfl rfl
  have h3 := answered_belongs h2 rfl
  refine ⟨_, _, ?_, h3, ?_, ?_⟩ <;> first | rfl | decide

theorem witness_XmdRunComputesExpandMessage :
    ∃ s : State, s.rst = false ∧ s.phase = .busy ∧ decodeWord s.cmdLast = some .xmd ∧
      s.chain = none ∧ s.digestResp = none ∧ s.msgLen.toNat ≤ s.cfg.caps.msgMax ∧ s.lenArg.toNat ≤ 8160 ∧
      s.dstLen.toNat ≤ 255 ∧ s.cfg.digestPresent = true ∧
      s.inputs = digestTurns (max ((s.lenArg.toNat + 31) / 32) 1 + 1) :=
  ⟨{ xmd64 with inputs := digestTurns 3 }, by decide⟩

theorem witness_ExpandedLengthIsExact :
    ∃ h : List Byte → List Byte, (∀ x, (h x).length = 32) ∧
      (∃ msg dst n u, expandMessageXmd true h msg dst n = .ok u) ∧
      (∃ (dst : List Byte) (n : Nat), n ≤ 8160 ∧ dst.length ≤ 255) ∧
      ∃ n : Nat, 255 < (n + 31) / 32 :=
  ⟨sha256, length_sha256, ⟨[], [], 0, _, rfl⟩, ⟨[], 8160, by decide⟩, ⟨8161, by decide⟩⟩

/-- V30 and the empty non-expanding H2F (V35). -/
theorem witness_H2fReducesPreExpandedMessage :
    (∃ s : State, let cf := resolveH2f true true true false true false s
      s.count.toNat * cf.m < 2 ^ 32 ∧ s.chain = none ∧ cf.expand = false ∧
      s.msgLen.toNat ≤ s.cfg.caps.msgMax ∧ 0 < cf.p ∧ 0 < cf.m ∧
      s.count.toNat * cf.m ≤ s.cfg.caps.elemMax ∧
      s.msgLen.toNat = s.count.toNat * cf.m * ((bitlen cf.p + cf.secK + 7) / 8) ∧
      s.count.toNat = 3) ∧
    (∃ s : State, let cf := resolveH2f true true true false true false s
      s.count.toNat * cf.m < 2 ^ 32 ∧ s.chain = none ∧ cf.expand = false ∧
      s.msgLen.toNat ≤ s.cfg.caps.msgMax ∧ 0 < cf.p ∧ 0 < cf.m ∧
      s.count.toNat * cf.m ≤ s.cfg.caps.elemMax ∧
      s.msgLen.toNat = s.count.toNat * cf.m * ((bitlen cf.p + cf.secK + 7) / 8) ∧
      s.count.toNat * cf.m = 256) :=
  ⟨⟨{ st with pOvr := 7, mOvr := 1, kOvr := 0, count := 3, msgLen := 3 }, by decide +kernel⟩,
    ⟨{ st with pOvr := 7, mOvr := 256, kOvr := 0, count := 1, msgLen := 256 }, by decide +kernel⟩⟩

theorem witness_H2fStartsExpansion :
    ∃ s : State, let cf := resolveH2f false false false false false false s
      s.chain = none ∧ cf.expand = true ∧
      h2fFailure s.cfg cf s.count.toNat s.msgLen.toNat = none ∧
      s.count.toNat = 63 := ⟨{ st with count := 63 }, by decide +kernel⟩

/-- A chain of H2F started in `st` belongs to it in every later state with the same operands. -/
theorem h2f_belongs {c : Chain} {s : State}
    (h : ChainAt st.msg (resolveH2f false false false false false false st).dst
      ((resolveH2f false false false false false false st).lenInBytes st.count.toNat) c s)
    (hm : s.msg = st.msg) (hr : resolveH2f false false false false false false s =
      resolveH2f false false false false false false st) (hc : s.count = st.count)
    (hl : s.msgLen = st.msgLen) (hg : s.cfg = st.cfg) : ChainBelongs h2f0 c s := by
  have hp : h2fFailure st.cfg (resolveH2f false false false false false false st)
      st.count.toNat st.msgLen.toNat = none := by decide +kernel
  unfold ChainBelongs h2f0
  simp only [hm, hr, hc, hl, hg]
  exact ⟨rfl, hp, h⟩

/-- The configuration of a default H2F in `st`, which asks for no tuples. -/
def h2fCf : H2fConfig := resolveH2f false false false false false false st

theorem h2f_ell : xmdEll (h2fCf.lenInBytes st.count.toNat) = 0 := by decide +kernel

/-- An expanding H2F at its last response. -/
theorem witness_H2fEndsWithFieldElements :
    ∃ (s : State) (c : Chain), s.count.toNat * h2fCf.m < 2 ^ 32 ∧ s.chain = some c ∧
      ChainBelongs h2f0 c s ∧
      c.idx = max c.ell 1 ∧ s.digestResp ≠ none := by
  have a0 := chainAt_start st.msg h2fCf.dst (h2fCf.lenInBytes st.count.toNat) st
    (by rw [h2f_ell]; decide)
  have a1 := chainAt_answered [] a0 rfl
  have a2 := chainAt_first a1 rfl rfl
  have a3 := chainAt_answered [] a2 rfl
  refine ⟨_, _, by decide, rfl, h2f_belongs a3 rfl rfl rfl rfl rfl, ?_,
    Option.some_ne_none _⟩
  show 1 = max (xmdEll _) 1
  rw [h2f_ell]
  rfl

/-- A chain that waits, one at its first response, one at a response between first and last, and the
first response of an H2F. -/
theorem witness_ExpansionsRequestDigestsInChainOrder :
    (∃ (s : State) (c : Chain), s.chain = some c ∧ ChainBelongs .xmd c s ∧ s.digestResp = none) ∧
    (∃ (s : State) (c : Chain), s.chain = some c ∧ ChainBelongs .xmd c s ∧ s.digestResp ≠ none ∧
      c.idx < max c.ell 1 ∧ c.idx = 0 ∧ c.ell = 0) ∧
    (∃ (s : State) (c : Chain), s.chain = some c ∧ ChainBelongs .xmd c s ∧ s.digestResp ≠ none ∧
      c.idx < max c.ell 1 ∧ c.idx = 1) ∧
    (∃ (s : State) (c : Chain), s.chain = some c ∧ ChainBelongs h2f0 c s ∧ s.digestResp ≠ none ∧
      c.idx < max c.ell 1) := by
  have h0 := started_belongs (s := xmd0) (by decide) (by decide)
  have h1 := answered_belongs h0 rfl
  have k0 := started_belongs (s := xmd64) (by decide) (by decide)
  have k1 := answered_belongs k0 rfl
  have k2 := advanced_belongs k1 rfl rfl
  have k3 := answered_belongs k2 rfl
  have a0 := chainAt_start st.msg h2fCf.dst (h2fCf.lenInBytes st.count.toNat) st
    (by rw [h2f_ell]; decide)
  have a1 := chainAt_answered [] a0 rfl
  refine ⟨⟨_, _, ?_, h0, ?_⟩, ⟨_, _, ?_, h1, ?_, ?_, ?_, ?_⟩, ⟨_, _, ?_, k3, ?_, ?_, ?_⟩,
    ⟨_, _, rfl, h2f_belongs a1 rfl rfl rfl rfl rfl, Option.some_ne_none _,
      (by show 0 < max (xmdEll _) 1; omega)⟩⟩ <;>
    first | rfl | decide

theorem witness_H2fFailsInOrder :
    (∃ s : State, s.chain = none ∧ s.cfg.caps.msgMax < s.msgLen.toNat) ∧
    (∃ s : State, s.chain = none ∧ s.msgLen.toNat ≤ s.cfg.caps.msgMax ∧
      (resolveH2f true true false false false false s).p = 0) ∧
    (∃ s : State, s.chain = none ∧ s.msgLen.toNat ≤ s.cfg.caps.msgMax ∧
      (resolveH2f true true false false false false s).p ≠ 0 ∧
      (resolveH2f true true false false false false s).m = 0) ∧
    (∃ s : State, let cf := resolveH2f false false false false false false s
      s.chain = none ∧ s.msgLen.toNat ≤ s.cfg.caps.msgMax ∧ cf.p ≠ 0 ∧ cf.m ≠ 0 ∧
        s.cfg.caps.elemMax < s.count.toNat * cf.m) ∧
    (∃ s : State, let cf := resolveH2f false false false false false false s
      s.chain = none ∧ s.msgLen.toNat ≤ s.cfg.caps.msgMax ∧ cf.p ≠ 0 ∧ cf.m ≠ 0 ∧
      s.count.toNat * cf.m ≤ s.cfg.caps.elemMax ∧ cf.expand = true ∧
      255 < (s.count.toNat * cf.m * ((bitlen cf.p + cf.secK + 7) / 8) + 31) / 32) ∧
    (∃ s : State, let cf := resolveH2f false false false true false false s
      s.chain = none ∧ s.msgLen.toNat ≤ s.cfg.caps.msgMax ∧ cf.p ≠ 0 ∧ cf.m ≠ 0 ∧
      s.count.toNat * cf.m ≤ s.cfg.caps.elemMax ∧ cf.expand = true ∧
      (s.count.toNat * cf.m * ((bitlen cf.p + cf.secK + 7) / 8) + 31) / 32 ≤ 255 ∧
      255 < cf.dstLen) ∧
    (∃ s : State, let cf := resolveH2f false false false false false false s
      s.chain = none ∧ s.msgLen.toNat ≤ s.cfg.caps.msgMax ∧ cf.p ≠ 0 ∧ cf.m ≠ 0 ∧
      s.count.toNat * cf.m ≤ s.cfg.caps.elemMax ∧ cf.expand = true ∧
      (s.count.toNat * cf.m * ((bitlen cf.p + cf.secK + 7) / 8) + 31) / 32 ≤ 255 ∧
      cf.dstLen ≤ 255 ∧ s.cfg.digestPresent = false) ∧
    (∃ s : State, let cf := resolveH2f false false false false true false s
      s.chain = none ∧ s.msgLen.toNat ≤ s.cfg.caps.msgMax ∧ cf.p ≠ 0 ∧ cf.m ≠ 0 ∧
      s.count.toNat * cf.m ≤ s.cfg.caps.elemMax ∧ cf.expand = false ∧
      s.msgLen.toNat ≠ s.count.toNat * cf.m * ((bitlen cf.p + cf.secK + 7) / 8)) :=
  ⟨⟨{ st with msgLen := 8193 }, by decide⟩, ⟨st, by decide⟩, ⟨{ st with pOvr := 1 }, by decide⟩,
    ⟨{ st with count := 129 }, by decide +kernel⟩, ⟨{ st with count := 64 }, by decide +kernel⟩,
    ⟨{ st with count := 1, dstLen := 256 }, by decide +kernel⟩, ⟨stNoDigest, by decide +kernel⟩,
    ⟨{ st with count := 1, msgLen := 127 }, by decide +kernel⟩⟩

/-- Bare H2F of two tuples: nine digests (V33). -/
theorem witness_H2fRunComputesHashToField :
    ∃ s : State, let cf := resolveH2f false false false false false false s
      s.count.toNat * cf.m < 2 ^ 32 ∧ s.rst = false ∧ s.phase = .busy ∧
      decodeWord s.cmdLast = some h2f0 ∧ s.chain = none ∧
      s.digestResp = none ∧ cf.expand = true ∧
      h2fFailure s.cfg cf s.count.toNat s.msgLen.toNat = none ∧
      s.inputs = digestTurns (max ((cf.lenInBytes s.count.toNat + 31) / 32) 1 + 1) ∧
      s.inputs.length = 19 :=
  ⟨{ busy h2f0 { st with count := 2 } with inputs := digestTurns 9 }, by decide +kernel⟩

theorem witness_DefaultH2fTakes64BytesPerCoordinate :
    ∃ s : State, s.ParamsOk ∧ s.cfg.caps = Config.defaultCaps ∧ s.cfg.digestPresent = true ∧
      s.msgLen.toNat ≤ 8192 := ⟨legal, legal_params, rfl, rfl, by decide⟩

theorem witness_OverridesAreReadOnlyWhenSelected :
    ∃ (s t : State) (a b c d e : Bool), exec (.h2f false a b c d e) s = .next t ∧
      exec (.h2f a false b c d e) s = .next t ∧ exec (.h2f a b false c d e) s = .next t ∧
      exec (.h2f a b c false d e) s = .next t :=
  ⟨st, _, false, false, false, false, false, rfl, rfl, rfl, rfl⟩

/-- V30, and an expanding call of two tuples. -/
theorem witness_HashToFieldShapeAndRange :
    (∃ (cf : H2fConfig) (msg : List Byte) (tuples : List (List Nat)),
      hashToField false sha256 cf msg 3 = .ok tuples ∧ tuples = [[3], [0], [3]] ∧
      0 < cf.p ∧ 0 < cf.m ∧ cf.expand = false ∧ msg.length = cf.lenInBytes 3) ∧
    ∃ cf : H2fConfig, 0 < cf.p ∧ 0 < cf.m ∧ cf.expand = true ∧ cf.lenInBytes 1020 = 8160 ∧
      cf.dstLen = 255 :=
  ⟨⟨⟨7, 1, 0, 0, [], false⟩, [0x0a, 0x07, 0xff], _, rfl, by decide +kernel⟩,
    ⟨⟨7, 1, 61, 255, [], true⟩, by decide⟩⟩

theorem witness_B2lWritesLittleEndianLimbs :
    (∃ s : State, 1 ≤ s.limbN.toNat ∧ s.limbN.toNat ≤ s.cfg.caps.nMax ∧ 1 ≤ s.limbK.toNat ∧
      s.limbK.toNat ≤ s.cfg.caps.kMax ∧ s.bigx < 2 ^ (s.limbN.toNat * s.limbK.toNat) ∧
      s.bigx = 1 ∧ s.limbN.toNat = 1) ∧
    (∃ s : State, 1 ≤ s.limbN.toNat ∧ s.limbN.toNat ≤ s.cfg.caps.nMax ∧ 1 ≤ s.limbK.toNat ∧
      s.limbK.toNat ≤ s.cfg.caps.kMax ∧ s.bigx < 2 ^ (s.limbN.toNat * s.limbK.toNat) ∧
      s.limbN.toNat = 64 ∧ s.limbK.toNat = 16) ∧
    (∃ s : State, s.limbN.toNat = 0) ∧ (∃ s : State, s.cfg.caps.nMax < s.limbN.toNat) ∧
    (∃ s : State, 1 ≤ s.limbN.toNat ∧ s.limbN.toNat ≤ s.cfg.caps.nMax ∧
      (s.limbK.toNat = 0 ∨ s.cfg.caps.kMax < s.limbK.toNat)) ∧
    (∃ s : State, 1 ≤ s.limbN.toNat ∧ s.limbN.toNat ≤ s.cfg.caps.nMax ∧ 1 ≤ s.limbK.toNat ∧
      s.limbK.toNat ≤ s.cfg.caps.kMax ∧ 2 ^ (s.limbN.toNat * s.limbK.toNat) ≤ s.bigx) :=
  ⟨⟨{ st with limbN := 1, limbK := 1, bigx := 1 }, by decide +kernel⟩,
    ⟨{ st with limbN := 64, limbK := 16 }, by decide +kernel⟩,
    ⟨st, by decide⟩, ⟨{ st with limbN := 65 }, by decide⟩,
    ⟨{ st with limbN := 55, limbK := 17 }, by decide +kernel⟩,
    ⟨{ st with limbN := 1, limbK := 1, bigx := 2 }, by decide +kernel⟩⟩

theorem witness_L2bSumsLimbs :
    (∃ s : State, 1 ≤ s.limbN.toNat ∧ s.limbN.toNat ≤ s.cfg.caps.nMax ∧ 1 ≤ s.elemCnt.toNat ∧
      s.elemCnt.toNat ≤ s.cfg.caps.kMax ∧ (∀ k, k < s.elemCnt.toNat → s.elem k < 2 ^ s.limbN.toNat) ∧
      s.limbN.toNat = 64 ∧ s.elemCnt.toNat = 16) ∧
    (∃ s : State, s.limbN.toNat = 0) ∧ (∃ s : State, s.cfg.caps.nMax < s.limbN.toNat) ∧
    (∃ s : State, 1 ≤ s.limbN.toNat ∧ s.limbN.toNat ≤ s.cfg.caps.nMax ∧
      (s.elemCnt.toNat = 0 ∨ s.cfg.caps.kMax < s.elemCnt.toNat)) ∧
    (∃ (s : State) (k : Nat), 1 ≤ s.limbN.toNat ∧ s.limbN.toNat ≤ s.cfg.caps.nMax ∧
      s.elemCnt.toNat ≤ s.cfg.caps.kMax ∧
      k < s.elemCnt.toNat ∧ 2 ^ s.limbN.toNat ≤ s.elem k) :=
  ⟨⟨withElems (List.replicate 16 (2 ^ 64 - 1)) { st with limbN := 64 }, by decide, by decide,
      by decide, by decide, fun k hk => by
        rw [withElems_elem _ _ k
          (Nat.lt_of_lt_of_eq hk (withElems_cnt _ _ (by decide)))]
        exact (List.getElem_replicate ..).trans_lt (by decide +kernel),
      rfl, rfl⟩,
    ⟨st, by decide⟩, ⟨{ st with limbN := 65 }, by decide⟩,
    ⟨{ st with limbN := 8, elemCnt := 17 }, by decide⟩,
    ⟨{ withElems [256] st with limbN := 8 }, 0, by decide +kernel⟩⟩

/-- The longest hex string HEX2BYTEINTS takes, and the empty one. -/
theorem witness_Hex2byteintsKeepsStringOrder : ∀ n ∈ [0, 512], ∃ s : State, s.msgLen.toNat = n ∧
    s.msgLen.toNat ≤ s.cfg.caps.msgMax ∧ s.msgLen.toNat / 2 ≤ s.cfg.caps.elemMax ∧
    s.msgLen.toNat % 2 = 0 ∧
    ∀ k, k < s.msgLen.toNat → hexDigit? (s.msgByte k) ≠ none := by
  intro n hn
  have h1 : n ≤ 512 ∧ n % 2 = 0 := by
    simp only [List.mem_cons, List.not_mem_nil, or_false] at hn
    omega
  refine ⟨withByteMsg n 0x30 st, withByteMsg_len _ _ _ (by omega), ?_, ?_, ?_, fun k hk => ?_⟩
  · rw [withByteMsg_len _ _ _ (by omega)]; show n ≤ 8192; omega
  · rw [withByteMsg_len _ _ _ (by omega)]; show n / 2 ≤ 256; omega
  · rw [withByteMsg_len _ _ _ (by omega)]; exact h1.2
  · rw [withByteMsg_len _ _ _ (by omega)] at hk
    rw [withByteMsg_byte _ _ _ _ hk]
    decide

theorem witness_LimbRoundTrips :
    (∃ n k x : Nat, x < 2 ^ (n * k) ∧ n = 2 ∧ k = 3 ∧ x = 63) ∧
    (∃ (n : Nat) (ls : List Nat), (∀ l ∈ ls, l < 2 ^ n) ∧ n = 2 ∧ ls = [3, 0, 3]) :=
  ⟨⟨2, 3, 63, by decide⟩, ⟨2, [3, 0, 3], by decide⟩⟩

theorem witness_StepKeepsInvariant : ∃ s t : State, s.Inv ∧ step s = .next t ∧ s ≠ t :=
  ⟨{ legal with inputs := [.write 4 3] }, _,
    legal_inv.setInputs _, rfl, fun h => by
      have := congrArg State.inputs h
      revert this
      decide⟩

theorem witness_InvariantStatesNeverStop : ∃ s : State, s.Inv ∧ s.inputs = [.sequencer] :=
  ⟨{ legal with inputs := [.sequencer] }, legal_inv.setInputs _, rfl⟩

/-! ## ByteCodec (95_test_vectors 2.1) -/

/-- V10 -/
theorem test_hex2bytes_mixed_case :
    after .hex2bytes (withMsg [0x30, 0x30, 0x66, 0x46] st) (doneOut [0x00, 0xff]) = true := by
  decide +kernel

/-- V13 -/
theorem test_hex2bytes_bad_character :
    after .hex2bytes (withMsg [0x30, 0x78, 0x31, 0x32] st) (errIs 1 1) = true := by decide +kernel

/-- V13c -/
theorem test_bytes2hex :
    after .bytes2hex (withMsg [0x00, 0x59, 0xab] st)
      (doneOut [0x30, 0x30, 0x35, 0x39, 0x61, 0x62]) = true := by decide +kernel

/-- V13d -/
theorem test_bytes2hex_capacity :
    after .bytes2hex { st with msgLen := 4097 } (errIs 6 3) = true := by decide +kernel

/-- V15e -/
theorem test_i2osp :
    after .i2osp { st with bigx := 4328719365, lenArg := 8 }
      (doneOut [0x00, 0x00, 0x00, 0x01, 0x02, 0x03, 0x04, 0x05]) = true := by decide +kernel

/-- V15b -/
theorem test_i2osp_no_room :
    after .i2osp { st with bigx := 1, lenArg := 0 } (errIs 2 0) = true := by decide +kernel

/-- V16 -/
theorem test_os2ip :
    after .os2ip (withMsg [0x00, 0x00, 0x00, 0x01, 0x02, 0x03, 0x04, 0x05] st)
      (doneBigx 4328719365) = true := by decide +kernel

/-- V17a -/
theorem test_os2ip_too_long :
    after .os2ip { st with msgLen := 129 } (errIs 6 5) = true := by decide +kernel

/-- V18 -/
theorem test_concat0 : after .concat0 st (doneOut []) = true := by decide +kernel

/-- V18a -/
theorem test_concat1 :
    after .concat1 (withMsg [0x01, 0x02] st) (doneOut [0x01, 0x02]) = true := by decide +kernel

/-- V18b -/
theorem test_concat2 :
    after .concat2 (withTag [0x03] (withMsg [0x01, 0x02] st)) (doneOut [0x01, 0x02,
      0x03]) = true := by
  decide +kernel

/-- V18d -/
theorem test_concat2_tag_too_long :
    after .concat2 { st with dstLen := 256 } (errIs 6 2) = true := by decide +kernel

/-- V19 -/
theorem test_str2bytes :
    after .str2bytes (withElems [97, 98, 99] st) (doneOut [0x61, 0x62, 0x63]) = true := by
  decide +kernel

/-- V19a -/
theorem test_str2bytes_code_point :
    after .str2bytes (withElems [255, 256] st) (errIs 6 6) = true := by decide +kernel

/-! ## SHA-256, ExpandMessage and FieldHasher (45_sha256 R222, 95_test_vectors 2.2, 2.3) -/

/-- The third check value of 45_sha256 R222, a message of two blocks. -/
theorem test_sha256_two_blocks :
    os2ip (sha256 (textBytes "abcdbcdecdefdefgefghfghighijhijkijkljklmklmnlmnomnopnopq")) =
      0x248d6a61d20638b8e5c026930c3e6039a33ce45964ff2167f6ecedd419db06c1 := by decide +kernel

/-- V23a: three invocations, XOR feedback, truncation to 33 bytes. -/
theorem test_xmd_truncates :
    os2ip (xmdBytes sha256 (textBytes "abc") (textBytes "QUUX-V01-CS02-with-expander-SHA256-128") 33) =
      0xb9f1dc180d720f9a6591fd3026d341f10f714b50277b71df7f2db395db1229b0a1 := by decide +kernel

/-- V25: the tag length is tested before the digest engine. -/
theorem test_xmd_tag_before_digest :
    after .xmd { stNoDigest with lenArg := 32, dstLen := 256 } (errIs 2 1) = true := by
  decide +kernel

/-- V25: a zero-length expansion needs the engine. -/
theorem test_xmd_needs_digest : after .xmd stNoDigest (errIs 5 0) = true := by decide +kernel

/-- V31: row-major order. -/
theorem test_h2f_row_major :
    after (.h2f true true true false true false)
      { withMsg [0x00, 0xfb, 0x01, 0x00, 0xff, 0xff, 0x12, 0x34] st with
        pOvr := 251, mOvr := 2, kOvr := 8, count := 2 }
      (doneElems [0, 5, 24, 142]) = true := by decide +kernel

/-- V34: the default configuration on `abc`, one tuple. -/
theorem test_h2f_default :
    hashToField true sha256 (resolveH2f false false false false false false st)
      (textBytes "abc") 1 = .ok [[
        1866313262263414695366260166745167501672942979605878563310026600128090528256981809103696910872923005346168690827879,
        18795185765356953091689994913700205941208654836571647656302671684129132934554115059951886809623941411786597073655]] := by
  decide +kernel

/-- The pure function takes any count: 300 tuples of one coordinate, modulus 7, SEC_K 0 (00_scope R17,
90_conflicts C8). -/
theorem test_hash_to_field_has_no_capacity :
    hashToField false sha256 ⟨7, 1, 0, 0, [], false⟩ (List.replicate 300 0x0a) 300 =
      .ok (List.replicate 300 [3]) := by decide +kernel

/-! ## LimbCodec (95_test_vectors 2.4) -/

/-- V40 -/
theorem test_b2l :
    after .b2l { st with bigx := 36028797018963973, limbN := 55, limbK := 7 }
      (fun t => decide (t.elem 0 = 5) && decide (t.elem 1 = 1) && decide (t.elemCnt = 7)) = true := by decide +kernel

/-- V43 -/
theorem test_b2l_overflow :
    after .b2l { st with bigx := 2 ^ 385, limbN := 55, limbK := 7 }
      (errIs 4 0) = true := by decide +kernel

/-- V46b: LIMB_K is ignored. -/
theorem test_l2b :
    after .l2b { withElems [255, 1] st with limbN := 8, limbK := 9 } (doneBigx 511) = true := by
  decide +kernel

/-- V46 -/
theorem test_l2b_limb_too_large :
    after .l2b { withElems [256] st with limbN := 8 } (errIs 6 11) = true := by decide +kernel

/-- V47 -/
theorem test_hex2byteints :
    after .hex2byteints (withMsg [0x30, 0x31, 0x66, 0x66] st) (doneElems [1, 255]) = true := by
  decide +kernel

/-- V47d: capacity is tested before odd length. -/
theorem test_hex2byteints_capacity :
    after .hex2byteints { st with msgLen := 515 } (errIs 6 4) = true := by decide +kernel

/-! ## Issue and phases (95_test_vectors 2.5) -/

/-- V56: a command in ERR is dropped. -/
theorem test_cmd_write_in_err :
    (match step { st with phase := .err, errCode := 4, inputs := [.write 0 0x12] } with
      | .next t => decide (statusWord t = 0xC) && decide (t.errCode = 4) && decide (t.cmdLast = 0)
      | .fault _ => false
      | .refused _ => false) = true := by decide +kernel

/-- V57: CLR leaves ERR. -/
theorem test_clr_leaves_err :
    (match step { st with phase := .err, errCode := 4, ovr := true, inputs := [.write 0 0x1] } with
      | .next t => decide (statusWord t = 0) && decide (t.errCode = 0)
      | .fault _ => false
      | .refused _ => false) = true := by decide +kernel

/-- V58: a CMD write while BUSY sets OVR. -/
theorem test_cmd_write_in_busy :
    (match step { busy .xmd st with inputs := [.write 0 0x1] } with
      | .next t => decide (statusWord t = 0x9) && decide (t.cmdLast = 0x20)
      | .fault _ => false
      | .refused _ => false) = true := by decide +kernel

/-- Program 1: the write `0x1000 <- 0x00005900` places `MSG[0] = 00`, `MSG[1] = 59`. -/
theorem test_port_lanes :
    (portWrite 0x1000 0x00005900 st).msgByte 0 = 0x00 ∧
      (portWrite 0x1000 0x00005900 st).msgByte 1 = 0x59 := by decide +kernel

/-- `ELEM[2]` word 1 holds bits 63:32 (10_state R43). -/
theorem test_port_elem_word :
    (portWrite 0x8084 0x5 (withElems [0, 0, 7] st)).elem 2 = 5 * 2 ^ 32 + 7 ∧
      (withElems [0, 0, 5 * 2 ^ 32 + 7] st).windowWord 0x8084 = 5 := by decide +kernel

/-- A capacity is an argument: an instance with two bytes of MSG refuses a third (00_scope R12). -/
theorem test_capacity_is_a_parameter :
    after .os2ip { withMsg [1, 2, 3] st with
      cfg := { cfg with caps := { Config.defaultCaps with msgMax := 2 } } } (errIs 6 1) = true := by
  decide +kernel

end Sys2Proof.Tests
end

/-! Every turn of every agent keeps the invariant. -/

namespace Sys2Proof.Machine

/-- The sequencer's turn outside reset keeps the invariant: outside BUSY it waits, and in BUSY it runs
the command of the invariant, which is not CLR. -/
theorem sequencerTurn_inv {s t : State} (h : s.Inv) (ht : sequencerTurn s = .next t) : t.Inv := by
  unfold sequencerTurn at ht
  split at ht
  case isTrue hb =>
    obtain ⟨i, hi, hclr, -, -⟩ := h.phase.busy hb
    obtain ⟨t', hexec, hends⟩ := exec_ends hclr s
    simp only [hi, hexec, Host.Outcome.next.injEq] at ht
    exact ht ▸ hends.inv h hb hi
  case isFalse => cases ht; exact h

/-- One turn of any agent keeps the invariant; while `rst` is asserted a write, the sequencer and the
engine do nothing. -/
theorem takeTurn_inv {e : Turn} {s t : State} (h : s.Inv) (ht : takeTurn e s = .next t) : t.Inv := by
  cases e with
  | write a v =>
    simp only [takeTurn] at ht
    split at ht
    case isTrue => cases ht; exact h
    case isFalse hr =>
      have hrst : s.rst = false := Bool.eq_false_of_not_eq_true hr
      split at ht
      · exact issue_inv h hrst v ht
      · cases ht; exact portWrite_inv h hrst _ v
  | read a => cases ht; exact portRead_inv h _
  | sequencer =>
    simp only [takeTurn] at ht
    split at ht
    · cases ht; exact h
    · exact sequencerTurn_inv h ht
  | engine =>
    simp only [takeTurn] at ht
    split at ht
    · cases ht; exact h
    · cases ht; exact engineTurn_inv h
  | reset => cases ht; exact resetTurn_inv h
  | release => cases ht; exact releaseTurn_inv h

/-- Settles O59: the step is the next turn of the list, which the invariant does not read. -/
theorem stepKeepsInvariant : Obligations.StepKeepsInvariant := by
  intro s t h ht
  unfold step at ht
  split at ht
  · cases ht; exact h
  · exact takeTurn_inv (h.setInputs _) ht

end Sys2Proof.Machine

/-! The ByteCodec functions undo each other (40_bytecodec R110 to R117). -/

namespace Sys2Proof.Machine

/-! ## Hex strings -/

/-- A character written for a nibble reads back as that nibble (40_bytecodec R110). -/
theorem hexDigit?_hexChar : ∀ v < 16, hexDigit? (hexChar v) = some v := by decide

theorem bytesToHex_cons (b : Byte) (bs : List Byte) :
    bytesToHex (b :: bs) = hexChar (b.toNat / 16) :: hexChar (b.toNat % 16) :: bytesToHex bs := rfl

theorem hexDigit?_highNibble (b : Byte) :
    hexDigit? (hexChar (b.toNat / 16)) = some (b.toNat / 16) :=
  hexDigit?_hexChar _ (by have := b.isLt; omega)

theorem hexDigit?_lowNibble (b : Byte) :
    hexDigit? (hexChar (b.toNat % 16)) = some (b.toNat % 16) :=
  hexDigit?_hexChar _ (Nat.mod_lt _ (by omega))

/-- The two characters of a byte are a pair that reads as the byte. -/
theorem hexPair_nibbles (b : Byte) :
    hexPair (hexChar (b.toNat / 16)) (hexChar (b.toNat % 16)) = b := by
  rw [hexPair, hexDigit?_highNibble, hexDigit?_lowNibble]
  simp only [Option.getD_some, Nat.div_add_mod, BitVec.ofNat_toNat, BitVec.setWidth_eq]

/-- `bytesToHex` writes only hex digits. -/
theorem firstNonHexFrom_bytesToHex (bs : List Byte) (t : Nat) :
    firstNonHexFrom t (bytesToHex bs) = none := by
  induction bs generalizing t with
  | nil => rfl
  | cons b bs ih =>
    simp only [bytesToHex_cons, firstNonHexFrom, hexDigit?_highNibble, hexDigit?_lowNibble,
      Option.isSome_some, if_true, ih]

theorem hexPairs_bytesToHex (bs : List Byte) : hexPairs (bytesToHex bs) = bs := by
  induction bs with
  | nil => rfl
  | cons b bs ih => rw [bytesToHex_cons, hexPairs, hexPair_nibbles, ih]

/-- A byte sequence written in hex reads back (00_scope R19 (a)). -/
theorem hexToBytes_bytesToHex (bs : List Byte) : hexToBytes (bytesToHex bs) = .ok bs := by
  have hlen : ¬ (bytesToHex bs).length % 2 = 1 := by rw [length_bytesToHex]; omega
  rw [hexToBytes, if_neg hlen, firstNonHexFrom_bytesToHex, hexPairs_bytesToHex]

/-! ## Big-endian integers -/

/-- The first of `n + 1` big-endian bytes is the most significant one. -/
theorem beBytes_succ (v n : Nat) :
    beBytes v (n + 1) = BitVec.ofNat 8 (v / 256 ^ n) :: beBytes v n := by
  simp only [beBytes, List.range_succ_eq_map, List.map_cons, List.map_map]
  congr 1
  refine List.map_congr_left fun t _ => ?_
  simp only [Function.comp_apply]
  congr 3
  omega

/-- The `n` big-endian bytes of a number hold its residue modulo `256 ^ n`. -/
theorem os2ip_beBytes (v n : Nat) : os2ip (beBytes v n) = v % 256 ^ n := by
  induction n with
  | zero => simp [beBytes, os2ip, Nat.mod_one]
  | succ n ih =>
    calc os2ip (beBytes v (n + 1)) = v / 256 ^ n % 256 * 256 ^ n + v % 256 ^ n := by
          rw [beBytes_succ, os2ip, length_beBytes, ih, BitVec.toNat_ofNat]
      _ = v % 256 ^ (n + 1) := by rw [Nat.pow_succ, Nat.mod_mul, Nat.mul_comm, Nat.add_comm]

/-- A value that fits `n` bytes is encoded in exactly `n` bytes that read as it (00_scope R19 (b)). -/
theorem i2osp_of_lt {v n : Nat} (hv : v < 2 ^ (8 * n)) :
    i2osp v n = .ok (beBytes v n) ∧ os2ip (beBytes v n) = v := by
  have h256 : v < 256 ^ n := by rwa [show 256 = 2 ^ 8 from rfl, ← Nat.pow_mul]
  exact ⟨if_neg (Nat.not_le.2 hv), by rw [os2ip_beBytes, Nat.mod_eq_of_lt h256]⟩

/-- Settles O35, part by part: the hex round trip, the integer round trip and the range test. -/
theorem byteCodecRoundTrips : Obligations.ByteCodecRoundTrips := by
  refine ⟨hexToBytes_bytesToHex, fun v n hv => ?_, fun v n hv => if_pos hv⟩
  obtain ⟨hok, hval⟩ := i2osp_of_lt hv
  exact ⟨_, hok, length_beBytes v n, hval⟩

end Sys2Proof.Machine

/-! When `expand_message_xmd` succeeds and how long its result is (41_expand_message R144 to R147). -/

namespace Sys2Proof.Machine

/-- With a digest, a length of at most 255 blocks and a tag of at most 255 bytes no test of an
expansion fails (41 R145). -/
theorem xmdFailure_eq_none {dstLen len : Nat} (hl : len ≤ 8160) (hd : dstLen ≤ 255) :
    xmdFailure true dstLen len = none := by
  have hell : ¬ Config.ellMax < xmdEll len := by
    simp only [Config.ellMax, xmdEll, ceilDiv, Config.bInBytes]; omega
  have htag : ¬ Config.dstMax < dstLen := by simp only [Config.dstMax]; omega
  rw [xmdFailure, if_neg hell, if_neg htag, if_neg (by simp)]

/-- The number of blocks is tested first. -/
theorem xmdFailure_of_many_blocks {present : Bool} {dstLen len : Nat} (hl : 255 < xmdEll len) :
    xmdFailure present dstLen len = some (.lengthTooLarge (xmdEll len)) := if_pos hl

/-- `expand_message_xmd` succeeds exactly when none of its tests fails, with the bytes of 41 R144. -/
theorem expandMessageXmd_eq_ok_iff {present : Bool} {h : List Byte → List Byte}
    {msg dst u : List Byte} {n : Nat} : expandMessageXmd present h msg dst n = .ok u ↔
      xmdFailure present dst.length n = none ∧ xmdBytes h msg dst n = u := by
  unfold expandMessageXmd
  cases xmdFailure present dst.length n <;> simp

theorem expandMessageXmd_eq_error {present : Bool} {h : List Byte → List Byte}
    {msg dst : List Byte} {n : Nat} {e : CmdError} (hf : xmdFailure present dst.length n = some e) :
    expandMessageXmd present h msg dst n = .error e := by
  rw [expandMessageXmd, hf]

/-- Settles O45: a success is `xmdBytes`, whose length is known; the tests decide the rest. -/
theorem expandedLengthIsExact : Obligations.ExpandedLengthIsExact := by
  intro h msg dst n hh
  refine ⟨fun u hu => ?_, fun hn hd => ?_, fun hl => ?_⟩
  · obtain ⟨-, rfl⟩ := expandMessageXmd_eq_ok_iff.1 hu
    exact length_xmdBytes hh msg dst n
  · exact ⟨_, expandMessageXmd_eq_ok_iff.2 ⟨xmdFailure_eq_none hn hd, rfl⟩⟩
  · exact expandMessageXmd_eq_error (xmdFailure_of_many_blocks hl)

end Sys2Proof.Machine

/-! The shape, the range and the coordinates of `hash_to_field` (42_hash_to_field R164 to R168). -/

namespace Sys2Proof.Machine

/-! ## The tuples -/

/-- One more tuple comes after those before it. -/
theorem fieldTuples_succ (u : List Byte) (p m L n : Nat) : fieldTuples u p m L (n + 1) =
    fieldTuples u p m L n ++ [(List.range m).map fun j => reduceChunk (chunkAt u L m n j) p] := by
  simp [fieldTuples, List.range_succ]

/-- There are `n` tuples of `m` coordinates (42 R168). -/
theorem fieldTuples_shape (u : List Byte) (p m L n : Nat) : (fieldTuples u p m L n).length = n ∧
    ∀ tup ∈ fieldTuples u p m L n, tup.length = m := by
  refine ⟨by simp [fieldTuples], fun tup ht => ?_⟩
  obtain ⟨i, -, rfl⟩ := List.mem_map.1 ht
  simp

/-- Row by row, coordinate `(i, j)` is the residue of the chunk at `L · (j + i · m)` (42 R165,
R166). -/
theorem fieldTuples_flatten_getElem? (u : List Byte) (p L : Nat) {m n i j : Nat} (hi : i < n)
    (hj : j < m) : (fieldTuples u p m L n).flatten[i * m + j]? =
      some (reduceChunk (chunkAt u L m i j) p) := by
  induction n with
  | zero => omega
  | succ n ih =>
    have hlen := length_fieldTuples_flatten u p m L n
    rw [fieldTuples_succ, List.flatten_append]
    obtain hlt | rfl : i < n ∨ i = n := by omega
    · have hin : i * m + j < n * m := by
        have := Nat.mul_le_mul_right m (Nat.succ_le_of_lt hlt)
        rw [Nat.succ_mul] at this
        omega
      rw [List.getElem?_append_left (by omega), ih hlt]
    · rw [List.getElem?_append_right (by omega), hlen, Nat.add_sub_cancel_left]
      simp [hj]

/-! ## `hash_to_field` -/

/-- The byte string `hash_to_field` cuts its chunks from (42 R164). -/
def uniformBytes (h : List Byte → List Byte) (c : H2fConfig) (msg : List Byte) (count : Nat) :
    List Byte := if c.expand then xmdBytes h msg c.dst (c.lenInBytes count) else msg

/-- `hash_to_field` succeeds exactly when none of its tests fails, with the tuples cut from its byte
string. -/
theorem hashToField_eq_ok_iff {present : Bool} {h : List Byte → List Byte} {c : H2fConfig}
    {msg : List Byte} {n : Nat} {tuples : List (List Nat)} :
    hashToField present h c msg n = .ok tuples ↔
      hashToFieldFailure present c n msg.length = none ∧
        fieldTuples (uniformBytes h c msg n) c.p c.m c.coordBytes n = tuples := by
  unfold hashToField uniformBytes
  cases hashToFieldFailure present c n msg.length <;> simp

/-- A success has a positive modulus. -/
theorem pos_of_hashToFieldFailure_none {present : Bool} {c : H2fConfig} {count msgLen : Nat}
    (h : hashToFieldFailure present c count msgLen = none) : 0 < c.p := by
  by_contra hp
  rw [hashToFieldFailure, if_pos (by omega)] at h
  cases h

/-- With a positive modulus and degree only the byte string can fail. -/
theorem hashToFieldFailure_of_pos {present : Bool} {c : H2fConfig} {count msgLen : Nat}
    (hp : 0 < c.p) (hm : 0 < c.m) :
    hashToFieldFailure present c count msgLen = uniformFailure present c count msgLen := by
  rw [hashToFieldFailure, if_neg (by omega), if_neg (by omega)]

/-- If the byte string does not fail, `hash_to_field` gives its coordinates row by row. -/
theorem hashToField_coordinates {present : Bool} {h : List Byte → List Byte} {c : H2fConfig}
    {msg : List Byte} {n : Nat} (hp : 0 < c.p) (hm : 0 < c.m)
    (hu : uniformFailure present c n msg.length = none) :
    ∃ tuples, hashToField present h c msg n = .ok tuples ∧ ∀ i j, i < n → j < c.m →
      tuples.flatten[i * c.m + j]? =
        some (reduceChunk (chunkAt (uniformBytes h c msg n) c.coordBytes c.m i j) c.p) :=
  ⟨_, hashToField_eq_ok_iff.2 ⟨(hashToFieldFailure_of_pos hp hm).trans hu, rfl⟩,
    fun _ _ hi hj => fieldTuples_flatten_getElem? _ _ _ hi hj⟩

/-- Settles O53: a success is `fieldTuples` of the byte string, and neither branch of the byte string
fails under its hypotheses. -/
theorem hashToFieldShapeAndRange : Obligations.HashToFieldShapeAndRange := by
  intro present h c msg n
  refine ⟨fun tuples ht => ?_, fun hp hm hx hl => ?_, fun hp hm hx hl hd hpr => ?_⟩
  · obtain ⟨hf, rfl⟩ := hashToField_eq_ok_iff.1 ht
    obtain ⟨hlen, hrow⟩ := fieldTuples_shape (uniformBytes h c msg n) c.p c.m c.coordBytes n
    exact ⟨hlen, fun tup htup => ⟨hrow tup htup, fun x hxt => lt_of_mem_fieldTuples
      (pos_of_hashToFieldFailure_none hf) (List.mem_flatten_of_mem htup hxt)⟩⟩
  · have hu : uniformFailure present c n msg.length = none := by simp [uniformFailure, hx, hl]
    simpa only [uniformBytes, hx, reduceChunk, chunkAt, Bool.false_eq_true, if_false] using
      hashToField_coordinates (h := h) hp hm hu
  · have hu : uniformFailure present c n msg.length = none := by
      rw [uniformFailure, if_pos hx, hpr, xmdFailure_eq_none hl hd]
    simpa only [uniformBytes, hx, reduceChunk, chunkAt, if_true] using
      hashToField_coordinates (h := h) hp hm hu

end Sys2Proof.Machine

/-! The limb codecs undo each other (43_limbcodec R180 to R183). -/

namespace Sys2Proof.Machine

/-- The least significant limb comes first; the others are the limbs of the quotient. -/
theorem limbsOf_succ (n k x : Nat) :
    limbsOf n (k + 1) x = x % 2 ^ n :: limbsOf n k (x / 2 ^ n) := by
  simp only [limbsOf, List.range_succ_eq_map, List.map_cons, List.map_map, Nat.mul_zero,
    Nat.pow_zero, Nat.div_one]
  congr 1
  refine List.map_congr_left fun i _ => ?_
  rw [Function.comp_apply, Nat.div_div_eq_div_mul, ← Nat.pow_add, Nat.mul_succ, Nat.add_comm]

/-- The limbs of a number hold its residue modulo `2 ^ (n k)`. -/
theorem limbsToBigint_limbsOf (n k x : Nat) :
    limbsToBigint n (limbsOf n k x) = x % 2 ^ (n * k) := by
  induction k generalizing x with
  | zero => simp [limbsOf, limbsToBigint, Nat.mod_one]
  | succ k ih =>
    rw [limbsOf_succ, limbsToBigint, ih, Nat.mul_succ, Nat.add_comm (n * k), Nat.pow_add, Nat.mod_mul]

/-- A limb array is the limbs of its number. -/
theorem limbsOf_limbsToBigint {n : Nat} {ls : List Nat} (h : ∀ l ∈ ls, l < 2 ^ n) :
    limbsOf n ls.length (limbsToBigint n ls) = ls := by
  induction ls with
  | nil => rfl
  | cons l ls ih =>
    obtain ⟨hl, hls⟩ := List.forall_mem_cons.1 h
    rw [List.length_cons, limbsToBigint, limbsOf_succ, Nat.add_mul_mod_self_left,
      Nat.mod_eq_of_lt hl, Nat.add_mul_div_left _ _ (Nat.two_pow_pos n), Nat.div_eq_of_lt hl,
      Nat.zero_add, ih hls]

/-- A number that fits has its limbs (43 R181). -/
theorem bigintToLimbs_of_lt {n k x : Nat} (hx : x < 2 ^ (n * k)) :
    bigintToLimbs n k x = .ok (limbsOf n k x) := if_neg (Nat.not_le.2 hx)

/-- Settles O57: `limbsOf` and `limbsToBigint` are inverse where `bigintToLimbs` does not overflow. -/
theorem limbRoundTrips : Obligations.LimbRoundTrips := by
  refine ⟨fun n k x hx => ?_, fun n ls hls => ?_⟩
  · exact ⟨_, bigintToLimbs_of_lt hx, length_limbsOf n k x, fun l => lt_of_mem_limbsOf,
      by rw [limbsToBigint_limbsOf, Nat.mod_eq_of_lt hx]⟩
  · have hlt := limbsToBigint_lt hls
    exact ⟨hlt, by rw [bigintToLimbs_of_lt hlt, limbsOf_limbsToBigint hls]⟩

end Sys2Proof.Machine

/-! What one step can do to PHASE, OVR and the constants of the unit (10_state R22, R24, R31). -/

namespace Sys2Proof.Machine

/-! ## The CLR word -/

theorem ite_ne {α : Type} {c : Prop} [Decidable c] {a b d : α} (ha : a ≠ d) (hb : b ≠ d) :
    (if c then a else b) ≠ d := by
  split <;> assumption

theorem decodeBare_eq_ok_iff {i j : Instr} {arg : Byte} :
    decodeBare i arg = .ok j ↔ arg = 0 ∧ i = j := by
  unfold decodeBare
  split
  · next h => simp only [Decoded.ok.injEq, h, true_and]
  · next h => simp only [reduceCtorEq, h, false_and]

theorem decodeConcat_ne_clr (arg : Byte) : decodeConcat arg ≠ .ok .clr := by
  unfold decodeConcat
  repeat' apply ite_ne
  all_goals simp only [ne_eq, Decoded.ok.injEq, reduceCtorEq, not_false_eq_true]

theorem decodeH2f_ne_clr (arg : Byte) : decodeH2f arg ≠ .ok .clr := by
  unfold decodeH2f
  repeat' apply ite_ne
  all_goals simp only [ne_eq, Decoded.ok.injEq, reduceCtorEq, not_false_eq_true]

/-- No opcode but CLR's own decodes to CLR (30_encoding R91). -/
theorem decodeOpcode_ne_clr {opc : Byte} (h : opc ≠ 0x01) (arg : Byte) :
    decodeOpcode opc arg ≠ .ok .clr := by
  have bare : ∀ {i : Instr}, i ≠ .clr → decodeBare i arg ≠ .ok .clr :=
    fun hi hd => hi (decodeBare_eq_ok_iff.1 hd).2
  unfold decodeOpcode
  rw [if_neg h]
  exact ite_ne (bare (by decide)) <| ite_ne (bare (by decide)) <| ite_ne (bare (by decide)) <|
    ite_ne (bare (by decide)) <| ite_ne (decodeConcat_ne_clr arg) <| ite_ne (bare (by decide)) <|
    ite_ne (bare (by decide)) <| ite_ne (decodeH2f_ne_clr arg) <| ite_ne (bare (by decide)) <|
    ite_ne (bare (by decide)) <| ite_ne (bare (by decide)) (by decide)

/-- Only CLR's own word decodes to CLR (30_encoding R97). -/
theorem eq_clrWord_of_decodeWord {w : Word} (h : decodeWord w = some .clr) : w = clrWord := by
  have hd : decode w = .ok .clr := by
    unfold decodeWord at h
    split at h
    · next i hi => rw [hi, Option.some.inj h]
    · cases h
  unfold decode at hd
  split at hd
  · cases hd
  · next hz =>
    have hopc : opcField w = 0x01 := by
      by_contra hne
      exact decodeOpcode_ne_clr hne _ hd
    rw [hopc] at hd
    have harg : argField w = 0 := (decodeBare_eq_ok_iff.1 hd).1
    rw [word_eq_fields w (not_not.1 hz), hopc, harg]
    rfl

theorem decodeWord_clrWord : decodeWord clrWord = some .clr := by decide

/-! ## Turns that leave the status alone -/

/-- PHASE, OVR and the constants of the unit are as before. -/
structure KeepsStatus (s t : State) : Prop where
  cfg : t.cfg = s.cfg
  phase : t.phase = s.phase
  ovr : t.ovr = s.ovr

theorem KeepsStatus.refl (s : State) : KeepsStatus s s := ⟨rfl, rfl, rfl⟩

theorem writeScalar_keepsStatus (off : Nat) (v : Word) (s : State) :
    KeepsStatus s (writeScalar off v s) := by
  unfold writeScalar
  split <;> exact ⟨rfl, rfl, rfl⟩

theorem writeWindow_keepsStatus (off : Nat) (v : Word) (s : State) :
    KeepsStatus s (writeWindow off v s) := by
  unfold writeWindow
  split
  · exact writeScalar_keepsStatus off v s
  · split
    · exact ⟨rfl, rfl, rfl⟩
    · split
      · exact ⟨rfl, rfl, rfl⟩
      · split
        · obtain ⟨m, hm⟩ := writeElemWord_frame off v s
          exact hm ▸ ⟨rfl, rfl, rfl⟩
        · obtain ⟨m, d, hm⟩ := writeBufferWord_frame off v s
          exact hm ▸ ⟨rfl, rfl, rfl⟩

/-- A host write to an offset other than CMD leaves the status alone. -/
theorem portWrite_keepsStatus (off : Nat) (v : Word) (s : State) :
    KeepsStatus s (portWrite off v s) := by
  unfold portWrite
  split
  · split
    · exact writeScalar_keepsStatus off v s
    · exact .refl s
  · exact writeWindow_keepsStatus off v s

theorem portRead_keepsStatus (off : Nat) (s : State) : KeepsStatus s (portRead off s) := by
  unfold portRead
  split <;> exact ⟨rfl, rfl, rfl⟩

theorem engineTurn_keepsStatus (s : State) : KeepsStatus s (engineTurn s) := by
  unfold engineTurn
  split <;> exact ⟨rfl, rfl, rfl⟩

/-! ## The edges of `rst` -/

theorem resetTurn_atReset (s : State) : AtReset (resetTurn s) :=
  (atReset_resetWith s.cfg s.draws).congr ⟨_, _, _, _, rfl⟩

theorem releaseTurn_of_held {s : State} (h : s.rst = true) : releaseTurn s =
    { State.resetWith s.cfg s.draws with inputs := s.inputs, rdata := s.rdata } := if_pos h

theorem releaseTurn_of_free {s : State} (h : s.rst = false) : releaseTurn s = s :=
  if_neg (by simp [h])

theorem releaseTurn_atReset {s : State} (h : s.rst = true) : AtReset (releaseTurn s) := by
  rw [releaseTurn_of_held h]
  exact (atReset_resetWith s.cfg s.draws).congr ⟨_, _, _, _, rfl⟩

@[simp] theorem releaseTurn_cfg (s : State) : (releaseTurn s).cfg = s.cfg := by
  unfold releaseTurn
  split <;> rfl

/-- OVR is clear in the state of 10_state R55, whose STATUS is 0. -/
theorem AtReset.ovr {s : State} (h : AtReset s) : s.ovr = false := by
  have hs := h.status
  unfold statusWord at hs
  rw [h.phase] at hs
  cases ho : s.ovr with
  | false => rfl
  | true => simp [ho] at hs

/-! ## The inversion lemma -/

/-- What a step from `s` can do: leave the status alone, take an edge of `rst`, handle a CMD write in
one of the four ways of 44_system R200, or run the command in CMD_LAST. -/
inductive Moves (s : State) : State → Prop where
  | keeps {t : State} (status : KeepsStatus s t) : Moves s t
  | resets {t : State} {rest : List Turn} (turn : s.inputs = .reset :: rest) (cfg : t.cfg = s.cfg)
      (reset : AtReset t) : Moves s t
  | releases {t : State} (held : s.rst = true) (cfg : t.cfg = s.cfg) (reset : AtReset t) : Moves s t
  | drops {w : Word} {rest : List Turn} (turn : s.inputs = .write 0 w :: rest)
      (phase : s.phase = .busy ∨ s.phase = .err ∧ w ≠ clrWord) :
      Moves s { s with inputs := rest, ovr := true }
  | clears {rest : List Turn} (turn : s.inputs = .write 0 clrWord :: rest)
      (phase : s.phase ≠ .busy) :
      Moves s (clearStatus { s with inputs := rest, cmdLast := clrWord })
  | rejects {w : Word} {rest : List Turn} (turn : s.inputs = .write 0 w :: rest)
      (phase : s.phase = .idle ∨ s.phase = .done) (word : decodeWord w = none) :
      Moves s (raiseError (.illegalCommand w) { s with inputs := rest, cmdLast := w })
  | accepts {i : Instr} {w : Word} {rest : List Turn} (turn : s.inputs = .write 0 w :: rest)
      (phase : s.phase = .idle ∨ s.phase = .done) (word : decodeWord w = some i)
      (notClr : i ≠ .clr) : Moves s (accept i w { s with inputs := rest })
  | runs {i : Instr} {t : State} {rest : List Turn} (turn : s.inputs = .sequencer :: rest)
      (phase : s.phase = .busy) (word : decodeWord s.cmdLast = some i)
      (result : exec i { s with inputs := rest } = .next t) : Moves s t

/-- A CMD write is dropped, runs CLR, is refused as illegal or is accepted (44_system R200). -/
theorem moves_of_issue {s t : State} {w : Word} {rest : List Turn}
    (turn : s.inputs = .write 0 w :: rest) (ht : issue w { s with inputs := rest } = .next t) :
    Moves s t := by
  unfold issue at ht
  dsimp only at ht
  split at ht
  · next hp => cases ht; exact .drops turn (.inl hp)
  · next hp =>
    split at ht
    · next hw =>
      subst hw
      cases ht
      exact .clears turn (by simp [hp])
    · next hw => cases ht; exact .drops turn (.inr ⟨hp, hw⟩)
  all_goals
    next hp =>
    split at ht
    · next hw => cases ht; exact .rejects turn (by simp [hp]) hw
    · next hw =>
      obtain rfl := eq_clrWord_of_decodeWord hw
      cases ht
      exact .clears turn (by simp [hp])
    · next i hi hw => cases ht; exact .accepts turn (by simp [hp]) hw hi

theorem moves_of_sequencerTurn {s t : State} {rest : List Turn}
    (turn : s.inputs = .sequencer :: rest)
    (ht : sequencerTurn { s with inputs := rest } = .next t) : Moves s t := by
  unfold sequencerTurn at ht
  dsimp only at ht
  split at ht
  · next hb =>
    split at ht
    · next i hi => exact .runs turn hb hi ht
    · cases ht
  · cases ht; exact .keeps ⟨rfl, rfl, rfl⟩

theorem moves_of_takeTurn {e : Turn} {s t : State} {rest : List Turn} (turn : s.inputs = e :: rest)
    (ht : takeTurn e { s with inputs := rest } = .next t) : Moves s t := by
  cases e with
  | write a v =>
    simp only [takeTurn] at ht
    split at ht
    · cases ht; exact .keeps ⟨rfl, rfl, rfl⟩
    · split at ht
      · next ha => subst ha; exact moves_of_issue turn ht
      · cases ht
        obtain ⟨hc, hp, ho⟩ := portWrite_keepsStatus (4 * a.toNat) v { s with inputs := rest }
        exact .keeps ⟨hc, hp, ho⟩
  | read a =>
    cases ht
    obtain ⟨hc, hp, ho⟩ := portRead_keepsStatus (4 * a.toNat) { s with inputs := rest }
    exact .keeps ⟨hc, hp, ho⟩
  | sequencer =>
    simp only [takeTurn] at ht
    split at ht
    · cases ht; exact .keeps ⟨rfl, rfl, rfl⟩
    · exact moves_of_sequencerTurn turn ht
  | engine =>
    simp only [takeTurn] at ht
    split at ht
    · cases ht; exact .keeps ⟨rfl, rfl, rfl⟩
    · cases ht
      obtain ⟨hc, hp, ho⟩ := engineTurn_keepsStatus { s with inputs := rest }
      exact .keeps ⟨hc, hp, ho⟩
  | reset => cases ht; exact .resets turn rfl (resetTurn_atReset _)
  | release =>
    cases ht
    by_cases hr : s.rst = true
    · exact .releases hr (releaseTurn_cfg _) (releaseTurn_atReset hr)
    · have hfree := releaseTurn_of_free (s := { s with inputs := rest })
        (Bool.eq_false_of_not_eq_true hr)
      exact .keeps (hfree.symm ▸ ⟨rfl, rfl, rfl⟩)

/-- Everything a step does to the status of the unit. -/
theorem moves_of_step {s t : State} (ht : step s = .next t) : Moves s t := by
  unfold step at ht
  split at ht
  · cases ht; exact .keeps (.refl s)
  · next e rest turn => exact moves_of_takeTurn turn ht

/-- A turn of the sequencer under PhaseOk runs a command other than CLR. -/
theorem ends_of_running {i : Instr} {s t : State} {rest : List Turn} (hp : s.PhaseOk)
    (hb : s.phase = .busy) (hi : decodeWord s.cmdLast = some i)
    (ht : exec i { s with inputs := rest } = .next t) : Ends i { s with inputs := rest } t := by
  obtain ⟨j, hj, hclr, -, -⟩ := hp.busy hb
  obtain rfl : i = j := Option.some.inj (hi.symm.trans hj)
  obtain ⟨u, hu, hends⟩ := exec_ends hclr { s with inputs := rest }
  obtain rfl : t = u := Host.Outcome.next.inj (ht.symm.trans hu)
  exact hends

theorem exec_cfg {i : Instr} {s t : State} (ht : exec i s = .next t) : t.cfg = s.cfg := by
  by_cases hclr : i = .clr
  · subst hclr
    cases ht
    rfl
  · obtain ⟨u, hu, hends⟩ := exec_ends hclr s
    obtain rfl : t = u := Host.Outcome.next.inj (ht.symm.trans hu)
    exact hends.fields.1

/-- Settles O11: no move changes the constants, and the edges of `rst` carry them over. -/
theorem instanceConstantsNeverChange : Obligations.InstanceConstantsNeverChange := by
  intro s t ht
  cases moves_of_step ht with
  | keeps status => exact status.cfg
  | resets _ cfg _ => exact cfg
  | releases _ cfg _ => exact cfg
  | drops _ _ => rfl
  | clears _ _ => rfl
  | rejects _ _ _ => rfl
  | accepts _ _ _ _ => simp [accept]
  | runs _ _ _ result => exact (exec_cfg result).trans rfl

/-- Settles O8: of the moves that change PHASE, a release of `rst` is none, since PHASE was IDLE before
it, and each other one is a row of the table. -/
theorem phaseChangesOnlyAsTabled : Obligations.PhaseChangesOnlyAsTabled := by
  intro s t hp hr ht hne
  cases moves_of_step ht with
  | keeps status => exact absurd status.phase hne
  | resets turn _ reset => exact ⟨_, _, turn, .inl ⟨rfl, reset.phase⟩⟩
  | releases held _ reset => exact absurd (reset.phase.trans (hr held).phase.symm) hne
  | drops _ _ => exact absurd rfl hne
  | clears turn phase =>
    exact ⟨_, _, turn, .inr (.inr (.inr (.inl ⟨_, rfl, decodeWord_clrWord, phase, rfl⟩)))⟩
  | rejects turn phase word => exact ⟨_, _, turn, .inr (.inr (.inl ⟨_, rfl, phase, word, rfl⟩))⟩
  | accepts turn phase word notClr =>
    exact ⟨_, _, turn, .inr (.inl ⟨_, _, rfl, phase, word, notClr, by simp [accept]⟩)⟩
  | runs turn phase word result =>
    refine ⟨_, _, turn, .inr (.inr (.inr (.inr ⟨rfl, phase, ?_⟩)))⟩
    rcases (ends_of_running hp phase word result).outcome with ⟨hsame, -⟩ | hdone | ⟨e, -, rfl⟩
    · exact absurd hsame hne
    · exact .inl hdone.phase
    · exact .inr rfl

/-- Settles O10: OVR is set by a drop, cleared by CLR and by the assertion of `rst`, and clear on both
sides of a release; no command touches it. -/
theorem ovrIsSticky : Obligations.OvrIsSticky := by
  intro s t hp hr ht hne
  cases moves_of_step ht with
  | keeps status => exact absurd status.ovr hne
  | resets turn _ reset => exact .inr ⟨reset.ovr, .inl ⟨_, turn⟩⟩
  | releases held _ reset => exact absurd (reset.ovr.trans (hr held).ovr.symm) hne
  | drops turn phase => exact .inl ⟨rfl, _, _, turn, phase⟩
  | clears turn phase => exact .inr ⟨rfl, .inr ⟨_, turn, phase⟩⟩
  | rejects _ _ _ => exact absurd rfl hne
  | accepts _ _ _ _ => exact absurd (by simp [accept]) hne
  | runs _ phase word result =>
    obtain ⟨-, -, hovr, -⟩ := (ends_of_running hp phase word result).fields
    exact absurd hovr hne

end Sys2Proof.Machine

/-! The state of 10_state R55 while `rst` is asserted and at its release, and the invariant there
(70_reset R260). -/

namespace Sys2Proof.Machine

/-! ## Steps while `rst` is asserted -/

/-- A step is the turn at the head of the list. -/
theorem step_cons {s : State} {e : Turn} {rest : List Turn} (hi : s.inputs = e :: rest) :
    step s = takeTurn e { s with inputs := rest } := by
  unfold step
  rw [hi]

theorem step_write_of_held {s : State} {a : PortAddr} {v : Word} {rest : List Turn}
    (hr : s.rst = true) (hi : s.inputs = .write a v :: rest) :
    step s = .next { s with inputs := rest } := (step_cons hi).trans (if_pos hr)

theorem step_sequencer_of_held {s : State} {rest : List Turn} (hr : s.rst = true)
    (hi : s.inputs = .sequencer :: rest) : step s = .next { s with inputs := rest } :=
  (step_cons hi).trans (if_pos hr)

theorem step_engine_of_held {s : State} {rest : List Turn} (hr : s.rst = true)
    (hi : s.inputs = .engine :: rest) : step s = .next { s with inputs := rest } :=
  (step_cons hi).trans (if_pos hr)

/-- Only a running command hides storage from the host (20_memory R77). -/
theorem hiddenFromHost_of_not_busy {s : State} (h : s.phase ≠ .busy) (off : Nat) :
    s.hiddenFromHost off = false := by
  unfold State.hiddenFromHost
  split
  · next hb _ => exact absurd hb h
  · rfl

/-- A read of a word that is not hidden returns that word and changes nothing else (20_memory R68). -/
theorem portRead_of_visible {s : State} {off : Nat} (h : s.hiddenFromHost off = false) :
    portRead off s = { s with rdata := s.windowWord off } := by
  unfold portRead
  rw [h]
  rfl

theorem step_read_of_atReset {s : State} {a : PortAddr} {rest : List Turn} (h : AtReset s)
    (hi : s.inputs = .read a :: rest) :
    step s = .next { s with inputs := rest, rdata := s.windowWord (4 * a.toNat) } := by
  have hv := hiddenFromHost_of_not_busy (s := { s with inputs := rest })
    (by simp [h.phase]) (4 * a.toNat)
  rw [step_cons hi]
  exact congrArg Host.Outcome.next (portRead_of_visible hv)

/-- From the state of 10_state R55 with `rst` asserted every turn leaves that state, and only a release
ends the level. -/
theorem atReset_of_step {s t : State} (hr : s.rst = true) (h : AtReset s) (ht : step s = .next t) :
    AtReset t ∧ t.cfg = s.cfg ∧ (t.rst = true ∨ ∃ rest, s.inputs = .release :: rest) := by
  cases hi : s.inputs with
  | nil =>
    have hn : step s = .next s := by unfold step; rw [hi]
    obtain rfl := Host.Outcome.next.inj (hn.symm.trans ht)
    exact ⟨h, rfl, .inl hr⟩
  | cons e rest =>
    have hkept : AtReset { s with inputs := rest } := h.congr ⟨_, _, _, _, rfl⟩
    cases e with
    | write a v =>
      obtain rfl := Host.Outcome.next.inj ((step_write_of_held hr hi).symm.trans ht)
      exact ⟨hkept, rfl, .inl hr⟩
    | read a =>
      obtain rfl := Host.Outcome.next.inj ((step_read_of_atReset h hi).symm.trans ht)
      exact ⟨h.congr ⟨_, _, _, _, rfl⟩, rfl, .inl hr⟩
    | sequencer =>
      obtain rfl := Host.Outcome.next.inj ((step_sequencer_of_held hr hi).symm.trans ht)
      exact ⟨hkept, rfl, .inl hr⟩
    | engine =>
      obtain rfl := Host.Outcome.next.inj ((step_engine_of_held hr hi).symm.trans ht)
      exact ⟨hkept, rfl, .inl hr⟩
    | reset =>
      obtain rfl := Host.Outcome.next.inj ((step_cons hi).symm.trans ht)
      exact ⟨resetTurn_atReset _, rfl, .inl rfl⟩
    | release =>
      obtain rfl := Host.Outcome.next.inj ((step_cons hi).symm.trans ht)
      exact ⟨releaseTurn_atReset hr, releaseTurn_cfg _, .inr ⟨rest, rfl⟩⟩

/-- Settles O5: both edges of `rst` answer `State.resetWith` of the unit's constants, and in between
every turn keeps that state. -/
theorem resetLeavesStatedValues : Obligations.ResetLeavesStatedValues := by
  refine ⟨⟨atReset_resetWith _ _, rfl⟩, fun s rest => ⟨fun hi => ?_, fun hi hr => ?_⟩,
    fun s t hr h ht => ?_, fun s rest => ⟨fun a v => step_write_of_held, step_sequencer_of_held,
      step_engine_of_held, fun a _ => step_read_of_atReset, fun hr hi => ?_⟩⟩
  · exact ⟨_, step_cons hi, resetTurn_atReset _, rfl, rfl, rfl, rfl⟩
  · refine ⟨_, step_cons hi, releaseTurn_atReset hr, ?_⟩
    rw [releaseTurn_of_held (s := { s with inputs := rest }) hr]
    exact ⟨rfl, rfl, rfl, rfl⟩
  · obtain ⟨hat, hcfg, hlevel⟩ := atReset_of_step hr h ht
    exact ⟨hat, hcfg, hat.irq, hlevel⟩
  · rw [step_cons hi]
    exact congrArg Host.Outcome.next (releaseTurn_of_free (s := { s with inputs := rest }) hr)

/-! ## The state the machine starts in -/

/-- The constants of `State.reset` are as the spec requires (00_scope R10 to R12). -/
theorem reset_paramsOk : State.reset.ParamsOk where
  prime := (@Config.defaultModulus ⟨Config.leastDefaultModulus⟩).prime
  modulus :=
    let m := @Config.defaultModulus ⟨Config.leastDefaultModulus⟩
    bitlen_of_range m.low m.high
  tag := List.length_take_le _ _
  caps := by constructor <;> decide

/-- Settles O58: what a reset leaves meets the invariant, given legal constants. -/
theorem resetMeetsInvariant : Obligations.ResetMeetsInvariant :=
  resetWith_inv Config.instanceParams 0 false [] 0 reset_paramsOk

end Sys2Proof.Machine

/-! The scalar registers at the host port (10_state R30 to R38, 20_memory R70, R76). -/

namespace Sys2Proof.Machine

/-! ## Reads -/

/-- No scalar register is a destination in the sense of 20_memory R77. -/
theorem destWord_of_scalar (c : Config.Capacities) (i : Instr) {off : Nat} (h : off < 0x40) :
    destWord c i off = false := by
  have ho : inOut c off = false := by
    rw [← Bool.not_eq_true, inOut_iff]
    omega
  have he : inElem c off = false := by
    rw [← Bool.not_eq_true, inElem_iff]
    omega
  have hb : ¬ Config.bigxBase ≤ off := by
    simp only [Config.bigxBase]
    omega
  simp [destWord, ho, he, hb]

theorem hiddenFromHost_of_scalar (s : State) {off : Nat} (h : off < 0x40) :
    s.hiddenFromHost off = false := by
  unfold State.hiddenFromHost
  split
  · exact destWord_of_scalar _ _ h
  · rfl

/-- In every phase a host read of a scalar register answers its image (20_memory R68). -/
theorem portRead_rdata_of_scalar (s : State) {off : Nat} (h : off < 0x40) :
    (portRead off s).rdata = s.scalarWord off := by
  rw [portRead_of_visible (hiddenFromHost_of_scalar s h)]
  exact if_pos h

/-- STATUS has no bit above bit 3 (10_state R31). -/
theorem statusWord_lt (s : State) : (statusWord s).toNat < 2 ^ 4 := by
  unfold statusWord
  cases s.phase <;> cases s.ovr <;> decide

/-- The bits of STATUS (10_state R31). -/
theorem getLsbD_statusWord (s : State) (k : Nat) : (statusWord s).getLsbD k = match k with
    | 0 => decide (s.phase = .busy)
    | 1 => decide (s.phase = .done)
    | 2 => decide (s.phase = .err)
    | 3 => s.ovr
    | _ => false := by
  match k with
  | 0 | 1 | 2 | 3 =>
    unfold statusWord
    cases s.phase <;> cases s.ovr <;> rfl
  | k + 4 =>
    exact Nat.testBit_lt_two_pow
      ((statusWord_lt s).trans_le (Nat.pow_le_pow_right (by decide) (Nat.le_add_left 4 k)))

/-- CAPS is its bit 0 alone (10_state R35). -/
theorem toNat_capsWord (s : State) :
    (capsWord s).toNat = if s.cfg.digestPresent then 1 else 0 := by
  unfold capsWord
  split <;> rfl

/-! ## Writes -/

/-- Outside BUSY a host write below 0x40 is that of `writeScalar` (20_memory R76). -/
theorem portWrite_scalar {s : State} {off : Nat} (v : Word) (hb : s.phase ≠ .busy)
    (ho : off < 0x40) : portWrite off v s = writeScalar off v s := by
  rw [portWrite, if_neg hb, writeWindow, if_pos ho]

/-- A read of a scalar register after a write that `writeScalar` describes. -/
theorem windowWord_portWrite_scalar {s : State} {off : Nat} (v : Word) (hb : s.phase ≠ .busy)
    (ho : off < 0x40) :
    (portWrite off v s).windowWord off = (writeScalar off v s).scalarWord off := by
  rw [portWrite_scalar v hb ho, State.windowWord, if_pos ho]

/-- IE holds the low two bits of the word written (10_state R34). -/
theorem setWidth_extractLsb'_two (v : Word) : (v.extractLsb' 0 2).setWidth 32 = v &&& 3 := by
  apply BitVec.eq_of_toNat_eq
  rw [BitVec.toNat_setWidth_of_le (by decide), BitVec.extractLsb'_toNat, Nat.shiftRight_zero]
  exact (Nat.and_two_pow_sub_one_eq_mod v.toNat 2).symm

/-- Settles O16: the sixteen offsets below 0x40 are never hidden, and outside BUSY a write there is one
field of the state. -/
theorem scalarRegistersReadBack : Obligations.ScalarRegistersReadBack := by
  refine ⟨fun s rest a hi => ⟨_, step_cons hi, ?_⟩, fun s v hb => ?_⟩
  · have read {k : PortAddr} (hk : 4 * k.toNat < 0x40) (ha : a = k) :
        (portRead (4 * a.toNat) { s with inputs := rest }).rdata = s.scalarWord (4 * k.toNat) :=
      ha ▸ portRead_rdata_of_scalar _ (ha ▸ hk)
    refine ⟨read (by decide), fun ha k => ?_, fun ha => ?_, read (by decide), fun ha => ?_,
      fun ha => ?_, read (by decide), read (by decide), read (by decide), read (by decide),
      read (by decide), read (by decide), read (by decide), read (by decide), read (by decide),
      read (by decide)⟩
    · rw [read (k := 1) (by decide) ha]
      exact getLsbD_statusWord s k
    · rw [read (k := 2) (by decide) ha]
      exact BitVec.toNat_setWidth_of_le (by decide)
    · rw [read (k := 4) (by decide) ha]
      exact BitVec.toNat_setWidth_of_le (by decide)
    · rw [read (k := 5) (by decide) ha]
      exact toNat_capsWord s
  · have write {off : Nat} (ho : off < 0x40) : portWrite off v s = writeScalar off v s :=
      portWrite_scalar v hb ho
    refine ⟨fun off ho => ?_, ?_, write (by decide), write (by decide), write (by decide),
      write (by decide), write (by decide), write (by decide), write (by decide),
      write (by decide), write (by decide), write (by decide), fun off ho => ?_⟩
    · simp only [List.mem_cons, List.not_mem_nil, or_false] at ho
      rcases ho with rfl | rfl | rfl | rfl | rfl | rfl | rfl | rfl | rfl <;>
        exact windowWord_portWrite_scalar v hb (by decide)
    · exact (windowWord_portWrite_scalar v hb (by decide)).trans (setWidth_extractLsb'_two v)
    · simp only [List.mem_cons, List.not_mem_nil, or_false] at ho
      rcases ho with rfl | rfl | rfl | rfl | rfl <;> exact write (by decide)

end Sys2Proof.Machine

/-! What a command does is a function of the operands its rule names (10_state R21, R36). -/

namespace Sys2Proof.Machine

/-! ## The same result in two states -/

/-- Command `i` left the same in `t` and `t'`: the same phase, and with it the same error, the same first
digest request, or the same contents of its destinations. -/
structure SameResult (i : Instr) (t t' : State) : Prop where
  phase : t'.phase = t.phase
  error : t.phase = .err → t'.errCode = t.errCode ∧ t'.errInfo = t.errInfo
  request : t.phase = .busy → t'.digestReq = t.digestReq ∧ t'.chain = t.chain
  out : t.phase = .done → targetsOut i = true → t'.out = t.out
  elems : t.phase = .done → targetsElem i = true → t'.elems = t.elems
  bigx : t.phase = .done → targetsBigx i = true → t'.bigx = t.bigx

theorem out_of_outLen_zero {s : State} (h : s.outLen = 0) : s.out = [] := by
  rw [State.out, h]
  rfl

theorem elems_of_elemCnt_zero {s : State} (h : s.elemCnt = 0) : s.elems = [] := by
  rw [State.elems, h]
  rfl

/-- OUT holds the bytes listed from index 0, cut where OUT_LEN ends. -/
theorem out_of_cells {s : State} {bs : List Byte} (hm : s.outMem = cellsFrom 0 bs)
    (hl : s.outLen = BitVec.ofNat 32 bs.length) : s.out = bs.take (bs.length % 2 ^ 32) := by
  have hlen : s.outLen.toNat = bs.length % 2 ^ 32 := by rw [hl, BitVec.toNat_ofNat]
  have hle := Nat.mod_le bs.length (2 ^ 32)
  rw [State.out, hlen]
  refine List.ext_getElem (by simpa using hle) fun k h1 h2 => ?_
  have hk : k < bs.length := (List.length_take_le' _ _).trans_lt' h2
  simp [outByte_of_cells hm hk]

/-- ELEM holds the numbers listed from index 0, cut where ELEM_CNT ends. -/
theorem elems_of_cells {s : State} {vs : List Nat} (hm : s.elemMem = cellsFrom 0 vs)
    (hl : s.elemCnt = BitVec.ofNat 32 vs.length) : s.elems = vs.take (vs.length % 2 ^ 32) := by
  have hlen : s.elemCnt.toNat = vs.length % 2 ^ 32 := by rw [hl, BitVec.toNat_ofNat]
  have hle := Nat.mod_le vs.length (2 ^ 32)
  rw [State.elems, hlen]
  refine List.ext_getElem (by simpa using hle) fun k h1 h2 => ?_
  have hk : k < vs.length := (List.length_take_le' _ _).trans_lt' h2
  simp [elem_of_cells hm hk]

namespace SameResult

variable {i : Instr} (s s' : State)

theorem fail (e : CmdError) : SameResult i (failCommand i e s) (failCommand i e s') where
  phase := rfl
  error _ := ⟨rfl, rfl⟩
  request _ := ⟨rfl, rfl⟩
  out h := nomatch h
  elems h := nomatch h
  bigx h := nomatch h

/-- Completing into OUT, for a command that writes no BIGX. -/
theorem finishOut (hx : targetsBigx i = false) (bs : List Byte) :
    SameResult i (finishOut i bs s) (finishOut i bs s') where
  phase := rfl
  error h := nomatch h
  request h := nomatch h
  out _ _ := (out_of_cells rfl rfl).trans (out_of_cells rfl rfl).symm
  elems _ he := by
    have zero : ∀ u, (Machine.finishOut i bs u).elemCnt = 0 := by simp [Machine.finishOut, he]
    rw [elems_of_elemCnt_zero (zero s), elems_of_elemCnt_zero (zero s')]
  bigx _ h := absurd h (by simp [hx])

/-- Completing into ELEM, for a command that writes no BIGX. -/
theorem finishElem (hx : targetsBigx i = false) (vs : List Nat) :
    SameResult i (finishElem i vs s) (finishElem i vs s') where
  phase := rfl
  error h := nomatch h
  request h := nomatch h
  out _ ho := by
    have zero : ∀ u, (Machine.finishElem i vs u).outLen = 0 := by simp [Machine.finishElem, ho]
    rw [out_of_outLen_zero (zero s), out_of_outLen_zero (zero s')]
  elems _ _ := (elems_of_cells rfl rfl).trans (elems_of_cells rfl rfl).symm
  bigx _ h := absurd h (by simp [hx])

/-- Completing into BIGX, for a command that writes neither OUT nor ELEM. -/
theorem finishBigx (ho : targetsOut i = false) (he : targetsElem i = false) (v : Nat) :
    SameResult i (finishBigx i v s) (finishBigx i v s') where
  phase := rfl
  error h := nomatch h
  request h := nomatch h
  out _ h := absurd h (by simp [ho])
  elems _ h := absurd h (by simp [he])
  bigx _ _ := rfl

/-- Starting an expansion in BUSY. -/
theorem startChain {s s' : State} (hb : s.phase = .busy) (hb' : s'.phase = .busy)
    (msg dst : List Byte) (len : Nat) :
    SameResult i (startChain msg dst len s) (startChain msg dst len s') :=
  have busy : (Machine.startChain msg dst len s).phase = .busy := hb
  have other {p : Phase} (hp : p ≠ .busy) (h : (Machine.startChain msg dst len s).phase = p) :
      False := hp (h.symm.trans busy)
  ⟨hb'.trans hb.symm, fun h => (other (by decide) h).elim, fun _ => ⟨rfl, rfl⟩,
    fun h => (other (by decide) h).elim, fun h => (other (by decide) h).elim,
    fun h => (other (by decide) h).elim⟩

theorem endWithBytes (hx : targetsBigx i = false) (r : Except CmdError (List Byte)) :
    SameResult i (endWithBytes i r s) (endWithBytes i r s') := by
  cases r with
  | ok bs => exact finishOut s s' hx bs
  | error e => exact fail s s' e

theorem endWithElems (hx : targetsBigx i = false) (r : Except CmdError (List Nat)) :
    SameResult i (endWithElems i r s) (endWithElems i r s') := by
  cases r with
  | ok vs => exact finishElem s s' hx vs
  | error e => exact fail s s' e

variable {s s'}

/-- A test with the same outcome in both states. -/
theorem ite {c : Prop} [Decidable c] {a a' b b' : State} (ha : c → SameResult i a a')
    (hb : ¬c → SameResult i b b') :
    SameResult i (if c then a else b) (if c then a' else b') := by
  split
  · next h => exact ha h
  · next h => exact hb h

end SameResult

/-! ## The commands -/

section

variable {s s' : State} (hc : s'.cfg.caps = s.cfg.caps)
include hc

theorem runHex2bytes_sameResult (hm : SameMsg s s') :
    SameResult .hex2bytes (runHex2bytes s) (runHex2bytes s') := by
  unfold runHex2bytes
  rw [hc, hm.1]
  refine .ite (fun _ => .fail s s' _) fun h => ?_
  rw [msg_congr hm (Nat.le_of_not_lt h)]
  exact .endWithBytes s s' rfl _

theorem runBytes2hex_sameResult (hm : SameMsg s s') :
    SameResult .bytes2hex (runBytes2hex s) (runBytes2hex s') := by
  unfold runBytes2hex
  rw [hc, hm.1]
  refine .ite (fun _ => .fail s s' _) fun h => .ite (fun _ => .fail s s' _) fun _ => ?_
  rw [msg_congr hm (Nat.le_of_not_lt h)]
  exact .finishOut s s' rfl _

theorem runI2osp_sameResult (hx : s'.bigx = s.bigx) (hl : s'.lenArg = s.lenArg) :
    SameResult .i2osp (runI2osp s) (runI2osp s') := by
  unfold runI2osp
  rw [hc, hx, hl]
  exact .ite (fun _ => .fail s s' _) fun _ => .endWithBytes s s' rfl _

theorem runOs2ip_sameResult (hm : SameMsg s s') :
    SameResult .os2ip (runOs2ip s) (runOs2ip s') := by
  unfold runOs2ip
  rw [hc, hm.1]
  refine .ite (fun _ => .fail s s' _) fun h => .ite (fun _ => .fail s s' _) fun _ => ?_
  rw [msg_congr hm (Nat.le_of_not_lt h)]
  exact .finishBigx s s' rfl rfl _

theorem runConcat1_sameResult (hm : SameMsg s s') :
    SameResult .concat1 (runConcat1 s) (runConcat1 s') := by
  unfold runConcat1
  rw [hc, hm.1]
  refine .ite (fun _ => .fail s s' _) fun h => ?_
  rw [msg_congr hm (Nat.le_of_not_lt h)]
  exact .finishOut s s' rfl _

theorem runConcat2_sameResult (hm : SameMsg s s') (ht : SameTag s s') :
    SameResult .concat2 (runConcat2 s) (runConcat2 s') := by
  unfold runConcat2
  rw [hc, hm.1, ht.1]
  refine .ite (fun _ => .fail s s' _) fun h => .ite (fun _ => .fail s s' _) fun h' =>
    .ite (fun _ => .fail s s' _) fun _ => ?_
  rw [msg_congr hm (Nat.le_of_not_lt h), dst_congr ht (Nat.le_of_not_lt h')]
  exact .finishOut s s' rfl _

theorem runStr2bytes_sameResult (he : SameElems s s') :
    SameResult .str2bytes (runStr2bytes s) (runStr2bytes s') := by
  unfold runStr2bytes
  rw [hc, he.1]
  refine .ite (fun _ => .fail s s' _) fun h => ?_
  rw [elems_congr he (Nat.le_of_not_lt h)]
  exact .endWithBytes s s' rfl _

theorem runB2l_sameResult (hx : s'.bigx = s.bigx) (hn : s'.limbN = s.limbN)
    (hk : s'.limbK = s.limbK) : SameResult .b2l (runB2l s) (runB2l s') := by
  unfold runB2l
  rw [hc, hx, hn, hk]
  exact .ite (fun _ => .fail s s' _) fun _ => .ite (fun _ => .fail s s' _) fun _ =>
    .endWithElems s s' rfl _

/-- L2B reads only entries that exist, since ELEM holds a limb array (log 24). -/
theorem runL2b_sameResult (hk : s.cfg.caps.kMax ≤ s.cfg.caps.elemMax) (hn : s'.limbN = s.limbN)
    (he : SameElems s s') : SameResult .l2b (runL2b s) (runL2b s') := by
  unfold runL2b
  rw [hc, hn, he.1]
  refine .ite (fun _ => .fail s s' _) fun _ => .ite (fun _ => .fail s s' _) fun h => ?_
  rw [Bool.not_eq_false, limbCountOk_iff] at h
  rw [elems_congr he (h.2.trans hk)]
  exact .ite (fun _ => .fail s s' _) fun _ => .finishBigx s s' rfl rfl _

theorem runHex2byteints_sameResult (hm : SameMsg s s') :
    SameResult .hex2byteints (runHex2byteints s) (runHex2byteints s') := by
  unfold runHex2byteints
  rw [hc, hm.1]
  refine .ite (fun _ => .fail s s' _) fun h => .ite (fun _ => .fail s s' _) fun _ => ?_
  rw [msg_congr hm (Nat.le_of_not_lt h)]
  exact .endWithElems s s' rfl _

/-- XMD's first turn: its error, or the request of `H(msg')` (41 R148). -/
theorem startXmd_sameResult (hb : s.phase = .busy) (hb' : s'.phase = .busy) (hm : SameMsg s s')
    (ht : SameTag s s') (hl : s'.lenArg = s.lenArg)
    (hd : s'.cfg.digestPresent = s.cfg.digestPresent) :
    SameResult .xmd (startXmd s) (startXmd s') := by
  unfold startXmd
  rw [hc, hm.1, ht.1, hl, hd]
  refine .ite (fun _ => .fail s s' _) fun h => ?_
  cases hf : xmdFailure s.cfg.digestPresent s.dstLen.toNat s.lenArg.toNat with
  | some e => exact .fail s s' e
  | none =>
    obtain ⟨-, -, hdst, -⟩ := le_of_xmdFailure_none hf
    rw [msg_congr hm (Nat.le_of_not_lt h), dst_congr ht hdst]
    exact .startChain hb hb' _ _ _

end

/-- H2F's first turn: its error, its result, or the request of `H(msg')` (42 R167). -/
theorem startH2f_sameResult {s s' : State} {p m k d e v : Bool} (c : H2fConfig)
    (hb : s.phase = .busy) (hb' : s'.phase = .busy) (hm : SameMsg s s') (hn : s'.count = s.count)
    (hg : s'.cfg = s.cfg) :
    SameResult (.h2f p m k d e v) (startH2f (.h2f p m k d e v) c s)
      (startH2f (.h2f p m k d e v) c s') := by
  unfold startH2f
  rw [hg, hm.1, hn]
  cases hf : h2fFailure s.cfg c s.count.toNat s.msgLen.toNat with
  | some err => exact .fail s s' err
  | none =>
    obtain ⟨hlen, -⟩ := h2fOperandFailure_none (h2fFailure_none hf).1
    rw [msg_congr hm hlen]
    refine .ite (fun _ => .startChain hb hb' _ _ _) fun _ => ?_
    unfold finishH2f
    rw [hn]
    exact .finishElem s s' rfl _

theorem runXmd_of_no_chain {s : State} (h : s.chain = none) : runXmd s = startXmd s := by
  unfold runXmd
  rw [h]

theorem runH2f_of_no_chain {s : State} (h : s.chain = none) (p m k d e v : Bool) :
    runH2f p m k d e v s = startH2f (.h2f p m k d e v) (resolveH2f p m k d e v s) s := by
  unfold runH2f
  rw [h]

/-- CLR leaves IDLE, where no result is asked for. -/
theorem clearStatus_sameResult (s s' : State) :
    SameResult .clr (clearStatus s) (clearStatus s') where
  phase := rfl
  error h := nomatch h
  request h := nomatch h
  out h := nomatch h
  elems h := nomatch h
  bigx h := nomatch h

/-- The first turn of a command ends alike in two states that agree on its operands. -/
theorem exec_sameResult {i : Instr} {s s' t t' : State} (hk : s.cfg.caps.kMax ≤ s.cfg.caps.elemMax)
    (h : SameOperands i s s') (hb : s.phase = .busy) (hb' : s'.phase = .busy)
    (hch : s.chain = none) (hch' : s'.chain = none) (ht : exec i s = .next t)
    (ht' : exec i s' = .next t') : SameResult i t t' := by
  cases i <;> cases ht <;> cases ht' <;> obtain ⟨hc, ho⟩ := h
  case clr => exact clearStatus_sameResult s s'
  case hex2bytes => exact runHex2bytes_sameResult hc ho
  case bytes2hex => exact runBytes2hex_sameResult hc ho
  case i2osp => exact runI2osp_sameResult hc ho.1 ho.2
  case os2ip => exact runOs2ip_sameResult hc ho
  case concat0 => exact .finishOut s s' rfl _
  case concat1 => exact runConcat1_sameResult hc ho
  case concat2 => exact runConcat2_sameResult hc ho.1 ho.2
  case str2bytes => exact runStr2bytes_sameResult hc ho
  case xmd =>
    obtain ⟨hm, htag, hl, hd⟩ := ho
    rw [runXmd_of_no_chain hch, runXmd_of_no_chain hch']
    exact startXmd_sameResult hc hb hb' hm htag hl hd
  case h2f p m k d e v =>
    have hcf := resolveH2f_congr (s := s) (t := s') (e := e) (v := v) ⟨hc, ho⟩
    obtain ⟨hm, hn, hg, -⟩ := ho
    rw [runH2f_of_no_chain hch, runH2f_of_no_chain hch', hcf]
    exact startH2f_sameResult _ hb hb' hm hn hg
  case b2l =>
    obtain ⟨hx, hn, hk'⟩ := ho
    exact runB2l_sameResult hc hx hn hk'
  case l2b => exact runL2b_sameResult hc hk ho.1 ho.2
  case hex2byteints => exact runHex2byteints_sameResult hc ho

/-- Settles O26: every command's first turn reads its operands alone. -/
theorem resultsDependOnOperandsAlone : Obligations.ResultsDependOnOperandsAlone := by
  intro i s s' t t' hk h hb hb' hch hch' ht ht'
  obtain ⟨hphase, herror, hrequest, hout, helems, hbigx⟩ :=
    exec_sameResult hk h hb hb' hch hch' ht ht'
  exact ⟨hphase, herror, hrequest, hout, helems, hbigx⟩

end Sys2Proof.Machine

/-! Storage and the wide registers at the host port, and the port of a running command (20_memory R64,
R70, R76, R77; 10_state R37, R38, R41 to R47). -/

namespace Sys2Proof.Machine

/-! ## The port of a running command -/

/-- While BUSY a CMD write is dropped and sets OVR (44_system R200). -/
theorem issue_of_busy {s : State} (hb : s.phase = .busy) (w : Word) :
    issue w s = .next { s with ovr := true } := by
  unfold issue
  rw [hb]

/-- While BUSY every offset but that of IE ignores a host write (20_memory R76). -/
theorem portWrite_of_busy {s : State} {off : Nat} (hb : s.phase = .busy) (ho : off ≠ 0x010)
    (v : Word) : portWrite off v s = s := by
  rw [portWrite, if_pos hb, if_neg ho]

/-- Outside BUSY the window takes a host write. -/
theorem portWrite_of_not_busy {s : State} (hb : s.phase ≠ .busy) (off : Nat) (v : Word) :
    portWrite off v s = writeWindow off v s := if_neg hb

/-- Settles O13: a CMD write is dropped, the other offsets but IE's ignore the write. -/
theorem busyIgnoresHostWrites : Obligations.BusyIgnoresHostWrites := by
  intro s a v rest hr hb hi
  have turn : takeTurn (.write a v) { s with inputs := rest } =
      if a = 0 then issue v { s with inputs := rest }
      else .next (portWrite (4 * a.toNat) v { s with inputs := rest }) := if_neg (by simp [hr])
  rw [step_cons hi, turn]
  by_cases h0 : a = 0
  · rw [if_pos h0, if_pos h0]
    exact issue_of_busy (s := { s with inputs := rest }) hb v
  · rw [if_neg h0, if_neg h0]
    by_cases h4 : a = 4
    · rw [if_pos h4, h4]
      exact congrArg Host.Outcome.next (if_pos hb)
    · have ho : 4 * a.toNat ≠ 0x010 := fun h =>
        h4 (BitVec.eq_of_toNat_eq (Nat.eq_of_mul_eq_mul_left (by decide) h))
      rw [if_neg h4, portWrite_of_busy (s := { s with inputs := rest }) hb ho]

/-- Settles O15: no scalar register is hidden, and PhaseOk keeps the lengths of the running command's
destinations at 0. -/
theorem busyLengthsReadZero : Obligations.BusyLengthsReadZero := by
  intro s i rest hp hb hi
  obtain ⟨j, hj, -, hout, helem⟩ := hp.busy hb
  obtain rfl : i = j := Option.some.inj (hi.symm.trans hj)
  refine ⟨fun ht h => ⟨_, step_cons h, ?_⟩, fun ht h => ⟨_, step_cons h, ?_⟩,
    fun h => ⟨_, step_cons h, ?_⟩⟩
  · exact (portRead_rdata_of_scalar _ (by decide)).trans (hout ht)
  · exact (portRead_rdata_of_scalar _ (by decide)).trans (helem ht)
  · rw [portRead_rdata_of_scalar _ (by decide)]
    have bit (k : Nat) := getLsbD_statusWord { s with inputs := rest } k
    refine ⟨(bit 0).trans ?_, (bit 1).trans ?_, (bit 2).trans ?_⟩ <;> simp [hb]

/-! ## The window by region -/

section

variable (s : State) {off : Nat} (v : Word)

theorem not_inBigx (h : off < 0x100 ∨ 0x180 ≤ off) :
    ¬ (Config.bigxBase ≤ off ∧ off < Config.bigxEnd) := by
  simp only [Config.bigxBase, Config.bigxEnd]
  omega

theorem not_inPOvr (h : off < 0x180 ∨ 0x1B0 ≤ off) :
    ¬ (Config.pOvrBase ≤ off ∧ off < Config.pOvrEnd) := by
  simp only [Config.pOvrBase, Config.pOvrEnd]
  omega

theorem windowWord_bigx (h : 0x100 ≤ off) (h' : off < 0x180) :
    s.windowWord off = wideWord s.bigx ((off - 0x100) / 4) := by
  rw [State.windowWord, if_neg (by omega), if_pos ⟨h, h'⟩]
  rfl

theorem windowWord_pOvr (h : 0x180 ≤ off) (h' : off < 0x1B0) :
    s.windowWord off = wideWord s.pOvr ((off - 0x180) / 4) := by
  rw [State.windowWord, if_neg (by omega), if_neg (not_inBigx (by omega)), if_pos ⟨h, h'⟩]
  rfl

theorem windowWord_elem (h : 0x8000 ≤ off) (h' : off < 0xC000) :
    s.windowWord off = s.elemWord off := by
  rw [State.windowWord, if_neg (by omega), if_neg (not_inBigx (by omega)),
    if_neg (not_inPOvr (by omega)), if_pos ⟨h, h'⟩]

/-- What is no register and no ELEM slot reads as four lanes, mapped or not (20_memory R70). -/
theorem windowWord_buffer (h : 0x40 ≤ off ∧ off < 0x100 ∨ 0x1B0 ≤ off)
    (h' : off < 0x8000 ∨ 0xC000 ≤ off) : s.windowWord off = s.bufferWord off := by
  have hnot : ¬ (Config.elemBase ≤ off ∧ off < Config.elemEnd) := by
    simp only [Config.elemBase, Config.elemEnd]
    omega
  rw [State.windowWord, if_neg (by omega), if_neg (not_inBigx (by omega)),
    if_neg (not_inPOvr (by omega)), if_neg hnot]

theorem writeWindow_bigx (h : 0x100 ≤ off) (h' : off < 0x180) : writeWindow off v s =
    { s with bigx := setWideWord s.cfg.caps.xw s.bigx ((off - 0x100) / 4) v } := by
  rw [writeWindow, if_neg (by omega), if_pos ⟨h, h'⟩]
  rfl

theorem writeWindow_pOvr (h : 0x180 ≤ off) (h' : off < 0x1B0) : writeWindow off v s =
    { s with pOvr := setWideWord s.cfg.caps.pw s.pOvr ((off - 0x180) / 4) v } := by
  rw [writeWindow, if_neg (by omega), if_neg (not_inBigx (by omega)), if_pos ⟨h, h'⟩]
  rfl

theorem writeWindow_elem (h : 0x8000 ≤ off) (h' : off < 0xC000) :
    writeWindow off v s = writeElemWord off v s := by
  rw [writeWindow, if_neg (by omega), if_neg (not_inBigx (by omega)),
    if_neg (not_inPOvr (by omega)), if_pos ⟨h, h'⟩]

theorem writeWindow_buffer (h : 0x40 ≤ off ∧ off < 0x100 ∨ 0x1B0 ≤ off)
    (h' : off < 0x8000 ∨ 0xC000 ≤ off) : writeWindow off v s = writeBufferWord off v s := by
  have hnot : ¬ (Config.elemBase ≤ off ∧ off < Config.elemEnd) := by
    simp only [Config.elemBase, Config.elemEnd]
    omega
  rw [writeWindow, if_neg (by omega), if_neg (not_inBigx (by omega)),
    if_neg (not_inPOvr (by omega)), if_neg hnot]

end

/-! ## Words of a wide register -/

section

variable {w x : Nat} (hx : x < 2 ^ w) (v : Word)
include hx

/-- `wideWord_setWideWord` as numbers. -/
theorem setWideWord_div_mod (j k : Nat) : setWideWord w x j v / 2 ^ (32 * k) % 2 ^ 32 =
    if k = j then v.toNat % 2 ^ (w - 32 * j) else x / 2 ^ (32 * k) % 2 ^ 32 := by
  rw [← toNat_wideWord, ← toNat_wideWord, wideWord_setWideWord hx]
  split
  · exact Nat.mod_eq_of_lt ((Nat.mod_le _ _).trans_lt v.isLt)
  · rfl

theorem wideWord_setWideWord_other {j k : Nat} (h : k ≠ j) :
    wideWord (setWideWord w x j v) k = wideWord x k := by
  rw [wideWord_setWideWord hx, if_neg h]

/-- A word that lies within the width reads back whole. -/
theorem wideWord_setWideWord_whole {j : Nat} (h : 32 * j + 32 ≤ w) :
    wideWord (setWideWord w x j v) j = v := by
  have hv : v.toNat < 2 ^ (w - 32 * j) :=
    v.isLt.trans_le (Nat.pow_le_pow_right (by decide) (by omega))
  rw [wideWord_setWideWord hx, if_pos rfl, Nat.mod_eq_of_lt hv, BitVec.ofNat_toNat,
    BitVec.setWidth_eq]

/-- A word that the width cuts reads back the bits below it. -/
theorem toNat_wideWord_setWideWord (j : Nat) :
    (wideWord (setWideWord w x j v) j).toNat = v.toNat % 2 ^ (w - 32 * j) := by
  rw [toNat_wideWord, setWideWord_div_mod hx, if_pos rfl]

/-- The 32 bits of the word are replaced as far as the width goes, and no other bit. -/
theorem testBit_setWideWord_of_lt (j i : Nat) : (setWideWord w x j v).testBit i =
    if 32 * j ≤ i ∧ i < 32 * j + 32 then decide (i < w) && v.getLsbD (i - 32 * j)
    else x.testBit i := by
  have hold : (decide (i < w) && x.testBit i) = x.testBit i := by
    by_cases hi : i < w
    · simp [hi]
    · simp [Nat.testBit_lt_two_pow (hx.trans_le (Nat.pow_le_pow_right (by decide)
        (Nat.le_of_not_lt hi)))]
  rw [testBit_setWideWord]
  by_cases hlow : i < 32 * j
  · rw [if_pos hlow, if_neg (by omega), hold]
  · rw [if_neg hlow]
    by_cases hhigh : i < 32 * j + 32
    · rw [if_pos hhigh, if_pos ⟨Nat.le_of_not_lt hlow, hhigh⟩]
      rfl
    · rw [if_neg hhigh, if_neg fun h => hhigh h.2, hold]

end

/-- Settles O17: at the port word `j` of a wide register is its `wideWord`, and a write there is one
`setWideWord`. -/
theorem wideRegisterWordsReadBack : Obligations.WideRegisterWordsReadBack := by
  have bigxAt (s : State) {j : Nat} (hj : j < 32) :
      s.windowWord (0x100 + 4 * j) = wideWord s.bigx j := by
    rw [windowWord_bigx s (by omega) (by omega), show (0x100 + 4 * j - 0x100) / 4 = j by omega]
  have pOvrAt (s : State) {j : Nat} (hj : j < 12) :
      s.windowWord (0x180 + 4 * j) = wideWord s.pOvr j := by
    rw [windowWord_pOvr s (by omega) (by omega), show (0x180 + 4 * j - 0x180) / 4 = j by omega]
  refine ⟨fun s j => ⟨fun hj => ?_, fun hj => ?_⟩,
    fun s v j k hb hw => ⟨fun hj hk => ?_, fun hj hk => ?_⟩⟩
  · rw [bigxAt s hj, toNat_wideWord]
  · rw [pOvrAt s hj, toNat_wideWord]
  · rw [portWrite_of_not_busy hb, writeWindow_bigx s v (by omega) (by omega),
      show (0x100 + 4 * j - 0x100) / 4 = j by omega]
    simp only [bigxAt _ hj, bigxAt _ hk]
    exact ⟨wideWord_setWideWord_other hw.bigx v, wideWord_setWideWord_whole hw.bigx v,
      fun _ => toNat_wideWord_setWideWord hw.bigx v j, testBit_setWideWord_of_lt hw.bigx v j,
      trivial,
      setWideWord_lt _ _ _ _, hw.pOvr⟩
  · rw [portWrite_of_not_busy hb, writeWindow_pOvr s v (by omega) (by omega),
      show (0x180 + 4 * j - 0x180) / 4 = j by omega]
    simp only [pOvrAt _ hj, pOvrAt _ hk]
    exact ⟨wideWord_setWideWord_other hw.pOvr v, wideWord_setWideWord_whole hw.pOvr v,
      fun _ => toNat_wideWord_setWideWord hw.pOvr v j, testBit_setWideWord_of_lt hw.pOvr v j,
      trivial,
      hw.bigx, setWideWord_lt _ _ _ _⟩

/-! ## Reading the lanes -/

/-- Lane `l` of a buffer word is the byte at offset `off + l` (20_memory R64). -/
theorem extractLsb'_bufferWord (s : State) (off : Nat) {l : Nat} (hl : l < 4) :
    (s.bufferWord off).extractLsb' (8 * l) 8 = s.portByte (off + l) := by
  unfold State.bufferWord
  interval_cases l
  · rw [BitVec.extractLsb'_append_eq_of_add_le (by decide)]
    exact BitVec.extractLsb'_eq_self
  · rw [BitVec.extractLsb'_append_eq_of_le (by decide)]
    exact BitVec.extractLsb'_append_eq_right
  · rw [BitVec.extractLsb'_append_eq_of_le (by decide),
      BitVec.extractLsb'_append_eq_of_le (by decide)]
    exact BitVec.extractLsb'_append_eq_right
  · rw [BitVec.extractLsb'_append_eq_of_le (by decide),
      BitVec.extractLsb'_append_eq_of_le (by decide)]
    exact BitVec.extractLsb'_append_eq_left

theorem portByte_dstb (s : State) {a : Nat} (h : 0x200 ≤ a) (h' : a < 0x300) :
    s.portByte a = if a = 0x2FF then 0 else s.dstByte (a - 0x200) := by
  have hm : ¬ inMsg s.cfg.caps a = true := by rw [inMsg_iff]; omega
  have ho : ¬ inOut s.cfg.caps a = true := by rw [inOut_iff]; omega
  rw [State.portByte, if_neg hm, if_neg ho]
  split
  · next hd => rw [if_neg (by rw [inDstb_iff] at hd; omega)]; rfl
  · next hd => rw [if_pos (by rw [inDstb_iff] at hd; omega)]

theorem portByte_msg (s : State) {a : Nat} (h : 0x1000 ≤ a) (h' : a < 0x3000) : s.portByte a =
    if a - 0x1000 < s.cfg.caps.msgMax then s.msgByte (a - 0x1000) else 0 := by
  have hd : ¬ inDstb a = true := by rw [inDstb_iff]; omega
  have ho : ¬ inOut s.cfg.caps a = true := by rw [inOut_iff]; omega
  rw [State.portByte, if_neg hd, if_neg ho]
  split
  · next hm => rw [if_pos ((inMsg_iff _ _).1 hm).2]; rfl
  · next hm => rw [if_neg fun hlt => hm ((inMsg_iff _ _).2 ⟨⟨h, h'⟩, hlt⟩)]

theorem portByte_out (s : State) {a : Nat} (h : 0x3000 ≤ a) (h' : a < 0x5000) : s.portByte a =
    if a - 0x3000 < s.cfg.caps.outMax then s.outByte (a - 0x3000) else 0 := by
  have hd : ¬ inDstb a = true := by rw [inDstb_iff]; omega
  have hm : ¬ inMsg s.cfg.caps a = true := by rw [inMsg_iff]; omega
  rw [State.portByte, if_neg hd, if_neg hm]
  split
  · next ho => rw [if_pos ((inOut_iff _ _).1 ho).2]; rfl
  · next ho => rw [if_neg fun hlt => ho ((inOut_iff _ _).2 ⟨⟨h, h'⟩, hlt⟩)]

theorem toNat_elemWord (s : State) {off : Nat} (h : 0x8000 ≤ off) (h' : off < 0xC000) :
    (s.elemWord off).toNat =
      if (off - 0x8000) / 64 < s.cfg.caps.elemMax ∧ 32 * (off % 64 / 4) < s.cfg.caps.ew then
        s.elem ((off - 0x8000) / 64) / 2 ^ (32 * (off % 64 / 4)) % 2 ^ 32
      else 0 := by
  unfold State.elemWord
  simp only [inElem_iff, h, h', and_self, true_and]
  split
  · exact toNat_wideWord _ _
  · rfl

/-- Settles O19: a word of a buffer is four lanes, a word of ELEM is `elemWord`. -/
theorem storageReadImages : Obligations.StorageReadImages := by
  intro s off l ha hl
  have lane (hr : 0x1B0 ≤ off) (he : off < 0x8000) :
      (s.windowWord off).extractLsb' (8 * l) 8 = s.portByte (off + l) := by
    rw [windowWord_buffer s (.inr hr) (.inl he), extractLsb'_bufferWord s off hl]
  refine ⟨fun h h' => ?_, fun h h' => ?_, fun h h' => ?_, fun h h' => ?_⟩
  · rw [lane (by omega) (by omega), portByte_msg s (by omega) (by omega)]
  · rw [lane (by omega) (by omega), portByte_out s (by omega) (by omega)]
  · rw [lane (by omega) (by omega), portByte_dstb s (by omega) (by omega)]
  · rw [windowWord_elem s h h', toNat_elemWord s h h']

/-! ## Writing the lanes -/

@[simp] theorem writeLane_cfg (a : Nat) (b : Byte) (s : State) : (writeLane a b s).cfg = s.cfg := by
  obtain ⟨m, d, h⟩ := writeLane_frame a b s
  rw [h]

/-- A lane that is no byte of DSTB or MSG is ignored (20_memory R70). -/
theorem writeLane_absent {s : State} {a : Nat} (hd : ¬ inDstb a = true)
    (hm : ¬ inMsg s.cfg.caps a = true) (b : Byte) : writeLane a b s = s := by
  rw [writeLane, if_neg hd, if_neg hm]

/-- What each lane of a write keeps, the write keeps. -/
theorem writeBufferWord_induction {P : State → Prop} {s : State} {off : Nat} (v : Word) (h : P s)
    (lane : ∀ l < 4, ∀ b u, P u → P (writeLane (off + l) b u)) : P (writeBufferWord off v s) :=
  lane 3 (by decide) _ _ <| lane 2 (by decide) _ _ <| lane 1 (by decide) _ _ <|
    lane 0 (by decide) _ _ h

/-- A read at offset `x` that a lane written at `x` replaces, where that byte exists: a write of the word
stores there the lane of `x`. -/
theorem read_writeBufferWord (read : State → Byte) (x : Nat) (byteAt : Config.Params → Bool)
    (lane : ∀ a b u, read (writeLane a b u) = if x = a ∧ byteAt u.cfg = true then b else read u)
    (off : Nat) (v : Word) (s : State) : read (writeBufferWord off v s) =
      if off ≤ x ∧ x < off + 4 ∧ byteAt s.cfg = true then v.extractLsb' (8 * (x - off)) 8
      else read s := by
  simp only [writeBufferWord, lane, writeLane_cfg]
  by_cases hc : byteAt s.cfg = true
  · by_cases hx : off ≤ x ∧ x < off + 4
    · obtain ⟨l, rfl⟩ := Nat.exists_eq_add_of_le hx.1
      have hl : l < 4 := by omega
      interval_cases l <;> simp [hc]
    · have hne : x ≠ off + 3 ∧ x ≠ off + 2 ∧ x ≠ off + 1 ∧ x ≠ off := by omega
      simp [hne, hc, hx]
  · simp [hc]

theorem dstByte_writeLane (k a : Nat) (b : Byte) (s : State) : (writeLane a b s).dstByte k =
    if 0x200 + k = a ∧ inDstb (0x200 + k) = true then b else s.dstByte k := by
  unfold writeLane
  split
  · next hd =>
    have hk : k = a - Config.dstbBase ↔ 0x200 + k = a ∧ inDstb (0x200 + k) = true := by
      rw [inDstb_iff] at *
      simp only [Config.dstbBase]
      omega
    simp only [State.dstByte, get?_put, ← hk]
    split <;> rfl
  · next hd =>
    have hk : ¬ (0x200 + k = a ∧ inDstb (0x200 + k) = true) := fun ⟨hx, hi⟩ => hd (hx ▸ hi)
    rw [if_neg hk]
    split <;> rfl

theorem msgByte_writeLane (k a : Nat) (b : Byte) (s : State) : (writeLane a b s).msgByte k =
    if 0x1000 + k = a ∧ inMsg s.cfg.caps (0x1000 + k) = true then b else s.msgByte k := by
  unfold writeLane
  split
  · next hd =>
    rw [if_neg fun h => by rw [inDstb_iff] at hd; omega]
    rfl
  · split
    · next hm =>
      have hk : k = a - Config.msgBase ↔
          0x1000 + k = a ∧ inMsg s.cfg.caps (0x1000 + k) = true := by
        rw [inMsg_iff] at *
        simp only [Config.msgBase]
        omega
      simp only [State.msgByte, get?_put, ← hk]
      split <;> rfl
    · next hm =>
      have hk : ¬ (0x1000 + k = a ∧ inMsg s.cfg.caps (0x1000 + k) = true) :=
        fun ⟨hx, hi⟩ => hm (hx ▸ hi)
      rw [if_neg hk]

/-- A write at an offset of DSTB changes DSTB alone. -/
theorem writeBufferWord_dstb (s : State) {off : Nat} (v : Word) (h : 0x200 ≤ off)
    (h' : off + 3 < 0x1000) :
    writeBufferWord off v s = { s with dstMem := (writeBufferWord off v s).dstMem } := by
  refine writeBufferWord_induction (P := fun u => u = { s with dstMem := u.dstMem }) v rfl
    fun l hl b u hu => ?_
  have hm : ¬ inMsg u.cfg.caps (off + l) = true := by rw [inMsg_iff]; omega
  rw [writeLane, if_neg hm]
  split
  · rw [hu]
  · exact hu

/-- A write at an offset of MSG changes MSG alone. -/
theorem writeBufferWord_msg (s : State) {off : Nat} (v : Word) (h : 0x1000 ≤ off) :
    writeBufferWord off v s = { s with msgMem := (writeBufferWord off v s).msgMem } := by
  refine writeBufferWord_induction (P := fun u => u = { s with msgMem := u.msgMem }) v rfl
    fun l hl b u hu => ?_
  have hd : ¬ inDstb (off + l) = true := by rw [inDstb_iff]; omega
  rw [writeLane, if_neg hd]
  split
  · rw [hu]
  · exact hu

theorem elem_writeElemWord (off : Nat) (v : Word) (s : State) (e : Nat) :
    (writeElemWord off v s).elem e =
      if inElem s.cfg.caps off = true ∧ e = elemIndex off then
        setWideWord s.cfg.caps.ew (s.elem e) (elemWordIndex off) v
      else s.elem e := by
  unfold writeElemWord
  split
  · next hi =>
    by_cases he : e = elemIndex off
    · subst he
      simp [State.elem, get?_put, hi]
    · simp [State.elem, get?_put, he]
  · next hi => rw [if_neg fun h => hi h.1]

/-- A write to an ELEM slot replaces one word of its entry's number, as far as the entry has it. -/
theorem elem_writeElemWord_div_mod {s : State} {off : Nat} (v : Word) (h : 0x8000 ≤ off)
    (h' : off < 0xC000) (hw : ∀ e, s.elem e < 2 ^ s.cfg.caps.ew) (e k : Nat) :
    (writeElemWord off v s).elem e / 2 ^ (32 * k) % 2 ^ 32 =
      if e = (off - 0x8000) / 64 ∧ k = off % 64 / 4 ∧ e < s.cfg.caps.elemMax then
        v.toNat % 2 ^ (s.cfg.caps.ew - 32 * k)
      else s.elem e / 2 ^ (32 * k) % 2 ^ 32 := by
  rw [elem_writeElemWord]
  by_cases hi : inElem s.cfg.caps off = true ∧ e = elemIndex off
  · obtain ⟨hin, he⟩ := hi
    have hmax : e < s.cfg.caps.elemMax := he ▸ ((inElem_iff _ _).1 hin).1.2
    rw [if_pos ⟨hin, he⟩, setWideWord_div_mod (hw e)]
    by_cases hk : k = elemWordIndex off
    · rw [if_pos hk, if_pos ⟨he, hk, hmax⟩, hk]
    · rw [if_neg hk, if_neg fun h => hk h.2.1]
  · rw [if_neg hi]
    split
    · next hek =>
      obtain ⟨he, hk, hmax⟩ := hek
      have hew : s.cfg.caps.ew ≤ 32 * k := by
        by_contra hlt
        exact hi ⟨(inElem_iff _ _).2 ⟨⟨⟨h, h'⟩, he ▸ hmax⟩, hk ▸ Nat.lt_of_not_le hlt⟩, he⟩
      rw [Nat.sub_eq_zero_of_le hew, pow_zero, Nat.mod_one, Nat.div_eq_of_lt
        ((hw e).trans_le (Nat.pow_le_pow_right (by decide) hew)), Nat.zero_mod]
    · rfl

/-- Settles O18: a write of the word is four writes of a lane, or one `setWideWord` of the entry. -/
theorem storageLanesReadBack : Obligations.StorageLanesReadBack := by
  intro s off v hb ha
  simp only [portWrite_of_not_busy hb]
  refine ⟨fun h h' => ?_, fun h h' => ?_, fun h h' hw => ?_⟩
  · rw [writeWindow_buffer s v (.inr (by omega)) (.inl (by omega))]
    refine ⟨writeBufferWord_msg s v h, fun k => ?_⟩
    refine (read_writeBufferWord (·.msgByte k) (0x1000 + k) (fun c => inMsg c.caps (0x1000 + k))
      (msgByte_writeLane k) off v s).trans (if_congr ?_ rfl rfl)
    rw [inMsg_iff]
    omega
  · rw [writeWindow_buffer s v (.inr (by omega)) (.inl (by omega))]
    refine ⟨writeBufferWord_dstb s v h (by omega), fun k => ?_⟩
    refine (read_writeBufferWord (·.dstByte k) (0x200 + k) (fun _ => inDstb (0x200 + k))
      (dstByte_writeLane k) off v s).trans (if_congr ?_ rfl rfl)
    rw [inDstb_iff]
    omega
  · rw [writeWindow_elem s v h h']
    obtain ⟨m, hm⟩ := writeElemWord_frame off v s
    exact ⟨by rw [hm], elem_writeElemWord_div_mod v h h' hw⟩

/-! ## What ignores the host -/

/-- An offset other than IE's that the window leaves alone ignores a host write in every phase. -/
theorem portWrite_of_ignored {s : State} {off : Nat} {v : Word} (ho : off ≠ 0x010)
    (h : writeWindow off v s = s) : portWrite off v s = s := by
  by_cases hb : s.phase = .busy
  · exact portWrite_of_busy hb ho v
  · exact (portWrite_of_not_busy hb off v).trans h

/-- A write whose four lanes are no byte of DSTB or MSG is ignored (20_memory R70). -/
theorem portWrite_of_no_lane {s : State} {off : Nat} (v : Word)
    (hr : 0x40 ≤ off ∧ off < 0x100 ∨ 0x1B0 ≤ off) (he : off < 0x8000 ∨ 0xC000 ≤ off)
    (hd : ∀ l < 4, ¬ inDstb (off + l) = true) (hm : ∀ l < 4, ¬ inMsg s.cfg.caps (off + l) = true) :
    portWrite off v s = s := by
  refine portWrite_of_ignored (by omega) ?_
  rw [writeWindow_buffer s v hr he]
  refine writeBufferWord_induction (P := fun u => u = s) v rfl fun l hl b u hu => ?_
  rw [hu, writeLane_absent (hd l hl) (hm l hl)]

/-- A word whose top byte does not exist reads below `2 ^ 24`. -/
theorem toNat_bufferWord_lt {s : State} {off : Nat} (h : s.portByte (off + 3) = 0) :
    (s.bufferWord off).toNat < 2 ^ 24 := by
  have htop := congrArg BitVec.toNat (extractLsb'_bufferWord s off (l := 3) (by decide))
  rw [h, BitVec.extractLsb'_toNat, Nat.shiftRight_eq_div_pow] at htop
  change _ = 0 at htop
  omega

theorem bufferWord_eq_zero {s : State} {off : Nat} (h : ∀ l < 4, s.portByte (off + l) = 0) :
    s.bufferWord off = 0 := by
  have h0 : s.portByte off = 0 := h 0 (by decide)
  rw [State.bufferWord, h 3 (by decide), h 2 (by decide), h 1 (by decide), h0]
  decide

/-- The low three lanes of a word do not see its top byte. -/
theorem extractLsb'_and_low_lanes (v : Word) {l : Nat} (hl : l < 3) :
    (v &&& 0x00FFFFFF).extractLsb' (8 * l) 8 = v.extractLsb' (8 * l) 8 := by
  have hmask : (0x00FFFFFF : Word).extractLsb' (8 * l) 8 = BitVec.allOnes 8 := by
    interval_cases l <;> rfl
  rw [BitVec.extractLsb'_and, hmask, BitVec.and_allOnes]

/-- Of the word at 0x2FC only the low three lanes are stored (10_state R46). -/
theorem writeBufferWord_low_lanes (s : State) (v : Word) :
    writeBufferWord 0x2FC (v &&& 0x00FFFFFF) s = writeBufferWord 0x2FC v s := by
  have top (b : Byte) (u : State) : writeLane (0x2FC + 3) b u = u :=
    writeLane_absent (by rw [inDstb_iff]; decide) (by rw [inMsg_iff]; omega) b
  have lane {l : Nat} (hl : l < 3) := extractLsb'_and_low_lanes v hl
  rw [writeBufferWord, writeBufferWord, top, top]
  rw [lane (l := 0) (by decide), lane (l := 1) (by decide), lane (l := 2) (by decide)]

/-- An ELEM word past the entry's width or past the last entry reads 0 and ignores writes (10_state R43;
log 7). -/
theorem elem_port_of_absent {s : State} {off : Nat} (v : Word) (h : 0x8000 ≤ off)
    (h' : off < 0xC000) (hno : ¬ inElem s.cfg.caps off = true) :
    s.windowWord off = 0 ∧ portWrite off v s = s := by
  refine ⟨?_, portWrite_of_ignored (by omega) ?_⟩
  · rw [windowWord_elem s h h', State.elemWord, if_neg hno]
  · rw [writeWindow_elem s v h h', writeElemWord, if_neg hno]

/-- Settles O20: no lane of these words is storage that the host may write, and none of the unmapped ones
is storage at all. -/
theorem unmappedAndReadOnlyOffsets : Obligations.UnmappedAndReadOnlyOffsets := by
  intro s off v ha
  have elemAbsent (h : 0x8000 ≤ off ∧ off < 0xC000)
      (hno : s.cfg.caps.ew ≤ 32 * (off % 64 / 4) ∨ s.cfg.caps.elemMax ≤ (off - 0x8000) / 64) :
      s.windowWord off = 0 ∧ portWrite off v s = s :=
    elem_port_of_absent v h.1 h.2 (by rw [inElem_iff]; omega)
  have top (u : State) : (u.windowWord 0x2FC).toNat < 2 ^ 24 := by
    rw [windowWord_buffer u (.inr (by decide)) (.inl (by decide))]
    exact toNat_bufferWord_lt (portByte_dstb u (by decide) (by decide))
  refine ⟨fun h => ?_, fun h => ?_, ⟨top s, top _, ?_⟩, elemAbsent, fun h hc h48 => ?_⟩
  · have hd (l : Nat) (hl : l < 4) : ¬ inDstb (off + l) = true := by rw [inDstb_iff]; omega
    have hm (l : Nat) (hl : l < 4) : ¬ inMsg s.cfg.caps (off + l) = true := by
      rw [inMsg_iff]; omega
    have ho (l : Nat) (hl : l < 4) : ¬ inOut s.cfg.caps (off + l) = true := by
      rw [inOut_iff]; omega
    refine ⟨?_, portWrite_of_no_lane v (by omega) (by omega) hd hm⟩
    rw [windowWord_buffer s (by omega) (by omega)]
    refine bufferWord_eq_zero fun l hl => ?_
    rw [State.portByte, if_neg (hd l hl), if_neg (hm l hl), if_neg (ho l hl)]
  · exact portWrite_of_no_lane v (by omega) (by omega)
      (fun l hl => by rw [inDstb_iff]; omega) (fun l hl => by rw [inMsg_iff]; omega)
  · by_cases hb : s.phase = .busy
    · rw [portWrite_of_busy hb (by decide), portWrite_of_busy hb (by decide)]
    · rw [portWrite_of_not_busy hb, portWrite_of_not_busy hb,
        writeWindow_buffer s _ (.inr (by decide)) (.inl (by decide)),
        writeWindow_buffer s _ (.inr (by decide)) (.inl (by decide)), writeBufferWord_low_lanes]
  · have hew : s.cfg.caps.ew = 384 := by rw [hc]; rfl
    exact elemAbsent h (.inl (by omega))

end Sys2Proof.Machine

/-! The decoder and the encoder agree on every word, and the count of the legal words (30_encoding R90
to R99). -/

namespace Sys2Proof.Machine

/-! ## The word of a command -/

theorem commandWord (i : Instr) : Laws.CommandWord.Statement i := by
  cases i with
  | clr => exact Laws.CommandWord.clr
  | hex2bytes => exact Laws.CommandWord.hex2bytes
  | bytes2hex => exact Laws.CommandWord.bytes2hex
  | i2osp => exact Laws.CommandWord.i2osp
  | os2ip => exact Laws.CommandWord.os2ip
  | concat0 => exact Laws.CommandWord.concat0
  | concat1 => exact Laws.CommandWord.concat1
  | concat2 => exact Laws.CommandWord.concat2
  | str2bytes => exact Laws.CommandWord.str2bytes
  | xmd => exact Laws.CommandWord.xmd
  | h2f p m k d e v => exact Laws.CommandWord.h2f p m k d e v
  | b2l => exact Laws.CommandWord.b2l
  | l2b => exact Laws.CommandWord.l2b
  | hex2byteints => exact Laws.CommandWord.hex2byteints

/-- The three fields of format C determine the word (30_encoding R90). -/
theorem encode_eq_iff {i : Instr} {w : Word} :
    encode i = w ↔ zField w = 0 ∧ i.opc = opcField w ∧ i.arg = argField w := by
  constructor
  · rintro rfl
    obtain ⟨hz, hopc, harg⟩ := commandWord i
    exact ⟨hz, hopc.symm, harg.symm⟩
  · rintro ⟨hz, hopc, harg⟩
    rw [word_eq_fields w hz, encode, hopc, harg]

/-! ## The argument byte of H2F -/

theorem getLsbD_bitAt {pos j : Nat} (b : Bool) (hj : j < 8) :
    (bitAt pos b).getLsbD j = (b && decide (j = pos)) := by
  cases b with
  | false => simp [bitAt]
  | true =>
    rw [bitAt, if_pos rfl, BitVec.getLsbD_shiftLeft, BitVec.getLsbD_one, Bool.eq_iff_iff]
    simp only [Bool.and_eq_true, Bool.true_and, Bool.not_eq_true', decide_eq_true_eq,
      decide_eq_false_iff_not]
    omega

/-- A byte with bits 7 and 6 clear is put together from its six selector bits (30_encoding R95). -/
theorem selectorBits_eq {arg : Byte} (h : arg.extractLsb' 6 2 = 0) :
    (Instr.h2f (arg.getLsbD 0) (arg.getLsbD 1) (arg.getLsbD 2) (arg.getLsbD 3) (arg.getLsbD 4)
      (arg.getLsbD 5)).arg = arg := by
  have reserved (k : Nat) (hk : k < 2) : arg.getLsbD (6 + k) = false := by
    simpa [BitVec.getLsbD_extractLsb', hk] using congrArg (BitVec.getLsbD · k) h
  apply BitVec.eq_of_getLsbD_eq
  intro j hj
  simp only [Instr.arg, BitVec.getLsbD_or, getLsbD_bitAt _ hj]
  by_cases hsel : j < 6
  · interval_cases j
    all_goals simp
  · obtain ⟨k, rfl⟩ := Nat.exists_eq_add_of_le (Nat.not_lt.1 hsel)
    rw [reserved k (by omega)]
    have off (pos : Nat) (hpos : pos < 6) : decide (6 + k = pos) = false :=
      decide_eq_false (by omega)
    simp [off]

/-! ## The decoder, table by table -/

/-- The command is legal and has this opcode and this argument byte. -/
def HasFields (i : Instr) (opc arg : Byte) : Prop := i.wf = true ∧ i.opc = opc ∧ i.arg = arg

theorem hasFields_of_decodeBare {i j : Instr} {o opc arg : Byte} (hi : HasFields i o 0)
    (hopc : opc = o) (h : decodeBare i arg = .ok j) : HasFields j opc arg := by
  obtain ⟨rfl, rfl⟩ := decodeBare_eq_ok_iff.1 h
  exact hopc ▸ hi

theorem hasFields_of_decodeConcat {i : Instr} {opc arg : Byte} (hopc : opc = 0x14)
    (h : decodeConcat arg = .ok i) : HasFields i opc arg := by
  unfold decodeConcat at h
  split_ifs at h with h0 h1 h2
  all_goals
    cases h
    subst arg opc
    exact ⟨rfl, rfl, rfl⟩

theorem hasFields_of_decodeH2f {i : Instr} {opc arg : Byte} (hopc : opc = 0x30)
    (h : decodeH2f arg = .ok i) : HasFields i opc arg := by
  unfold decodeH2f at h
  split_ifs at h with hreserved hexpand
  cases h
  exact ⟨Bool.eq_true_of_not_eq_false hexpand, hopc.symm, selectorBits_eq (not_not.1 hreserved)⟩

theorem of_ite_eq {α : Type} {c P : Prop} [Decidable c] {a b d : α} (ha : c → a = d → P)
    (hb : b = d → P) (h : (if c then a else b) = d) : P := by
  split at h
  · next hc => exact ha hc h
  · exact hb h

theorem hasFields_of_decodeOpcode {i : Instr} {opc arg : Byte} :
    decodeOpcode opc arg = .ok i → HasFields i opc arg := by
  have bare {k : Instr} {o : Byte} (hk : HasFields k o 0) :=
    hasFields_of_decodeBare (j := i) (opc := opc) (arg := arg) hk
  unfold decodeOpcode
  exact of_ite_eq (bare ⟨rfl, rfl, rfl⟩) <| of_ite_eq (bare ⟨rfl, rfl, rfl⟩) <|
    of_ite_eq (bare ⟨rfl, rfl, rfl⟩) <| of_ite_eq (bare ⟨rfl, rfl, rfl⟩) <|
    of_ite_eq (bare ⟨rfl, rfl, rfl⟩) <| of_ite_eq hasFields_of_decodeConcat <|
    of_ite_eq (bare ⟨rfl, rfl, rfl⟩) <| of_ite_eq (bare ⟨rfl, rfl, rfl⟩) <|
    of_ite_eq hasFields_of_decodeH2f <| of_ite_eq (bare ⟨rfl, rfl, rfl⟩) <|
    of_ite_eq (bare ⟨rfl, rfl, rfl⟩) <| of_ite_eq (bare ⟨rfl, rfl, rfl⟩) nofun

/-- The decoder reads every legal command back from its own fields. -/
theorem decodeOpcode_fields {i : Instr} (hwf : i.wf = true) :
    decodeOpcode i.opc i.arg = .ok i := by
  cases i with
  | h2f p m k d e v => revert p m k d e v; decide
  | _ => rfl

theorem decodeOpcode_eq_ok_iff {i : Instr} {opc arg : Byte} :
    decodeOpcode opc arg = .ok i ↔ HasFields i opc arg := by
  refine ⟨hasFields_of_decodeOpcode, ?_⟩
  rintro ⟨hwf, rfl, rfl⟩
  exact decodeOpcode_fields hwf

theorem decodeWord_eq_some_iff {i : Instr} {w : Word} :
    decodeWord w = some i ↔ zField w = 0 ∧ HasFields i (opcField w) (argField w) := by
  rw [← decodeOpcode_eq_ok_iff]
  unfold decodeWord decode
  by_cases hz : zField w = 0
  · rw [if_neg (not_not.2 hz)]
    cases decodeOpcode (opcField w) (argField w) with
    | ok j => simp [hz]
    | reject r => simp
  · rw [if_pos hz]
    exact iff_of_false nofun fun h => hz h.1

/-- Settles O2: a word decodes to the legal command that has its fields, and the encoder writes
exactly those fields. -/
theorem decodeAndEncodeAgree : Obligations.DecodeAndEncodeAgree := by
  intro w i
  rw [decodeWord_eq_some_iff, encode_eq_iff, HasFields, and_left_comm]

theorem decodeWord_encode {i : Instr} (hwf : i.wf = true) : decodeWord (encode i) = some i :=
  (decodeAndEncodeAgree _ i).2 ⟨hwf, rfl⟩

theorem encode_inj {i j : Instr} (hi : i.wf = true) (hj : j.wf = true)
    (h : encode i = encode j) : i = j :=
  Option.some.inj <| calc
    some i = decodeWord (encode i) := (decodeWord_encode hi).symm
    _ = some j := h ▸ decodeWord_encode hj

/-- Settles O1: twelve words, evaluated by the decoder. -/
theorem decodeReadsWordsOfEachFamily : Obligations.DecodeReadsWordsOfEachFamily := by
  unfold Obligations.DecodeReadsWordsOfEachFamily
  decide

/-! ## Counting the legal words -/

/-- The ten commands whose opcode takes no argument (30_encoding R97, clause 3). -/
def bareCommands : Finset Instr :=
  {.clr, .hex2bytes, .bytes2hex, .i2osp, .os2ip, .str2bytes, .xmd, .b2l, .l2b, .hex2byteints}

/-- The three arities of CONCAT (30_encoding R97, clause 4). -/
def concatCommands : Finset Instr := {.concat0, .concat1, .concat2}

/-- The legal pairs of OVR_EXPAND and EXPAND_VAL (30_encoding R95). -/
def expandSelectors : Finset (Bool × Bool) := {(false, false), (true, false), (true, true)}

/-- H2F with selector bits as given: the four operand selectors, then OVR_EXPAND and EXPAND_VAL. -/
def h2fOf (x : (Bool × Bool × Bool × Bool) × Bool × Bool) : Instr :=
  .h2f x.1.1 x.1.2.1 x.1.2.2.1 x.1.2.2.2 x.2.1 x.2.2

theorem h2fOf_injective : Function.Injective h2fOf := by
  rintro ⟨⟨p, m, k, d⟩, e, v⟩ ⟨⟨p', m', k', d'⟩, e', v'⟩ h
  cases h
  rfl

/-- The H2F commands of 30_encoding R97, clause 5: sixteen operand selections by three of the
expansion. -/
def h2fCommands : Finset Instr := (Finset.univ ×ˢ expandSelectors).image h2fOf

theorem card_h2fCommands : h2fCommands.card = 48 := by
  rw [h2fCommands, Finset.card_image_of_injective _ h2fOf_injective, Finset.card_product]
  rfl

theorem h2f_mem_h2fCommands {p m k d e v : Bool} :
    .h2f p m k d e v ∈ h2fCommands ↔ h2fSelectorsWf e v = true := by
  simp only [h2fCommands, h2fOf, Finset.mem_image, Finset.mem_product, Finset.mem_univ, true_and,
    Prod.exists, Instr.h2f.injEq]
  constructor
  · rintro ⟨_, _, _, _, e, v, hev, rfl, rfl, rfl, rfl, rfl, rfl⟩
    revert e v
    decide
  · intro h
    refine ⟨p, m, k, d, e, v, ?_, rfl, rfl, rfl, rfl, rfl, rfl⟩
    revert e v
    decide

theorem mem_h2fCommands {i : Instr} : i ∈ h2fCommands ↔ i.wf = true ∧ i.opc = 0x30 := by
  cases i with
  | h2f p m k d e v => simp [h2f_mem_h2fCommands, Instr.wf, Instr.opc]
  | _ => simp [h2fCommands, h2fOf, Instr.opc]

theorem mem_concatCommands {i : Instr} : i ∈ concatCommands ↔ i.wf = true ∧ i.opc = 0x14 := by
  cases i <;> simp [concatCommands, Instr.wf, Instr.opc]

theorem mem_bareCommands {i : Instr} :
    i ∈ bareCommands ↔ i.wf = true ∧ i.opc ≠ 0x14 ∧ i.opc ≠ 0x30 := by
  cases i <;> simp [bareCommands, Instr.wf, Instr.opc]

/-- Every legal command has one word, so the words that decode to a command whose opcode meets `P`
are as many as those commands. -/
theorem ncard_words {S : Finset Instr} {P : Byte → Prop}
    (hS : ∀ i, i ∈ S ↔ i.wf = true ∧ P i.opc) :
    Set.ncard { w : Word | ∃ i, decodeWord w = some i ∧ P (opcField w) } = S.card := by
  have himage : { w : Word | ∃ i, decodeWord w = some i ∧ P (opcField w) } = encode '' S := by
    ext w
    refine exists_congr fun i => ?_
    rw [Finset.mem_coe, hS, decodeAndEncodeAgree w i, and_right_comm, and_congr_left_iff]
    rintro rfl
    obtain ⟨-, hopc, -⟩ := commandWord i
    rw [hopc]
  have hinj : Set.InjOn encode (S : Set Instr) := by
    intro i hi j hj hij
    obtain ⟨hi, -⟩ := (hS i).1 hi
    obtain ⟨hj, -⟩ := (hS j).1 hj
    exact encode_inj hi hj hij
  rw [himage, hinj.ncard_image, Set.ncard_coe_finset]

/-- The three families together. -/
def legalCommands : Finset Instr := (bareCommands ∪ concatCommands) ∪ h2fCommands

theorem mem_legalCommands {i : Instr} : i ∈ legalCommands ↔ i.wf = true := by
  rw [legalCommands, Finset.mem_union, Finset.mem_union, mem_bareCommands,
    mem_concatCommands, mem_h2fCommands]
  tauto

theorem card_legalCommands : legalCommands.card = 61 := by
  have h2f_apart : Disjoint (bareCommands ∪ concatCommands) h2fCommands := by
    rw [Finset.disjoint_right]
    intro i hi
    obtain ⟨-, hopc⟩ := mem_h2fCommands.1 hi
    simp [mem_bareCommands, mem_concatCommands, hopc]
  rw [legalCommands, Finset.card_union_of_disjoint h2f_apart, card_h2fCommands]
  rfl

/-- Settles O3: each family of opcodes has as many words as commands, and together they are all the
legal words. -/
theorem exactlySixtyOneLegalWords : Obligations.ExactlySixtyOneLegalWords := by
  have legal : { w : Word | decodeWord w ≠ none } =
      { w : Word | ∃ i, decodeWord w = some i ∧ True } := by
    ext w
    simp [Option.ne_none_iff_exists']
  refine ⟨?_, ?_, ?_, ?_⟩
  · rw [legal, ← card_legalCommands]
    exact ncard_words (P := fun _ => True) fun _ => by rw [mem_legalCommands, and_true]
  · exact ncard_words (P := (· = 0x14)) fun _ => mem_concatCommands
  · rw [← card_h2fCommands]
    exact ncard_words (P := (· = 0x30)) fun _ => mem_h2fCommands
  · exact ncard_words (P := fun opc => opc ≠ 0x14 ∧ opc ≠ 0x30) fun _ => mem_bareCommands

end Sys2Proof.Machine

/-! The ByteCodec commands: the bytes each one writes, and the error of each test (40_bytecodec R110
to R122). -/

namespace Sys2Proof.Machine

/-! ## What the sequences a command reads hold -/

@[simp] theorem getElem_msg (s : State) {k : Nat} (h : k < s.msg.length) :
    s.msg[k] = s.msgByte k := by
  simp [State.msg]

@[simp] theorem getElem_dst (s : State) {k : Nat} (h : k < s.dst.length) :
    s.dst[k] = s.dstByte k := by
  simp [State.dst]

@[simp] theorem getElem_elems (s : State) {k : Nat} (h : k < s.elems.length) :
    s.elems[k] = s.elem k := by
  simp [State.elems]

/-! ## How a command ends -/

/-- A meaning whose state is that of a failing command fails with that error. -/
theorem failsWith_of_run {i : Instr} {e : CmdError} {s t : State} (hx : exec i s = .next t)
    (ht : t = failCommand i e s) : FailsWith i e s := failsWith_of_exec (ht ▸ hx)

/-- A command whose byte sequence is an error fails with it. -/
theorem endWithBytes_of_error {i : Instr} {r : Except CmdError (List Byte)} {e : CmdError}
    (h : r = .error e) (s : State) : endWithBytes i r s = failCommand i e s := by
  rw [h, endWithBytes]

theorem endWithBytes_of_ok {i : Instr} {r : Except CmdError (List Byte)} {bs : List Byte}
    (h : r = .ok bs) (s : State) : endWithBytes i r s = finishOut i bs s := by rw [h, endWithBytes]

theorem endWithElems_of_error {i : Instr} {r : Except CmdError (List Nat)} {e : CmdError}
    (h : r = .error e) (s : State) : endWithElems i r s = failCommand i e s := by
  rw [h, endWithElems]

/-- A length that a register holds is the OUT_LEN of a result of that length. -/
theorem finishOut_outLen_eq {i : Instr} {bs : List Byte} {s : State} {w : Word}
    (h : bs.length = w.toNat) : (finishOut i bs s).outLen = w := by
  rw [finishOut_outLen, h, BitVec.ofNat_toNat, BitVec.setWidth_eq]

theorem finishOut_outByte_of_getElem? {i : Instr} {bs : List Byte} {s : State} {k : Nat} {b : Byte}
    (h : bs[k]? = some b) : (finishOut i bs s).outByte k = b := by
  obtain ⟨hk, rfl⟩ := List.getElem?_eq_some_iff.1 h
  exact finishOut_outByte i bs s hk

/-! ## Hex digits -/

/-- The 22 codes of hex digits with their values (40_bytecodec R110). -/
theorem hexDigit?_eq_some_iff {c : Byte} {v : Nat} : hexDigit? c = some v ↔
    ((0x30 ≤ c.toNat ∧ c.toNat ≤ 0x39) ∧ c.toNat - 0x30 = v) ∨
    ((0x61 ≤ c.toNat ∧ c.toNat ≤ 0x66) ∧ c.toNat - 0x61 + 10 = v) ∨
    ((0x41 ≤ c.toNat ∧ c.toNat ≤ 0x46) ∧ c.toNat - 0x41 + 10 = v) := by
  unfold hexDigit?
  dsimp only
  split_ifs
  case neg => exact iff_of_false nofun (by omega)
  all_goals
    rw [Option.some.injEq]
    omega

theorem hexDigit?_lt {c : Byte} {v : Nat} (h : hexDigit? c = some v) : v < 16 := by
  rw [hexDigit?_eq_some_iff] at h
  omega

theorem toNat_hexChar_of_le {v : Nat} (hv : v ≤ 9) : (hexChar v).toNat = 0x30 + v := by
  rw [hexChar, if_pos hv, BitVec.toNat_ofNat]
  omega

/-- The letter of a value from 10 to 15 is lower case (40_bytecodec R110). -/
theorem toNat_hexChar_of_ge {v : Nat} (hv : 10 ≤ v) (hv' : v ≤ 15) :
    (hexChar v).toNat = 0x61 + (v - 10) := by
  rw [hexChar, if_neg (by omega), BitVec.toNat_ofNat]
  omega

/-- Settles O27: the codes of the three ranges, and the character written for a value. -/
theorem hexDigitCodes : Obligations.HexDigitCodes := by
  refine ⟨fun c => ⟨fun h => ?_, fun h => ?_, fun h => ?_, fun h => ?_⟩,
    fun v => ⟨toNat_hexChar_of_le, toNat_hexChar_of_ge, fun hv => ?_⟩⟩
  · exact hexDigit?_eq_some_iff.2 (.inl ⟨h, rfl⟩)
  · exact hexDigit?_eq_some_iff.2 (.inr (.inl ⟨h, rfl⟩))
  · exact hexDigit?_eq_some_iff.2 (.inr (.inr ⟨h, rfl⟩))
  · obtain ⟨v, hv⟩ := Option.ne_none_iff_exists'.1 h
    exact (hexDigit?_eq_some_iff.1 hv).imp And.left (.imp And.left And.left)
  · exact hexDigit?_hexChar v (by omega)

/-! ## Hex strings -/

/-- The first digit of a pair is the high nibble (40_bytecodec R111). -/
theorem toNat_hexPair {c0 c1 : Byte} {hi lo : Nat} (h0 : hexDigit? c0 = some hi)
    (h1 : hexDigit? c1 = some lo) : (hexPair c0 c1).toNat = 16 * hi + lo := by
  have hhi := hexDigit?_lt h0
  have hlo := hexDigit?_lt h1
  rw [hexPair, h0, h1, Option.getD_some, Option.getD_some, BitVec.toNat_ofNat]
  omega

theorem hexPairs_getElem? (cs : List Byte) {k : Nat} (h : 2 * k + 1 < cs.length) :
    (hexPairs cs)[k]? = some (hexPair cs[2 * k] cs[2 * k + 1]) := by
  induction cs using hexPairs.induct generalizing k with
  | case1 c0 c1 cs ih =>
    cases k with
    | zero => rfl
    | succ k =>
      rw [hexPairs, List.getElem?_cons_succ, ih (by simp only [List.length_cons] at h; omega)]
      rfl
  | case2 cs hshort =>
    match cs, hshort with
    | [], _ => simp at h
    | [_], _ => simp at h
    | a :: b :: cs, hshort => exact absurd rfl (hshort a b cs)

theorem firstNonHexFrom_of_digits {cs : List Byte} (h : ∀ c ∈ cs, hexDigit? c ≠ none) (t : Nat) :
    firstNonHexFrom t cs = none := by
  induction cs generalizing t with
  | nil => rfl
  | cons c cs ih =>
    obtain ⟨hc, hcs⟩ := List.forall_mem_cons.1 h
    rw [firstNonHexFrom, if_pos (Option.isSome_iff_ne_none.2 hc), ih hcs]

/-- The search stops at the first character that is no hex digit. -/
theorem firstNonHexFrom_of_first {cs : List Byte} {k : Nat} (hk : k < cs.length)
    (bad : hexDigit? cs[k] = none) (before : ∀ j (hj : j < k), hexDigit? cs[j] ≠ none) (t : Nat) :
    firstNonHexFrom t cs = some (t + k) := by
  induction cs generalizing t k with
  | nil => exact absurd hk (Nat.not_lt_zero k)
  | cons c cs ih =>
    cases k with
    | zero =>
      have hc : hexDigit? c = none := bad
      simp [firstNonHexFrom, hc]
    | succ k =>
      have hc : hexDigit? c ≠ none := before 0 (Nat.succ_pos k)
      rw [firstNonHexFrom, if_pos (Option.isSome_iff_ne_none.2 hc),
        ih (Nat.lt_of_succ_lt_succ hk) bad fun j hj => before (j + 1) (Nat.succ_lt_succ hj)]
      congr 1
      omega

theorem hexToBytes_of_odd {hex : List Byte} (h : hex.length % 2 = 1) :
    hexToBytes hex = .error .malformedHexOdd := if_pos h

theorem hexToBytes_of_digits {hex : List Byte} (heven : hex.length % 2 = 0)
    (h : ∀ c ∈ hex, hexDigit? c ≠ none) : hexToBytes hex = .ok (hexPairs hex) := by
  rw [hexToBytes, if_neg (by omega), firstNonHexFrom_of_digits h]

theorem hexToBytes_of_first {hex : List Byte} {k : Nat} (heven : hex.length % 2 = 0)
    (hk : k < hex.length) (bad : hexDigit? hex[k] = none)
    (before : ∀ j (hj : j < k), hexDigit? hex[j] ≠ none) :
    hexToBytes hex = .error (.malformedHexAt k) := by
  rw [hexToBytes, if_neg (by omega), firstNonHexFrom_of_first hk bad before, Nat.zero_add]

theorem hexToByteInts_of_error {hex : List Byte} {e : CmdError} (h : hexToBytes hex = .error e) :
    hexToByteInts hex = .error e := by rw [hexToByteInts, h]

/-- HEX2BYTES on a message of hex digits ends with the bytes of its pairs (40_bytecodec R112). -/
theorem runHex2bytes_of_digits {s : State} (hm : s.msgLen.toNat ≤ s.cfg.caps.msgMax)
    (heven : s.msgLen.toNat % 2 = 0)
    (hd : ∀ k, k < s.msgLen.toNat → hexDigit? (s.msgByte k) ≠ none) :
    runHex2bytes s = finishOut .hex2bytes (hexPairs s.msg) s := by
  have hmem : ∀ c ∈ s.msg, hexDigit? c ≠ none := by simpa [State.msg] using hd
  exact (if_neg (Nat.not_lt.2 hm)).trans
    (endWithBytes_of_ok (hexToBytes_of_digits (by rwa [length_msg]) hmem) s)

/-- Settles O28: byte `k` of the result is the pair at index `2k`. -/
theorem hex2bytesDecodesPairs : Obligations.Hex2bytesDecodesPairs := by
  intro s hm heven hd
  have hlen : (hexPairs s.msg).length = s.msgLen.toNat / 2 := by rw [length_hexPairs, length_msg]
  refine ⟨_, congrArg Host.Outcome.next (runHex2bytes_of_digits hm heven hd),
    finishOut_completed _ _ s, ?_, fun k hk => ?_, finishOut_frame _ _ s rfl⟩
  · have hw := s.msgLen.isLt
    rw [finishOut_outLen_toNat _ _ _ (by omega), hlen]
  · obtain ⟨hi, h0⟩ := Option.ne_none_iff_exists'.1 (hd (2 * k) (by omega))
    obtain ⟨lo, h1⟩ := Option.ne_none_iff_exists'.1 (hd (2 * k + 1) (by omega))
    have hpair := hexPairs_getElem? s.msg (k := k) (by rw [length_msg]; omega)
    rw [getElem_msg, getElem_msg] at hpair
    exact ⟨hi, lo, h0, h1, by rw [finishOut_outByte_of_getElem? hpair, toNat_hexPair h0 h1]⟩

/-- A malformed hex string ends both hex commands with its error, once the tests of lengths pass. -/
theorem hexCommands_fail_of_error {s : State} {e : CmdError}
    (hm : s.msgLen.toNat ≤ s.cfg.caps.msgMax) (he : hexToBytes s.msg = .error e) :
    FailsWith .hex2bytes e s ∧
      (s.msgLen.toNat / 2 ≤ s.cfg.caps.elemMax → FailsWith .hex2byteints e s) := by
  have fits : ¬ s.cfg.caps.msgMax < s.msgLen.toNat := Nat.not_lt.2 hm
  exact ⟨failsWith_of_run rfl ((if_neg fits).trans (endWithBytes_of_error he s)), fun hn =>
    failsWith_of_run rfl ((if_neg fits).trans ((if_neg (Nat.not_lt.2 hn)).trans
      (endWithElems_of_error (hexToByteInts_of_error he) s)))⟩

/-- Settles O29: the tests of lengths are the commands' own, the other two those of `hexToBytes`. -/
theorem hexCommandsFailInOrder : Obligations.HexCommandsFailInOrder := by
  refine fun s => ⟨fun h => ?_, fun hm h => ?_, fun hm hodd => ?_, fun k hm heven hk bad before => ?_⟩
  · exact ⟨failsWith_of_run rfl (if_pos h), failsWith_of_run rfl (if_pos h)⟩
  · exact failsWith_of_run rfl ((if_neg (Nat.not_lt.2 hm)).trans (if_pos h))
  · exact hexCommands_fail_of_error hm (hexToBytes_of_odd (by rwa [length_msg]))
  · refine hexCommands_fail_of_error hm (hexToBytes_of_first (k := k) ?_ ?_ ?_ fun j hj => ?_)
    · rwa [length_msg]
    · rwa [length_msg]
    · rwa [getElem_msg]
    · rw [getElem_msg]
      exact before j hj

/-- Byte `k` is written as the characters `2k` and `2k + 1`, high nibble first (40_bytecodec R113). -/
theorem bytesToHex_getElem? (bs : List Byte) {k : Nat} (h : k < bs.length) :
    (bytesToHex bs)[2 * k]? = some (hexChar (bs[k].toNat / 16)) ∧
      (bytesToHex bs)[2 * k + 1]? = some (hexChar (bs[k].toNat % 16)) := by
  induction bs generalizing k with
  | nil => exact absurd h (Nat.not_lt_zero k)
  | cons b bs ih =>
    rw [bytesToHex_cons]
    cases k with
    | zero => exact ⟨rfl, rfl⟩
    | succ k => exact ih (Nat.lt_of_succ_lt_succ h)

/-- Settles O30: `bytesToHex` byte by byte, and the two tests of lengths. -/
theorem bytes2hexEncodesNibbles : Obligations.Bytes2hexEncodesNibbles := by
  refine fun s => ⟨fun hm ho h32 => ?_, fun h => ?_, fun hm h => ?_⟩
  · have hrun : runBytes2hex s = finishOut .bytes2hex (bytesToHex s.msg) s :=
      (if_neg (Nat.not_lt.2 hm)).trans (if_neg (Nat.not_lt.2 ho))
    have hlen : (bytesToHex s.msg).length = 2 * s.msgLen.toNat := by
      rw [length_bytesToHex, length_msg]
    refine ⟨_, congrArg Host.Outcome.next hrun, finishOut_completed _ _ s, ?_, fun k hk => ?_,
      finishOut_frame _ _ s rfl⟩
    · rw [finishOut_outLen_toNat _ _ _ (hlen ▸ h32), hlen]
    · obtain ⟨hhi, hlo⟩ := bytesToHex_getElem? s.msg (k := k) (by rwa [length_msg])
      rw [getElem_msg] at hhi hlo
      exact ⟨finishOut_outByte_of_getElem? hhi, finishOut_outByte_of_getElem? hlo⟩
  · exact failsWith_of_run rfl (if_pos h)
  · exact failsWith_of_run rfl ((if_neg (Nat.not_lt.2 hm)).trans (if_pos h))

/-! ## Integers and big-endian bytes -/

/-- Byte `k` of the big-endian bytes of a number (40_bytecodec R115). -/
theorem toNat_getElem_beBytes {v n k : Nat} (h : k < (beBytes v n).length) :
    (beBytes v n)[k].toNat = v / 256 ^ (n - 1 - k) % 256 := by
  simp [beBytes]

/-- Settles O31: `beBytes` byte by byte, the test of the length, and the range test of `i2osp`. -/
theorem i2ospWritesBigEndianBytes : Obligations.I2ospWritesBigEndianBytes := by
  refine ⟨by decide, fun s => ⟨fun hl hv => ?_, fun h => ?_, fun hl h => ?_⟩⟩
  · obtain ⟨hok, -⟩ := i2osp_of_lt hv
    have hrun : runI2osp s = finishOut .i2osp (beBytes s.bigx s.lenArg.toNat) s :=
      (if_neg (Nat.not_lt.2 hl)).trans (endWithBytes_of_ok hok s)
    refine ⟨_, congrArg Host.Outcome.next hrun, finishOut_completed _ _ s,
      finishOut_outLen_eq (length_beBytes _ _), fun k hk => ?_, finishOut_frame _ _ s rfl⟩
    rw [finishOut_outByte _ _ _ (by rwa [length_beBytes]), toNat_getElem_beBytes]
  · exact failsWith_of_run rfl (if_pos h)
  · exact failsWith_of_run rfl
      ((if_neg (Nat.not_lt.2 hl)).trans (endWithBytes_of_error (if_pos h) s))

/-- The big-endian integer of `n` bytes given by index (40_bytecodec R117). -/
theorem os2ip_map_range (f : Nat → Byte) (n : Nat) : os2ip ((List.range n).map f) =
    ∑ k ∈ Finset.range n, (f k).toNat * 256 ^ (n - 1 - k) := by
  induction n generalizing f with
  | zero => rfl
  | succ n ih =>
    rw [List.range_succ_eq_map, List.map_cons, List.map_map, os2ip, ih, List.length_map,
      List.length_range, Finset.sum_range_succ', Nat.add_comm]
    refine congrArg₂ (· + ·) (Finset.sum_congr rfl fun k _ => ?_) rfl
    rw [show n + 1 - 1 - (k + 1) = n - 1 - k by omega]
    rfl

/-- Settles O32: `os2ip` of the message as a sum, and the two tests of its length. -/
theorem os2ipReadsBigEndianInteger : Obligations.Os2ipReadsBigEndianInteger := by
  refine ⟨by decide, fun s => ⟨fun hm hx => ?_, fun h => ?_, fun hm h => ?_⟩⟩
  · have hrun : runOs2ip s = finishBigx .os2ip (os2ip s.msg) s :=
      (if_neg (Nat.not_lt.2 hm)).trans (if_neg (Nat.not_lt.2 hx))
    exact ⟨_, congrArg Host.Outcome.next hrun, finishBigx_completed _ _ s,
      os2ip_map_range s.msgByte s.msgLen.toNat, finishBigx_frame _ _ s rfl rfl⟩
  · exact failsWith_of_run rfl (if_pos h)
  · exact failsWith_of_run rfl ((if_neg (Nat.not_lt.2 hm)).trans (if_pos h))

/-! ## Concatenation -/

theorem concatBytes_singleton (bs : List Byte) : concatBytes [bs] = bs := by simp [concatBytes]

theorem concatBytes_pair (as bs : List Byte) : concatBytes [as, bs] = as ++ bs := by
  simp [concatBytes]

theorem runConcat1_of_fits {s : State} (hm : s.msgLen.toNat ≤ s.cfg.caps.msgMax) :
    runConcat1 s = finishOut .concat1 s.msg s := by
  rw [runConcat1, if_neg (Nat.not_lt.2 hm), concatBytes_singleton]

theorem runConcat2_of_fits {s : State} (hm : s.msgLen.toNat ≤ s.cfg.caps.msgMax)
    (hd : s.dstLen.toNat ≤ Config.dstMax)
    (ho : s.msgLen.toNat + s.dstLen.toNat ≤ s.cfg.caps.outMax) :
    runConcat2 s = finishOut .concat2 (s.msg ++ s.dst) s := by
  rw [runConcat2, if_neg (Nat.not_lt.2 hm), if_neg (Nat.not_lt.2 hd), if_neg (Nat.not_lt.2 ho),
    concatBytes_pair]

theorem length_msg_append_dst (s : State) :
    (s.msg ++ s.dst).length = s.msgLen.toNat + s.dstLen.toNat := by
  rw [List.length_append, length_msg, length_dst]

/-- After both sequences fit, OUT holds the message and then the tag. -/
theorem finishOut_msg_append_dst (i : Instr) (s : State) :
    (∀ k, k < s.msgLen.toNat → (finishOut i (s.msg ++ s.dst) s).outByte k = s.msgByte k) ∧
      ∀ k, k < s.dstLen.toNat →
        (finishOut i (s.msg ++ s.dst) s).outByte (s.msgLen.toNat + k) = s.dstByte k := by
  have hlen := length_msg_append_dst s
  refine ⟨fun k hk => ?_, fun k hk => ?_⟩
  · rw [finishOut_outByte _ _ _ (by omega), List.getElem_append_left (by rwa [length_msg]),
      getElem_msg]
  · rw [finishOut_outByte _ _ _ (by omega), List.getElem_append_right (by rw [length_msg]; omega),
      getElem_dst, length_msg, Nat.add_sub_cancel_left]

/-- Settles O33: the three arities, and the tests in their order. -/
theorem concatJoinsBuffersInOrder : Obligations.ConcatJoinsBuffersInOrder := by
  refine ⟨by decide, by decide, by decide, fun s => ⟨?_, fun hm => ?_, fun hm hd ho h32 => ?_,
    fun h => ?_, fun hm h => ?_, fun hm hd h => ?_⟩⟩
  · exact ⟨_, rfl, finishOut_completed _ _ s, rfl, finishOut_frame _ _ s rfl⟩
  · refine ⟨_, congrArg Host.Outcome.next (runConcat1_of_fits hm), finishOut_completed _ _ s,
      finishOut_outLen_eq (length_msg s), fun k hk => ?_, finishOut_frame _ _ s rfl⟩
    rw [finishOut_outByte _ _ _ (by rwa [length_msg]), getElem_msg]
  · obtain ⟨hmsg, hdst⟩ := finishOut_msg_append_dst .concat2 s
    have hlen := length_msg_append_dst s
    refine ⟨_, congrArg Host.Outcome.next (runConcat2_of_fits hm hd ho), finishOut_completed _ _ s,
      ?_, hmsg, hdst, finishOut_frame _ _ s rfl⟩
    rw [finishOut_outLen_toNat _ _ _ (hlen ▸ h32), hlen]
  · exact ⟨failsWith_of_run rfl (if_pos h), failsWith_of_run rfl (if_pos h)⟩
  · exact failsWith_of_run rfl ((if_neg (Nat.not_lt.2 hm)).trans (if_pos h))
  · exact failsWith_of_run rfl
      ((if_neg (Nat.not_lt.2 hm)).trans ((if_neg (Nat.not_lt.2 hd)).trans (if_pos h)))

/-! ## Code points -/

theorem stringToBytes_of_lt {str : List Nat} (h : ∀ c ∈ str, c < 256) :
    stringToBytes str = .ok (str.map fun c => BitVec.ofNat 8 c) := if_pos (by simpa using h)

theorem stringToBytes_of_ge {str : List Nat} {c : Nat} (hc : c ∈ str) (h : 256 ≤ c) :
    stringToBytes str = .error (.operandRange .codePoint) := by
  refine if_neg fun hall => ?_
  have : c < 256 := of_decide_eq_true (List.all_eq_true.1 hall c hc)
  omega

theorem elem_mem_elems {s : State} {k : Nat} (h : k < s.elemCnt.toNat) : s.elem k ∈ s.elems :=
  List.mem_map_of_mem (List.mem_range.2 h)

/-- STR2BYTES on code points below 256 ends with their bytes (40_bytecodec R122). -/
theorem runStr2bytes_of_lt {s : State} (hc : s.elemCnt.toNat ≤ s.cfg.caps.elemMax)
    (hlt : ∀ k, k < s.elemCnt.toNat → s.elem k < 256) :
    runStr2bytes s = finishOut .str2bytes (s.elems.map fun c => BitVec.ofNat 8 c) s := by
  have hmem : ∀ c ∈ s.elems, c < 256 := by simpa [State.elems] using hlt
  exact (if_neg (Nat.not_lt.2 hc)).trans (endWithBytes_of_ok (stringToBytes_of_lt hmem) s)

/-- Settles O34: one byte an entry, the test of the count, and that of `stringToBytes`. -/
theorem str2bytesWritesCodePoints : Obligations.Str2bytesWritesCodePoints := by
  refine ⟨by decide, fun s => ⟨fun hc hlt => ?_, fun h => ?_, fun k hc hk h => ?_⟩⟩
  · have hlen : (s.elems.map fun c => BitVec.ofNat 8 c).length = s.elemCnt.toNat := by
      rw [List.length_map, length_elems]
    refine ⟨_, congrArg Host.Outcome.next (runStr2bytes_of_lt hc hlt), finishOut_completed _ _ s,
      finishOut_outLen_eq hlen, fun k hk => ?_, finishOut_frame _ _ s rfl⟩
    rw [finishOut_outByte _ _ _ (hlen ▸ hk), List.getElem_map, getElem_elems, BitVec.toNat_ofNat,
      Nat.mod_eq_of_lt (hlt k hk)]
  · exact failsWith_of_run rfl (if_pos h)
  · exact failsWith_of_run rfl ((if_neg (Nat.not_lt.2 hc)).trans
      (endWithBytes_of_error (stringToBytes_of_ge (elem_mem_elems hk) h) s))

end Sys2Proof.Machine

/-! XMD from its tests to its result, and the digest chain it shares with an expanding H2F
(41_expand_message R142 to R149, 42_hash_to_field R164). -/

namespace Sys2Proof.Machine

/-! ## The tests of XMD -/

/-- 8160 bytes fill the 255 blocks an expansion may have (41 R145). -/
theorem xmdEll_le_ellMax_iff {len : Nat} : xmdEll len ≤ Config.ellMax ↔ len ≤ 8160 := by
  simp only [xmdEll, ceilDiv, Config.bInBytes, Config.ellMax]
  omega

/-- The tag is tested after the number of blocks (41 R145). -/
theorem xmdFailure_of_long_tag {present : Bool} {dstLen len : Nat} (hl : len ≤ 8160)
    (hd : 255 < dstLen) : xmdFailure present dstLen len = some .integerRangeTag :=
  (if_neg (Nat.not_lt.2 (xmdEll_le_ellMax_iff.2 hl))).trans (if_pos hd)

/-- The digest engine is asked for last (41 R145). -/
theorem xmdFailure_of_no_digest {dstLen len : Nat} (hl : len ≤ 8160) (hd : dstLen ≤ 255) :
    xmdFailure false dstLen len = some .missingDigestBackend :=
  (if_neg (Nat.not_lt.2 (xmdEll_le_ellMax_iff.2 hl))).trans
    ((if_neg (Nat.not_lt.2 hd)).trans (if_pos rfl))

section
variable {s : State}

theorem startXmd_of_long_message (hm : s.cfg.caps.msgMax < s.msgLen.toNat) :
    startXmd s = failCommand .xmd (.operandRange .msgLen) s := if_pos hm

theorem startXmd_of_failure {e : CmdError} (hm : s.msgLen.toNat ≤ s.cfg.caps.msgMax)
    (hf : xmdFailure s.cfg.digestPresent s.dstLen.toNat s.lenArg.toNat = some e) :
    startXmd s = failCommand .xmd e s := by
  rw [startXmd, if_neg (Nat.not_lt.2 hm), hf]

theorem exec_xmd_of_no_chain (hc : s.chain = none) : exec .xmd s = .next (startXmd s) :=
  congrArg Host.Outcome.next (runXmd_of_no_chain hc)

/-- An XMD whose tests pass starts the chain of its operands (41 R148). -/
theorem exec_xmd_of_passes (hc : s.chain = none) (hm : s.msgLen.toNat ≤ s.cfg.caps.msgMax)
    (hf : xmdFailure s.cfg.digestPresent s.dstLen.toNat s.lenArg.toNat = none) :
    exec .xmd s = .next (startChain s.msg s.dst s.lenArg.toNat s) := by
  rw [exec_xmd_of_no_chain hc, startXmd, if_neg (Nat.not_lt.2 hm), hf]

theorem exec_xmd_of_chain {c : Chain} (hc : s.chain = some c) :
    exec .xmd s = .next (chainTurn c finishXmd s) :=
  congrArg Host.Outcome.next (by rw [runXmd, hc])

end

/-- Settles O41: the message's length, then the three tests of the expander in their order. -/
theorem xmdFailsInOrder : Obligations.XmdFailsInOrder := by
  intro s hc
  refine ⟨fun hm => ?_, fun hm hl => ?_, fun hm hl hd => ?_, fun hm hl hd hp => ?_⟩
  · exact failsWith_of_run (exec_xmd_of_no_chain hc) (startXmd_of_long_message hm)
  · have hell : 255 < xmdEll s.lenArg.toNat :=
      Nat.lt_of_not_le fun h => Nat.not_le.2 hl (xmdEll_le_ellMax_iff.1 h)
    exact failsWith_of_run (exec_xmd_of_no_chain hc)
      (startXmd_of_failure hm (xmdFailure_of_many_blocks hell))
  · exact failsWith_of_run (exec_xmd_of_no_chain hc)
      (startXmd_of_failure hm (xmdFailure_of_long_tag hl hd))
  · exact failsWith_of_run (exec_xmd_of_no_chain hc)
      (startXmd_of_failure hm (hp ▸ xmdFailure_of_no_digest hl hd))

/-! ## The start of an expansion -/

theorem beBytes_one (v : Nat) : beBytes v 1 = [BitVec.ofNat 8 v] := by
  simp [beBytes]

theorem beBytes_two (v : Nat) : beBytes v 2 = [BitVec.ofNat 8 (v / 256), BitVec.ofNat 8 v] := by
  simp [beBytes, List.range_succ]

/-- The bytes of `msg'` with `DST'` (41 R142, R143). -/
theorem msgPrime_dstPrime (msg dst : List Byte) (len : Nat) :
    msgPrime msg len (dstPrime dst) = List.replicate 64 0 ++ msg ++
      [BitVec.ofNat 8 (len / 256), BitVec.ofNat 8 len, 0] ++ dst ++
      [BitVec.ofNat 8 dst.length] := by
  simp [msgPrime, dstPrime, beBytes_one, beBytes_two, zeroBytes, Config.rInBytes]

/-- Settles O40: the passed tests start the chain, whose first input is `msg'`. -/
theorem xmdStartsWithMsgPrime : Obligations.XmdStartsWithMsgPrime := by
  intro s hc hm hl hd hp
  have hf : xmdFailure s.cfg.digestPresent s.dstLen.toNat s.lenArg.toNat = none :=
    hp ▸ xmdFailure_eq_none hl hd
  have hreq := msgPrime_dstPrime s.msg s.dst s.lenArg.toNat
  rw [length_dst] at hreq
  exact ⟨_, _, exec_xmd_of_passes hc hm hf, rfl, rfl, rfl,
    ⟨hm, hf, chainAt_start s.msg s.dst s.lenArg.toNat s (xmdEll_le_ellMax_iff.2 hl)⟩,
    congrArg some hreq, rfl⟩

/-! ## A turn of the chain -/

theorem ChainAt.req {msg dst : List Byte} {len : Nat} {c : Chain} {s : State} {m : List Byte}
    (h : ChainAt msg dst len c s) (hm : s.digestReq = some m) :
    m = chainInput sha256 msg dst len c.idx := by
  rcases h.pending with ⟨hq, -⟩ | ⟨hq, -⟩
  · exact Option.some.inj (hm.symm.trans hq)
  · cases hq.symm.trans hm

section
variable {s : State} {c : Chain} {d : List Byte} (finish : List Byte → State → State)

theorem chainTurn_of_waiting (hd : s.digestResp = none) : chainTurn c finish s = s := by
  rw [chainTurn, hd]

theorem chainTurn_of_first (hd : s.digestResp = some d) (h0 : c.idx = 0) :
    chainTurn c finish s = requestDigest (firstInput d c.dstp)
      { s with chain := some { c with idx := 1, b0 := d } } := by
  simp only [chainTurn, hd, h0, if_true]

theorem chainTurn_of_next (hd : s.digestResp = some d) (h0 : c.idx ≠ 0) (h1 : c.idx < c.ell) :
    chainTurn c finish s = requestDigest (nextInput c.b0 d c.dstp (c.idx + 1))
      { s with
        chain := some { c with idx := c.idx + 1, bprev := d, blocks := c.blocks ++ d } } := by
  simp only [chainTurn, hd, h0, h1, if_true, if_false]

theorem chainTurn_of_last (hd : s.digestResp = some d) (h0 : c.idx ≠ 0) (h1 : ¬ c.idx < c.ell) :
    chainTurn c finish s = finish (c.blocks ++ d) s := by
  simp only [chainTurn, hd, h0, h1, if_false]

/-- A response before the last moves the chain to its next input (41 R149). -/
theorem chainTurn_before_last {msg dst : List Byte} {len : Nat} (h : ChainAt msg dst len c s)
    (hd : s.digestResp = some d) (hidx : c.idx < max c.ell 1) :
    ∃ c' m, chainTurn c finish s = requestDigest m { s with chain := some c' } ∧
      c'.idx = c.idx + 1 ∧ ChainAt msg dst len c' (requestDigest m { s with chain := some c' }) := by
  by_cases h0 : c.idx = 0
  · exact ⟨_, _, chainTurn_of_first finish hd h0, by rw [h0], chainAt_first h hd h0⟩
  · have h1 : c.idx < c.ell := by omega
    exact ⟨_, _, chainTurn_of_next finish hd h0 h1, rfl, chainAt_next h hd h0 h1⟩

end

/-! ## The chain of a command -/

/-- A chain that belongs to a command is the chain of the expansion that command asks for. -/
theorem ChainBelongs.chainAt {i : Instr} {s : State} {c : Chain} (h : ChainBelongs i c s) :
    ChainAt (expansionOf i s).msg (expansionOf i s).dst (expansionOf i s).len c s := by
  cases i with
  | xmd => exact h.2.2
  | h2f p m k d e v => exact h.2.2
  | _ => exact h.elim

/-- A new chain of the same expansion belongs to the command again: a request touches no operand. -/
theorem ChainBelongs.advance {i : Instr} {s : State} {c c' : Chain} {m : List Byte}
    (h : ChainBelongs i c s)
    (hA : ChainAt (expansionOf i s).msg (expansionOf i s).dst (expansionOf i s).len c'
      (requestDigest m { s with chain := some c' })) :
    ChainBelongs i c' (requestDigest m { s with chain := some c' }) := by
  cases i with
  | xmd => exact ⟨h.1, h.2.1, hA⟩
  | h2f p m k d e v => exact ⟨h.1, h.2.1, hA⟩
  | _ => exact h.elim

/-- A command to which a chain belongs takes a turn of that chain (41 R148, 42 R167). -/
theorem ChainBelongs.exec_eq {i : Instr} {s : State} {c : Chain} (h : ChainBelongs i c s)
    (hc : s.chain = some c) : ∃ finish, exec i s = .next (chainTurn c finish s) := by
  cases i with
  | xmd => exact ⟨_, exec_xmd_of_chain hc⟩
  | h2f p m k d e v => exact ⟨_, congrArg Host.Outcome.next (by rw [runH2f, hc])⟩
  | _ => exact h.elim

/-- Settles O42: the turn of the chain the command owns, waiting or at a response before the last. -/
theorem expansionsRequestDigestsInChainOrder :
    Obligations.ExpansionsRequestDigestsInChainOrder := by
  intro i s c hc hB
  obtain ⟨finish, hx⟩ := hB.exec_eq hc
  refine ⟨fun hd => ?_, fun hd hidx => ?_⟩
  · rw [hx, chainTurn_of_waiting finish hd]
  · obtain ⟨d, hd⟩ := Option.ne_none_iff_exists'.1 hd
    obtain ⟨c', m, ht, hidx', hA⟩ := chainTurn_before_last finish hB.chainAt hd hidx
    refine ⟨_, c', hx.trans (congrArg _ ht), rfl, hidx', ?_, hB.advance hA, rfl⟩
    exact hidx' ▸ congrArg some (hA.req rfl)

/-! ## The end of XMD -/

/-- XMD's end on blocks whose first LEN_ARG bytes are the expanded message (41 R148). -/
theorem finishXmd_ends {s : State} {blocks : List Byte}
    (hb : blocks.take s.lenArg.toNat = xmdBytes sha256 s.msg s.dst s.lenArg.toNat) :
    Completed s (finishXmd blocks s) ∧ (finishXmd blocks s).outLen = s.lenArg ∧
      (finishXmd blocks s).out = xmdBytes sha256 s.msg s.dst s.lenArg.toNat ∧
      FrameOut s (finishXmd blocks s) := by
  have hlen := length_xmdBytes length_sha256 s.msg s.dst s.lenArg.toNat
  rw [finishXmd, hb]
  exact ⟨finishOut_completed _ _ s, finishOut_outLen_eq hlen,
    finishOut_out _ _ s (by rw [hlen]; exact s.lenArg.isLt), finishOut_frame _ _ s rfl⟩

/-- Settles O43: the last response completes the blocks, and XMD ends on them. -/
theorem xmdEndsWithExpandedMessage : Obligations.XmdEndsWithExpandedMessage := by
  rintro s c hc ⟨-, hf, hA⟩ hidx hd
  obtain ⟨d, hd⟩ := Option.ne_none_iff_exists'.1 hd
  have h0 : c.idx ≠ 0 := by omega
  have h1 : ¬ c.idx < c.ell := by omega
  obtain ⟨hcompl, hlen, hout, hframe⟩ := finishXmd_ends (chainAt_last hA hd h0 h1)
  have hx := (exec_xmd_of_chain hc).trans (congrArg _ (chainTurn_of_last finishXmd hd h0 h1))
  exact ⟨_, hx, hcompl, hlen,
    expandMessageXmd_eq_ok_iff.2 ⟨by rwa [length_dst], hout.symm⟩, hframe⟩

/-! ## The run of an XMD -/

/-- The sequencer's first turn on an XMD whose tests pass. -/
theorem step_starts_xmd {s : State} {rest : List Turn} (hin : s.inputs = .sequencer :: rest)
    (hrst : s.rst = false) (hb : s.phase = .busy) (hdec : decodeWord s.cmdLast = some .xmd)
    (hc : s.chain = none) (hm : s.msgLen.toNat ≤ s.cfg.caps.msgMax)
    (hf : xmdFailure s.cfg.digestPresent s.dstLen.toNat s.lenArg.toNat = none) :
    step s = .next (startChain s.msg s.dst s.lenArg.toNat { s with inputs := rest }) :=
  (step_sequencer hin hrst hb hdec).trans
    (exec_xmd_of_passes (s := { s with inputs := rest }) hc hm hf)

/-- The end of XMD drops the hidden state, whatever it was. -/
theorem finishXmd_of_hidden (blocks : List Byte) (s : State) (c : Option Chain)
    (q r : Option (List Byte)) :
    finishXmd blocks { s with chain := c, digestReq := q, digestResp := r } = finishXmd blocks s :=
  rfl

/-- Settles O44: the first turn starts the chain, `run_chain` answers its digests, and XMD ends on
blocks that begin with the expanded message. -/
theorem xmdRunComputesExpandMessage : Obligations.XmdRunComputesExpandMessage := by
  intro s hrst hb hdec hc hresp hm hl hd hp hin
  have hf : xmdFailure s.cfg.digestPresent s.dstLen.toNat s.lenArg.toNat = none :=
    hp ▸ xmdFailure_eq_none hl hd
  generalize hn : max ((s.lenArg.toNat + 31) / 32) 1 = n at hin ⊢
  obtain ⟨blocks, c, d, t, hblocks, rfl, hrun⟩ := run_chain (fin := fun _ => finishXmd)
    (fun _ _ => exec_xmd_of_chain) n (startChain s.msg s.dst s.lenArg.toNat { s with inputs := _ })
    _ hrst hb hdec rfl (chainAt_start _ _ _ _ (xmdEll_le_ellMax_iff.2 hl)) (Option.some_ne_none _)
    (hn.trans (Nat.zero_add n).symm) rfl
  obtain ⟨hcompl, hlen, hout, hframe⟩ := finishXmd_ends (s := { s with inputs := [] }) hblocks
  exact ⟨_, (run_succ _ (step_starts_xmd hin hrst hb hdec hc hm hf)).trans (hrun.trans
      (congrArg _ (finishXmd_of_hidden blocks { s with inputs := [] } (some c) none (some d)))),
    ⟨hcompl.phase, hcompl.errCode, hcompl.errInfo, hcompl.hidden⟩, hlen, hout, hframe⟩

end Sys2Proof.Machine

/-! H2F from its tests to its result, and what it reads of the override registers (42_hash_to_field
R162 to R168). -/

namespace Sys2Proof.Machine

/-! ## The tests of H2F -/

section
variable {g : Config.Params} {c : H2fConfig} {count msgLen : Nat}

theorem h2fFailure_of_long_message (hm : g.caps.msgMax < msgLen) :
    h2fFailure g c count msgLen = some (.operandRange .msgLen) := by
  rw [h2fFailure, h2fOperandFailure, if_pos hm]

theorem h2fFailure_of_no_modulus (hm : msgLen ≤ g.caps.msgMax) (hp : c.p = 0) :
    h2fFailure g c count msgLen = some (.operandRange .modulusZero) := by
  rw [h2fFailure, h2fOperandFailure, if_neg (Nat.not_lt.2 hm), if_pos hp]

theorem h2fFailure_of_no_degree (hm : msgLen ≤ g.caps.msgMax) (hp : c.p ≠ 0) (hd : c.m = 0) :
    h2fFailure g c count msgLen = some (.operandRange .degreeZero) := by
  rw [h2fFailure, h2fOperandFailure, if_neg (Nat.not_lt.2 hm), if_neg hp, if_pos hd]

theorem h2fFailure_of_many_elements (hm : msgLen ≤ g.caps.msgMax) (hp : c.p ≠ 0) (hd : c.m ≠ 0)
    (hn : g.caps.elemMax < count * c.m) :
    h2fFailure g c count msgLen = some (.operandRange .elemCount) := by
  rw [h2fFailure, h2fOperandFailure, if_neg (Nat.not_lt.2 hm), if_neg hp, if_neg hd, if_pos hn]

/-- With the operand tests passed only the byte string can fail (42 R167). -/
theorem h2fFailure_eq_uniformFailure (hm : msgLen ≤ g.caps.msgMax) (hp : c.p ≠ 0) (hd : c.m ≠ 0)
    (hn : count * c.m ≤ g.caps.elemMax) :
    h2fFailure g c count msgLen = uniformFailure g.digestPresent c count msgLen := by
  rw [h2fFailure, h2fOperandFailure, if_neg (Nat.not_lt.2 hm), if_neg hp, if_neg hd,
    if_neg (Nat.not_lt.2 hn)]

theorem uniformFailure_of_expand {present : Bool} (hx : c.expand = true) :
    uniformFailure present c count msgLen =
      xmdFailure present c.dstLen (c.lenInBytes count) := if_pos hx

theorem uniformFailure_of_exact_length {present : Bool} (hx : c.expand = false)
    (hl : msgLen = c.lenInBytes count) : uniformFailure present c count msgLen = none := by
  rw [uniformFailure, hx, if_neg Bool.false_ne_true, if_neg (not_not.2 hl)]

theorem uniformFailure_of_other_length {present : Bool} (hx : c.expand = false)
    (hl : msgLen ≠ c.lenInBytes count) :
    uniformFailure present c count msgLen = some (.operandRange .notPreExpanded) := by
  rw [uniformFailure, hx, if_neg Bool.false_ne_true, if_pos hl]

end

/-! ## A turn of H2F -/

section
variable {s : State} {p m k d e v : Bool}

theorem exec_h2f_of_no_chain (hc : s.chain = none) : exec (.h2f p m k d e v) s =
    .next (startH2f (.h2f p m k d e v) (resolveH2f p m k d e v s) s) :=
  congrArg Host.Outcome.next (runH2f_of_no_chain hc p m k d e v)

theorem exec_h2f_of_chain {c : Chain} (hc : s.chain = some c) : exec (.h2f p m k d e v) s =
    .next (chainTurn c (finishExpandedH2f (.h2f p m k d e v) (resolveH2f p m k d e v s)) s) :=
  congrArg Host.Outcome.next (by rw [runH2f, hc])

/-- An H2F whose tests fail ends with the first failure (42 R167). -/
theorem h2f_failsWith {err : CmdError} (hc : s.chain = none)
    (hf : h2fFailure s.cfg (resolveH2f p m k d e v s) s.count.toNat s.msgLen.toNat = some err) :
    FailsWith (.h2f p m k d e v) err s :=
  failsWith_of_run (exec_h2f_of_no_chain hc) (by rw [startH2f, hf])

/-- An expanding H2F whose tests pass starts the chain of its operands (42 R167). -/
theorem exec_h2f_of_expand (hc : s.chain = none) (hx : (resolveH2f p m k d e v s).expand = true)
    (hf : h2fFailure s.cfg (resolveH2f p m k d e v s) s.count.toNat s.msgLen.toNat = none) :
    exec (.h2f p m k d e v) s = .next (startChain s.msg (resolveH2f p m k d e v s).dst
      ((resolveH2f p m k d e v s).lenInBytes s.count.toNat) s) := by
  rw [exec_h2f_of_no_chain hc, startH2f, hf]
  exact congrArg Host.Outcome.next (if_pos hx)

/-- An H2F that does not expand cuts its chunks from the message (42 R164, R167). -/
theorem exec_h2f_of_no_expand (hc : s.chain = none)
    (hx : (resolveH2f p m k d e v s).expand = false)
    (hf : h2fFailure s.cfg (resolveH2f p m k d e v s) s.count.toNat s.msgLen.toNat = none) :
    exec (.h2f p m k d e v) s =
      .next (finishH2f (.h2f p m k d e v) (resolveH2f p m k d e v s) s.msg s) := by
  rw [exec_h2f_of_no_chain hc, startH2f, hf, hx]
  rfl

end

/-- Settles O49: the four operand tests, then the expander's three or the message's exact length. -/
theorem h2fFailsInOrder : Obligations.H2fFailsInOrder := by
  intro s p m k d v e i cf len hc
  refine ⟨fun hm => ?_, fun hm hp => ?_, fun hm hp hd => ?_, fun hm hp hd hn => ?_,
    fun hm hp hd hn => ?_⟩
  · exact h2f_failsWith hc (h2fFailure_of_long_message hm)
  · exact h2f_failsWith hc (h2fFailure_of_no_modulus hm hp)
  · exact h2f_failsWith hc (h2fFailure_of_no_degree hm hp hd)
  · exact h2f_failsWith hc (h2fFailure_of_many_elements hm hp hd hn)
  · have huniform := h2fFailure_eq_uniformFailure hm hp hd hn
    refine ⟨fun hx => ?_, fun hx hl => ?_⟩
    · have hexpand := huniform.trans (uniformFailure_of_expand hx)
      refine ⟨fun hell => ?_, fun hell htag => ?_, fun hell htag hpr => ?_⟩
      · exact h2f_failsWith hc (hexpand.trans (xmdFailure_of_many_blocks hell))
      · exact h2f_failsWith hc
          (hexpand.trans (xmdFailure_of_long_tag (xmdEll_le_ellMax_iff.1 hell) htag))
      · exact h2f_failsWith hc (hexpand.trans
          (hpr ▸ xmdFailure_of_no_digest (xmdEll_le_ellMax_iff.1 hell) htag))
    · exact h2f_failsWith hc (huniform.trans (uniformFailure_of_other_length hx hl))

/-! ## The default configuration -/

section
variable {s : State}

/-- `L` for a modulus of 381 bits and 128 bits of security (42 R163). -/
theorem default_coordBytes (hp : s.ParamsOk) :
    (resolveH2f false false false false false false s).coordBytes = 64 := by
  show ceilDiv (bitlen s.cfg.pDefault + Config.kDefault) 8 = 64
  rw [hp.modulus]
  rfl

theorem default_lenInBytes (hp : s.ParamsOk) (n : Nat) :
    (resolveH2f false false false false false false s).lenInBytes n = 128 * n := by
  rw [H2fConfig.lenInBytes, default_coordBytes hp]
  show n * 2 * 64 = 128 * n
  omega

/-- With the defaults up to 128 tuples of two fit ELEM, so only the expander can fail. -/
theorem default_h2fFailure (hp : s.ParamsOk) (hcaps : s.cfg.caps = Config.defaultCaps)
    (hm : s.msgLen.toNat ≤ 8192) {n : Nat} (hn : n ≤ 128) :
    h2fFailure s.cfg (resolveH2f false false false false false false s) n s.msgLen.toNat =
      xmdFailure s.cfg.digestPresent s.cfg.dstDefault.length (128 * n) := by
  have helems : n * 2 ≤ 256 := by omega
  rw [h2fFailure_eq_uniformFailure (hcaps ▸ hm) hp.prime.ne_zero two_ne_zero (hcaps ▸ helems),
    uniformFailure_of_expand rfl, default_lenInBytes hp]
  rfl

end

/-- Settles O51: 63 tuples take 8064 bytes of the 8160 an expansion may have, 64 take 8192. -/
theorem defaultH2fTakes64BytesPerCoordinate :
    Obligations.DefaultH2fTakes64BytesPerCoordinate := by
  intro s hp hcaps hpresent hm cf
  refine ⟨default_coordBytes hp, default_lenInBytes hp, fun n hn => ?_, ?_⟩
  · rw [default_h2fFailure hp hcaps hm (by omega), hpresent]
    exact xmdFailure_eq_none (by omega) hp.tag
  · rw [default_h2fFailure hp hcaps hm (by omega)]
    exact xmdFailure_of_many_blocks (by decide)

/-! ## The start of an expansion -/

/-- The length an expanding H2F asks for fits the expander once the tests have passed (42 R167). -/
theorem xmdEll_le_of_h2fFailure_none {g : Config.Params} {c : H2fConfig} {count msgLen : Nat}
    (hx : c.expand = true) (hf : h2fFailure g c count msgLen = none) :
    xmdEll (c.lenInBytes count) ≤ 255 :=
  (le_of_xmdFailure_none ((h2fFailure_none hf).2.1 hx)).1

/-- Settles O47: the passed tests start the chain of the resolved tag and length. -/
theorem h2fStartsExpansion : Obligations.H2fStartsExpansion := by
  intro s p m k d v e cf hc hx hf
  exact ⟨_, _, exec_h2f_of_expand hc hx hf, rfl, rfl, rfl,
    ⟨hx, hf, chainAt_start s.msg cf.dst _ s (xmdEll_le_of_h2fFailure_none hx hf)⟩, rfl, rfl⟩

/-! ## The end of H2F -/

section
variable (i : Instr) {c : H2fConfig} (u : List Byte) {s : State}

theorem finishH2f_elemCnt_toNat (hn : s.count.toNat * c.m < 2 ^ 32) :
    (finishH2f i c u s).elemCnt.toNat = s.count.toNat * c.m := by
  have hlen := length_fieldTuples_flatten u c.p c.m c.coordBytes s.count.toNat
  exact (finishElem_elemCnt_toNat i _ s (hlen ▸ hn)).trans hlen

theorem finishH2f_elems (hn : s.count.toNat * c.m < 2 ^ 32) :
    (finishH2f i c u s).elems = (fieldTuples u c.p c.m c.coordBytes s.count.toNat).flatten :=
  finishElem_elems i _ s (by rwa [length_fieldTuples_flatten])

/-- Entry `(a, b)` of ELEM, row by row, is the residue of its chunk (42 R165 to R167). -/
theorem finishH2f_elem {a b : Nat} (ha : a < s.count.toNat) (hb : b < c.m) :
    (finishH2f i c u s).elem (a * c.m + b) =
      reduceChunk (chunkAt u c.coordBytes c.m a b) c.p := by
  obtain ⟨hk, hv⟩ :=
    List.getElem?_eq_some_iff.1 (fieldTuples_flatten_getElem? u c.p c.coordBytes ha hb)
  exact (finishElem_elem i _ s hk).trans hv

/-- An expanding H2F ends on what its blocks begin with (42 R164). -/
theorem finishExpandedH2f_of_take {blocks : List Byte}
    (hb : blocks.take (c.lenInBytes s.count.toNat) = u) :
    finishExpandedH2f i c blocks s = finishH2f i c u s := by
  rw [finishExpandedH2f, hb]

end

/-- Settles O46: without expansion the chunks are those of the message. -/
theorem h2fReducesPreExpandedMessage : Obligations.H2fReducesPreExpandedMessage := by
  intro s p m k d v e cf bytes hn hc hx hm hp hd hmax hlen
  have hf : h2fFailure s.cfg cf s.count.toNat s.msgLen.toNat = none :=
    (h2fFailure_eq_uniformFailure hm hp.ne' hd.ne' hmax).trans
      (uniformFailure_of_exact_length hx hlen)
  exact ⟨_, exec_h2f_of_no_expand hc hx hf, finishElem_completed _ _ s, rfl,
    finishH2f_elemCnt_toNat _ _ hn, fun _ _ => finishH2f_elem _ _, finishElem_frameH2f _ _ s⟩

/-- Settles O48: the last response completes the expanded message, and H2F ends on its chunks. -/
theorem h2fEndsWithFieldElements : Obligations.H2fEndsWithFieldElements := by
  rintro s c p m k d v e cf bytes hn hc ⟨hx, hf, hA⟩ hidx hd
  obtain ⟨resp, hd⟩ := Option.ne_none_iff_exists'.1 hd
  have h0 : c.idx ≠ 0 := by omega
  have h1 : ¬ c.idx < c.ell := by omega
  have hend : exec (.h2f p m k d e v) s = .next (finishH2f (.h2f p m k d e v) cf
      (xmdBytes sha256 s.msg cf.dst (cf.lenInBytes s.count.toNat)) s) := by
    rw [exec_h2f_of_chain hc, chainTurn_of_last _ hd h0 h1,
      finishExpandedH2f_of_take _ _ (chainAt_last hA hd h0 h1)]
  obtain ⟨-, hp, -, -⟩ := h2fOperandFailure_none (h2fFailure_none hf).1
  refine ⟨_, hend, finishElem_completed _ _ s, rfl, finishH2f_elemCnt_toNat _ _ hn,
    fun a b ha hb => ?_, finishElem_frameH2f _ _ s⟩
  have helem := finishH2f_elem (.h2f p m k d e v)
    (xmdBytes sha256 s.msg cf.dst (cf.lenInBytes s.count.toNat)) ha hb
  exact ⟨helem ▸ Nat.mod_lt _ (Nat.pos_of_ne_zero hp), helem⟩

/-! ## The run of an expanding H2F -/

/-- The end of H2F drops the hidden state, whatever it was. -/
theorem finishExpandedH2f_of_hidden (p m k d e v : Bool) (cf : H2fConfig) (blocks : List Byte)
    (s : State) (c : Option Chain) (q r : Option (List Byte)) :
    finishExpandedH2f (.h2f p m k d e v) cf blocks
      { s with chain := c, digestReq := q, digestResp := r } =
        finishExpandedH2f (.h2f p m k d e v) cf blocks s := rfl

/-- With its tests passed an expanding H2F cuts the tuples of `hash_to_field` from the expanded
message (42 R164, R168). -/
theorem hashToField_of_h2fFailure_none {g : Config.Params} {c : H2fConfig} {msg : List Byte}
    {count : Nat} (h : List Byte → List Byte) (hx : c.expand = true)
    (hf : h2fFailure g c count msg.length = none) :
    hashToField g.digestPresent h c msg count =
      .ok (fieldTuples (xmdBytes h msg c.dst (c.lenInBytes count)) c.p c.m c.coordBytes count) :=
  hashToField_eq_ok_iff.2 ⟨hashToFieldFailure_of_h2fFailure hf, by rw [uniformBytes, if_pos hx]⟩

/-- Settles O50: the first turn starts the chain, `run_chain` answers its digests, and H2F ends on
blocks that begin with the expanded message. -/
theorem h2fRunComputesHashToField : Obligations.H2fRunComputesHashToField := by
  intro s p m k d v e cf n hn hrst hb hdec hc hresp hx hf hin
  obtain ⟨blocks, c, r, t, hblocks, rfl, hrun⟩ := run_chain
    (fin := fun s => finishExpandedH2f (.h2f p m k d e v) (resolveH2f p m k d e v s))
    (fun _ _ => exec_h2f_of_chain) (max (xmdEll (cf.lenInBytes s.count.toNat)) 1)
    (startChain s.msg cf.dst (cf.lenInBytes s.count.toNat) { s with inputs := _ }) _
    hrst hb hdec rfl (chainAt_start _ _ _ _ (xmdEll_le_of_h2fFailure_none hx hf))
    (Option.some_ne_none _) (Nat.zero_add _).symm rfl
  have hstart := (step_sequencer hin hrst hb hdec).trans
    (exec_h2f_of_expand (s := { s with inputs := _ }) hc hx hf)
  have hend := (finishExpandedH2f_of_hidden p m k d e v cf blocks { s with inputs := [] } (some c)
    none (some r)).trans (finishExpandedH2f_of_take _ _ hblocks)
  exact ⟨_, _, (run_succ _ hstart).trans (hrun.trans (congrArg _ hend)),
    have hcompl := finishElem_completed (.h2f p m k d e v) _ { s with inputs := [] }
    ⟨hcompl.phase, hcompl.errCode, hcompl.errInfo, hcompl.hidden⟩,
    hashToField_of_h2fFailure_none sha256 hx (by rwa [length_msg]),
    finishH2f_elems _ _ hn, finishElem_frameH2f _ _ _⟩

/-! ## The override registers -/

/-- The four override registers of H2F replaced, each by a function of what it held. -/
def mapOverrides (fp : Nat → Nat) (fm fk fd : Word → Word) (s : State) : State :=
  { s with pOvr := fp s.pOvr, mOvr := fm s.mOvr, kOvr := fk s.kOvr, dstLen := fd s.dstLen }

section
variable (fp : Nat → Nat) (fm fk fd : Word → Word) (p m k d e v : Bool) (c : H2fConfig) (s : State)

/-- Once the configuration is resolved, the first turn of H2F reads no override register. -/
theorem startH2f_mapOverrides :
    startH2f (.h2f p m k d e v) c (mapOverrides fp fm fk fd s) =
      mapOverrides fp fm fk fd (startH2f (.h2f p m k d e v) c s) := by
  have hcfg : (mapOverrides fp fm fk fd s).cfg = s.cfg := rfl
  have hcount : (mapOverrides fp fm fk fd s).count = s.count := rfl
  have hmsgLen : (mapOverrides fp fm fk fd s).msgLen = s.msgLen := rfl
  rw [startH2f, startH2f, hcfg, hcount, hmsgLen]
  cases h2fFailure s.cfg c s.count.toNat s.msgLen.toNat with
  | some err => rfl
  | none => cases c.expand <;> rfl

/-- Nor does a turn of its chain. -/
theorem chainTurn_mapOverrides (ch : Chain) :
    chainTurn ch (finishExpandedH2f (.h2f p m k d e v) c) (mapOverrides fp fm fk fd s) =
      mapOverrides fp fm fk fd (chainTurn ch (finishExpandedH2f (.h2f p m k d e v) c) s) := by
  have hresp : (mapOverrides fp fm fk fd s).digestResp = s.digestResp := rfl
  cases hd : s.digestResp with
  | none => rw [chainTurn_of_waiting _ hd, chainTurn_of_waiting _ (hresp.trans hd)]
  | some r =>
    by_cases h0 : ch.idx = 0
    · rw [chainTurn_of_first _ hd h0, chainTurn_of_first _ (hresp.trans hd) h0]
      rfl
    · by_cases h1 : ch.idx < ch.ell
      · rw [chainTurn_of_next _ hd h0 h1, chainTurn_of_next _ (hresp.trans hd) h0 h1]
        rfl
      · rw [chainTurn_of_last _ hd h0 h1, chainTurn_of_last _ (hresp.trans hd) h0 h1]
        rfl

variable {p m k d e v s}

/-- H2F does the same with other contents of the override registers that resolve to the same
configuration, and keeps them (42 R162, 70_reset R273). -/
theorem exec_h2f_mapOverrides {t : State}
    (hcf : resolveH2f p m k d e v (mapOverrides fp fm fk fd s) = resolveH2f p m k d e v s)
    (ht : exec (.h2f p m k d e v) s = .next t) :
    exec (.h2f p m k d e v) (mapOverrides fp fm fk fd s) =
      .next (mapOverrides fp fm fk fd t) := by
  cases hc : s.chain with
  | none =>
    have hc' : (mapOverrides fp fm fk fd s).chain = none := hc
    cases (exec_h2f_of_no_chain hc).symm.trans ht
    rw [exec_h2f_of_no_chain hc', hcf, startH2f_mapOverrides]
  | some ch =>
    have hc' : (mapOverrides fp fm fk fd s).chain = some ch := hc
    cases (exec_h2f_of_chain hc).symm.trans ht
    rw [exec_h2f_of_chain hc', hcf, chainTurn_mapOverrides]

end

/-- Settles O52: without its OVR bit a register does not enter the resolved configuration. -/
theorem overridesAreReadOnlyWhenSelected : Obligations.OverridesAreReadOnlyWhenSelected := by
  intro s t a b c d e x y
  exact ⟨exec_h2f_mapOverrides (fun _ => y) id id id rfl,
    exec_h2f_mapOverrides id (fun _ => x) id id rfl,
    exec_h2f_mapOverrides id id (fun _ => x) id rfl,
    exec_h2f_mapOverrides id id id (fun _ => x) rfl⟩

end Sys2Proof.Machine

/-! The LimbCodec commands: the limbs B2L writes, the integer L2B reads, the entries HEX2BYTEINTS
writes, and the error of each test (43_limbcodec R180 to R186). -/

namespace Sys2Proof.Machine

/-! ## Integers into ELEM -/

theorem endWithElems_of_ok {i : Instr} {r : Except CmdError (List Nat)} {vs : List Nat}
    (h : r = .ok vs) (s : State) : endWithElems i r s = finishElem i vs s := by rw [h, endWithElems]

/-- A count that a register holds is the ELEM_CNT of a result of that length. -/
theorem finishElem_elemCnt_eq {i : Instr} {vs : List Nat} {s : State} {w : Word}
    (h : vs.length = w.toNat) : (finishElem i vs s).elemCnt = w := by
  rw [finishElem_elemCnt, h, BitVec.ofNat_toNat, BitVec.setWidth_eq]

/-! ## The tests of limb width and count -/

section
variable {c : Config.Capacities} {n : Nat}

theorem limbWidthOk_eq_false (h : n = 0 ∨ c.nMax < n) : limbWidthOk c n = false := by
  rw [← Bool.not_eq_true, limbWidthOk_iff]
  omega

theorem limbWidthOk_ne_false (h : 1 ≤ n) (h' : n ≤ c.nMax) : limbWidthOk c n ≠ false :=
  ne_false_of_eq_true ((limbWidthOk_iff c n).2 ⟨h, h'⟩)

theorem limbCountOk_eq_false (h : n = 0 ∨ c.kMax < n) : limbCountOk c n = false := by
  rw [← Bool.not_eq_true, limbCountOk_iff]
  omega

theorem limbCountOk_ne_false (h : 1 ≤ n) (h' : n ≤ c.kMax) : limbCountOk c n ≠ false :=
  ne_false_of_eq_true ((limbCountOk_iff c n).2 ⟨h, h'⟩)

end

/-! ## B2L -/

@[simp] theorem getElem_limbsOf {n k x i : Nat} (h : i < (limbsOf n k x).length) :
    (limbsOf n k x)[i] = x / 2 ^ (n * i) % 2 ^ n := by
  simp [limbsOf]

/-- A number that does not fit has no limbs (43 R181). -/
theorem bigintToLimbs_of_ge {n k x : Nat} (hx : 2 ^ (n * k) ≤ x) :
    bigintToLimbs n k x = .error .capacityOverflow := if_pos hx

/-- With a limb width and count in range, B2L ends as `bigintToLimbs` does (43 R182). -/
theorem runB2l_of_range {s : State} (hn : 1 ≤ s.limbN.toNat) (hn' : s.limbN.toNat ≤ s.cfg.caps.nMax)
    (hk : 1 ≤ s.limbK.toNat) (hk' : s.limbK.toNat ≤ s.cfg.caps.kMax) :
    runB2l s = endWithElems .b2l (bigintToLimbs s.limbN.toNat s.limbK.toNat s.bigx) s :=
  (if_neg (limbWidthOk_ne_false hn hn')).trans (if_neg (limbCountOk_ne_false hk hk'))

/-- Settles O54: `limbsOf` limb by limb, the two tests of range, and the overflow of
`bigintToLimbs`. -/
theorem b2lWritesLittleEndianLimbs : Obligations.B2lWritesLittleEndianLimbs := by
  refine ⟨by decide, fun s => ⟨fun hn hn' hk hk' hx => ?_, fun h => ?_, fun hn hn' h => ?_,
    fun hn hn' hk hk' hx => ?_⟩⟩
  · have hrun : runB2l s = finishElem .b2l (limbsOf s.limbN.toNat s.limbK.toNat s.bigx) s :=
      (runB2l_of_range hn hn' hk hk').trans (endWithElems_of_ok (bigintToLimbs_of_lt hx) s)
    refine ⟨_, congrArg Host.Outcome.next hrun, finishElem_completed _ _ s,
      finishElem_elemCnt_eq (length_limbsOf _ _ _), fun i hi => ?_, finishElem_frame _ _ s rfl⟩
    rw [finishElem_elem _ _ _ (by rwa [length_limbsOf]), getElem_limbsOf]
  · exact failsWith_of_run rfl (if_pos (limbWidthOk_eq_false h))
  · exact failsWith_of_run rfl
      ((if_neg (limbWidthOk_ne_false hn hn')).trans (if_pos (limbCountOk_eq_false h)))
  · exact failsWith_of_run rfl
      ((runB2l_of_range hn hn' hk hk').trans (endWithElems_of_error (bigintToLimbs_of_ge hx) s))

/-! ## L2B -/

/-- The integer of `m` limbs given by index (43 R183). -/
theorem limbsToBigint_map_range (n : Nat) (f : Nat → Nat) (m : Nat) :
    limbsToBigint n ((List.range m).map f) = ∑ k ∈ Finset.range m, f k * 2 ^ (n * k) := by
  induction m generalizing f with
  | zero => rfl
  | succ m ih =>
    rw [List.range_succ_eq_map, List.map_cons, List.map_map, limbsToBigint, ih, Finset.mul_sum,
      Finset.sum_range_succ', Nat.mul_zero, Nat.pow_zero, Nat.mul_one, Nat.add_comm]
    refine congrArg (· + f 0) (Finset.sum_congr rfl fun k _ => ?_)
    rw [Function.comp_apply, Nat.mul_succ, Nat.pow_add]
    ring

/-- With a limb width and count in range, L2B tests the limbs and then ends with their integer
(43 R184). -/
theorem runL2b_of_range {s : State} (hn : 1 ≤ s.limbN.toNat) (hn' : s.limbN.toNat ≤ s.cfg.caps.nMax)
    (hc : 1 ≤ s.elemCnt.toNat) (hc' : s.elemCnt.toNat ≤ s.cfg.caps.kMax) :
    runL2b s = if s.elems.all (fun l => decide (l < 2 ^ s.limbN.toNat)) = false then
      failCommand .l2b (.operandRange .limbTooLarge) s
    else finishBigx .l2b (limbsToBigint s.limbN.toNat s.elems) s :=
  (if_neg (limbWidthOk_ne_false hn hn')).trans (if_neg (limbCountOk_ne_false hc hc'))

/-- Settles O55: `limbsToBigint` of ELEM as a sum, the two tests of range, and that of the limbs. -/
theorem l2bSumsLimbs : Obligations.L2bSumsLimbs := by
  refine ⟨by decide, fun s => ⟨fun hn hn' hc hc' hlt => ?_, fun h => ?_, fun hn hn' h => ?_,
    fun k hn hn' hc' hk hge => ?_⟩⟩
  · have hfit : s.elems.all (fun l => decide (l < 2 ^ s.limbN.toNat)) = true := by
      simpa [State.elems] using hlt
    have hrun : runL2b s = finishBigx .l2b (limbsToBigint s.limbN.toNat s.elems) s :=
      (runL2b_of_range hn hn' hc hc').trans (if_neg (ne_false_of_eq_true hfit))
    exact ⟨_, congrArg Host.Outcome.next hrun, finishBigx_completed _ _ s,
      limbsToBigint_map_range _ s.elem _, finishBigx_frame _ _ s rfl rfl⟩
  · exact failsWith_of_run rfl (if_pos (limbWidthOk_eq_false h))
  · exact failsWith_of_run rfl
      ((if_neg (limbWidthOk_ne_false hn hn')).trans (if_pos (limbCountOk_eq_false h)))
  · have hlarge : s.elems.all (fun l => decide (l < 2 ^ s.limbN.toNat)) = false :=
      List.all_eq_false.2 ⟨_, elem_mem_elems hk, by simpa using hge⟩
    exact failsWith_of_run rfl
      ((runL2b_of_range hn hn' (by omega) hc').trans (if_pos hlarge))

/-! ## HEX2BYTEINTS -/

theorem hexToByteInts_of_digits {hex : List Byte} (heven : hex.length % 2 = 0)
    (h : ∀ c ∈ hex, hexDigit? c ≠ none) :
    hexToByteInts hex = .ok ((hexPairs hex).map BitVec.toNat) := by
  rw [hexToByteInts, hexToBytes_of_digits heven h]

/-- HEX2BYTEINTS on a message of hex digits ends with the values of its pairs (43 R186). -/
theorem runHex2byteints_of_digits {s : State} (hm : s.msgLen.toNat ≤ s.cfg.caps.msgMax)
    (he : s.msgLen.toNat / 2 ≤ s.cfg.caps.elemMax) (heven : s.msgLen.toNat % 2 = 0)
    (hd : ∀ k, k < s.msgLen.toNat → hexDigit? (s.msgByte k) ≠ none) :
    runHex2byteints s = finishElem .hex2byteints ((hexPairs s.msg).map BitVec.toNat) s := by
  have hmem : ∀ c ∈ s.msg, hexDigit? c ≠ none := by simpa [State.msg] using hd
  exact (if_neg (Nat.not_lt.2 hm)).trans ((if_neg (Nat.not_lt.2 he)).trans
    (endWithElems_of_ok (hexToByteInts_of_digits (by rwa [length_msg]) hmem) s))

/-- Settles O56: entry `k` of the result is the value of the pair at index `2k`. -/
theorem hex2byteintsKeepsStringOrder : Obligations.Hex2byteintsKeepsStringOrder := by
  intro s hm he heven hd
  have hlen : ((hexPairs s.msg).map BitVec.toNat).length = s.msgLen.toNat / 2 := by
    rw [List.length_map, length_hexPairs, length_msg]
  refine ⟨_, congrArg Host.Outcome.next (runHex2byteints_of_digits hm he heven hd),
    finishElem_completed _ _ s, ?_, fun k hk => ?_, finishElem_frame _ _ s rfl⟩
  · have hw := s.msgLen.isLt
    rw [finishElem_elemCnt_toNat _ _ _ (by omega), hlen]
  · obtain ⟨hi, h0⟩ := Option.ne_none_iff_exists'.1 (hd (2 * k) (by omega))
    obtain ⟨lo, h1⟩ := Option.ne_none_iff_exists'.1 (hd (2 * k + 1) (by omega))
    have hpair := hexPairs_getElem? s.msg (k := k) (by rw [length_msg]; omega)
    rw [getElem_msg, getElem_msg] at hpair
    obtain ⟨_, hbyte⟩ := List.getElem?_eq_some_iff.1 hpair
    refine ⟨hi, lo, h0, h1, ?_⟩
    rw [finishElem_elem _ _ _ (by rwa [hlen]), List.getElem_map, hbyte, toNat_hexPair h0 h1]

end Sys2Proof.Machine

/-! What a step does by the agent, how a CMD write is handled, and what a command leaves alone
(10_state R20, 20_memory R68, R77, 44_system R200 to R205). -/

namespace Sys2Proof.Machine

/-! ## Steps outside reset -/

section

variable {s : State} {rest : List Turn}

/-- A host write to CMD is handled by the phase (44_system R200). -/
theorem step_write_cmd {w : Word} (hr : s.rst = false) (hi : s.inputs = .write 0 w :: rest) :
    step s = issue w { s with inputs := rest } :=
  (step_cons hi).trans ((if_neg (by simp [hr])).trans (if_pos rfl))

/-- A host write to another offset reaches the port (20_memory R70). -/
theorem step_write_port {a : PortAddr} {v : Word} (hr : s.rst = false)
    (hi : s.inputs = .write a v :: rest) (ha : a ≠ 0) :
    step s = .next (portWrite (4 * a.toNat) v { s with inputs := rest }) :=
  (step_cons hi).trans ((if_neg (by simp [hr])).trans (if_neg ha))

/-- The engine's turn with or without a request outstanding (60_exceptions R245). -/
theorem step_engine_of_free (hr : s.rst = false) (hi : s.inputs = .engine :: rest) :
    step s = .next (engineTurn { s with inputs := rest }) :=
  (step_cons hi).trans (if_neg (by simp [hr]))

/-- Outside BUSY the sequencer waits for a CMD write (10_state R24, 60_exceptions R246). -/
theorem sequencerTurn_of_not_busy (hb : s.phase ≠ .busy) : sequencerTurn s = .next s := if_neg hb

theorem step_sequencer_of_not_busy (hi : s.inputs = .sequencer :: rest) (hb : s.phase ≠ .busy) :
    step s = .next { s with inputs := rest } := by
  by_cases hr : s.rst = true
  · exact step_sequencer_of_held hr hi
  · exact (step_cons hi).trans ((if_neg hr).trans
      (sequencerTurn_of_not_busy (s := { s with inputs := rest }) hb))

theorem step_nil (hi : s.inputs = []) : step s = .next s := by
  unfold step
  rw [hi]

end

/-! ## A CMD write by phase -/

section

variable {s : State} {w : Word}

/-- In ERR every word but CLR's is dropped and sets OVR (44_system R200 (2)). -/
theorem issue_of_err (hp : s.phase = .err) (hw : w ≠ clrWord) :
    issue w s = .next { s with ovr := true } := by
  unfold issue
  rw [hp]
  exact if_neg hw

/-- An illegal word raises IllegalCommand (44_system R200 (3), 60_exceptions R234). -/
theorem issue_of_illegal (hp : s.phase = .idle ∨ s.phase = .done) (hw : decodeWord w = none) :
    issue w s = .next (raiseError (.illegalCommand w) { s with cmdLast := w }) := by
  unfold issue
  rcases hp with hp | hp <;> rw [hp, hw]

/-- Outside BUSY the CLR word runs CLR at once (44_system R200, R205). -/
theorem issue_clrWord (hp : s.phase ≠ .busy) :
    issue clrWord s = exec .clr { s with cmdLast := clrWord } := by
  unfold issue
  cases h : s.phase with
  | busy => exact absurd h hp
  | err => exact if_pos rfl
  | idle | done => rw [decodeWord_clrWord]

/-- Every other legal word is accepted (44_system R200, R201). -/
theorem issue_of_legal {i : Instr} (hp : s.phase = .idle ∨ s.phase = .done)
    (hw : decodeWord w = some i) (hi : i ≠ .clr) : issue w s = .next (accept i w s) := by
  -- `simp` takes `hi` from the context to leave out the arm of CLR
  unfold issue
  rcases hp with hp | hp <;> simp only [hp, hw]

end

/-! ## CLR and acceptance -/

/-- What CLR leaves (44_system R205). -/
theorem clearStatus_cleared (s : State) : Cleared s (clearStatus s) where
  phase := rfl
  errCode := rfl
  errInfo := rfl
  ovr := rfl
  outLen := rfl
  elemCnt := rfl
  bigx := rfl
  operands := by constructor <;> intros <;> rfl
  elem _ := rfl

/-- The destinations of a command are no operands (44_system R201). -/
theorem emptyDests_keepsOperands (i : Instr) (s : State) : KeepsOperands s (emptyDests i s) := by
  constructor <;> simp

/-- What acceptance leaves (44_system R201). -/
theorem accept_accepted (i : Instr) (w : Word) (s : State) : Accepted i w s (accept i w s) where
  phase := by simp [accept]
  errCode := by simp [accept]
  errInfo := by simp [accept]
  outLen := by simp [accept]
  elemCnt := by simp [accept]
  bigx := by simp [accept]
  hidden := ⟨rfl, rfl, rfl⟩
  operands :=
    { emptyDests_keepsOperands i { s with
        cmdLast := w, phase := .busy, errCode := 0, errInfo := 0 } with }
  outByte h k := emptyDests_outByte h _ k
  elem h e := emptyDests_elem h _ e

/-- Settles O4: the step is the turn at the head of the list, and CLR's word is the one `issue` runs. -/
theorem stepRunsTheDecodedCommand : Obligations.StepRunsTheDecodedCommand := by
  intro s rest
  refine ⟨fun i hr hi hb hd => step_sequencer hi hr hb hd, fun hr hi hb => ?_,
    fun a v hr hi ha => step_write_port hr hi ha, fun a hi => step_cons hi,
    step_engine_of_free, step_cons, step_cons, step_sequencer_of_not_busy, step_nil⟩
  exact (step_write_cmd hr hi).trans (issue_clrWord (s := { s with inputs := rest }) hb)

/-- Settles O6: each phase's case of `issue`. -/
theorem cmdWriteIsHandledByPhase : Obligations.CmdWriteIsHandledByPhase := by
  intro s w rest hr hi s0
  rw [step_write_cmd hr hi]
  refine ⟨fun hp => issue_of_busy (s := s0) hp w, fun hp hw => issue_of_err (s := s0) hp hw,
    fun hp hw => issue_of_illegal (s := s0) hp hw, fun hp hw => ?_, fun i hp hw hclr => ?_⟩
  · subst hw
    exact ⟨_, issue_clrWord (s := s0) hp, clearStatus_cleared _⟩
  · exact ⟨_, issue_of_legal (s := s0) hp hw hclr, accept_accepted i w s0⟩

/-- Settles O7: the meaning of CLR is `clearStatus`, which the CMD write outside BUSY runs. -/
theorem clrClearsStatusOnly : Obligations.ClrClearsStatusOnly := by
  refine ⟨fun s => ⟨_, rfl, clearStatus_cleared s⟩, fun s rest hr hi => ?_⟩
  rw [step_write_cmd hr hi]
  exact ⟨fun hb => ⟨_, issue_clrWord (s := { s with inputs := rest }) hb, clearStatus_cleared _⟩,
    fun hb => issue_of_busy (s := { s with inputs := rest }) hb _⟩

/-! ## What a command leaves alone -/

/-- What a command other than CLR answers is one of the ends of its turn. -/
theorem ends_of_exec {i : Instr} {s t : State} (hi : i ≠ .clr) (ht : exec i s = .next t) :
    Ends i s t := by
  obtain ⟨u, hu, hends⟩ := exec_ends hi s
  obtain rfl : t = u := Host.Outcome.next.inj (ht.symm.trans hu)
  exact hends

/-- The hidden state of an expansion is no operand (10_state R50). -/
theorem keepsOperands_hidden (s : State) (c : Option Chain) (q r : Option (List Byte)) :
    KeepsOperands s { s with chain := c, digestReq := q, digestResp := r } := by
  constructor <;> intros <;> rfl

/-- No turn of the sequencer on a command changes an operand (44_system R202). -/
theorem Ends.keepsOperands {i : Instr} {s t : State} (he : Ends i s t) : KeepsOperands s t := by
  cases he with
  | fails e _ => exact (failCommand_frame i e s).operands
  | out bs _ _ only => exact (finishOut_frame i bs s only).operands
  | elems vs _ _ _ => exact finishElem_operands i vs s
  | bigx v _ noOut noElem _ => exact (finishBigx_frame i v s noOut noElem).operands
  | startsXmd _ _ _ _ => exact keepsOperands_hidden s _ _ _
  | startsH2f _ _ _ _ _ _ _ _ _ _ => exact keepsOperands_hidden s _ _ _
  | waits _ _ _ => exact keepsOperands_hidden s s.chain s.digestReq s.digestResp
  | asksFirst _ _ _ _ _ => exact keepsOperands_hidden s _ _ _
  | asksNext _ _ _ _ _ _ => exact keepsOperands_hidden s _ _ _
  | endsXmd c d _ _ _ _ _ => exact (finishOut_frame .xmd _ s rfl).operands
  | endsH2f _ _ _ _ _ _ _ _ _ _ _ _ _ => exact finishElem_operands i _ s

/-- Settles O12: every end of a command's turn keeps the operands. -/
theorem commandsKeepTheirOperands : Obligations.CommandsKeepTheirOperands :=
  fun _ _ _ hi ht => (ends_of_exec hi ht).keepsOperands

/-- Settles O23: of the ends of a command's turn only `failCommand` is in ERR, and CLR never is. -/
theorem failingCommandWritesNothing : Obligations.FailingCommandWritesNothing := by
  intro i s t hb ht herr
  by_cases hi : i = .clr
  · subst hi
    cases ht
    cases herr
  · rcases (ends_of_exec hi ht).outcome with ⟨hsame, -⟩ | hdone | ⟨e, -, rfl⟩
    · exact nomatch herr.symm.trans (hsame.trans hb)
    · exact nomatch herr.symm.trans hdone.phase
    · exact failCommand_frame i e s

/-! ## Host reads -/

/-- The commands with destination OUT (44_system R201). -/
theorem targetsOut_iff (i : Instr) : targetsOut i = true ↔
    i ∈ [.hex2bytes, .bytes2hex, .i2osp, .concat0, .concat1, .concat2, .str2bytes, .xmd] ∨
      ∃ p m k d e v, i = .h2f p m k d e v := by
  cases i <;> simp [targetsOut]

/-- The commands with destination ELEM (44_system R201). -/
theorem targetsElem_iff (i : Instr) : targetsElem i = true ↔
    i ∈ [.b2l, .hex2byteints] ∨ ∃ p m k d e v, i = .h2f p m k d e v := by
  cases i <;> simp [targetsElem]

/-- The commands with destination BIGX (44_system R201). -/
theorem targetsBigx_iff (i : Instr) : targetsBigx i = true ↔ i ∈ [.os2ip, .l2b] := by
  cases i <;> simp [targetsBigx]

/-- A word of the window is a destination only in the regions the command targets (20_memory R77). -/
theorem destWord_eq_false {c : Config.Capacities} {i : Instr} {off : Nat}
    (hout : 0x3000 ≤ off → off < 0x5000 → off - 0x3000 < c.outMax → targetsOut i = false)
    (helem : 0x8000 ≤ off → off < 0xC000 → (off - 0x8000) / 64 < c.elemMax →
      32 * (off % 64 / 4) < c.ew → targetsElem i = false)
    (hbigx : 0x100 ≤ off → off < 0x180 → targetsBigx i = false) : destWord c i off = false := by
  rw [← Bool.not_eq_true]
  simp only [destWord, Bool.or_eq_true, Bool.and_eq_true, inOut_iff, inElem_iff, decide_eq_true_eq]
  rintro ((⟨ht, ⟨h, h'⟩, hm⟩ | ⟨ht, ⟨⟨h, h'⟩, hm⟩, hw⟩) | ⟨⟨ht, h⟩, h'⟩)
  · exact Bool.false_ne_true ((hout h h' hm).symm.trans ht)
  · exact Bool.false_ne_true ((helem h h' hm hw).symm.trans ht)
  · exact Bool.false_ne_true ((hbigx h h').symm.trans ht)

/-- Only a destination of the running command is hidden (20_memory R77). -/
theorem hiddenFromHost_eq_false {s : State} {off : Nat}
    (h : ∀ i, s.phase = .busy → decodeWord s.cmdLast = some i →
      destWord s.cfg.caps i off = false) : s.hiddenFromHost off = false := by
  unfold State.hiddenFromHost
  split
  · next i hb hi => exact h i hb hi
  · rfl

/-- A read changes the read data and the count of free values alone (20_memory R68). -/
theorem portRead_eq (off : Nat) (s : State) : ∃ r d,
    portRead off s = { s with rdata := r, draws := d } ∧
      (s.hiddenFromHost off = false → r = s.windowWord off ∧ d = s.draws) := by
  cases h : s.hiddenFromHost off with
  | true => exact ⟨_, _, if_pos h, fun hf => nomatch hf⟩
  | false => exact ⟨_, s.draws, portRead_of_visible h, fun _ => ⟨rfl, rfl⟩⟩

/-- Settles O14: the destinations command by command, and a word outside them is not hidden. -/
theorem hostReadsHaveNoSideEffect : Obligations.HostReadsHaveNoSideEffect := by
  refine ⟨fun i => ⟨targetsOut_iff i, targetsElem_iff i, targetsBigx_iff i⟩,
    fun s a rest hi => ?_⟩
  obtain ⟨r, d, hread, hvisible⟩ := portRead_eq (4 * a.toNat) { s with inputs := rest }
  refine ⟨r, d, (step_cons hi).trans (congrArg Host.Outcome.next hread), fun hdest => ?_⟩
  refine hvisible (hiddenFromHost_eq_false fun i hb hd => ?_)
  obtain ⟨hout, helem, hbigx⟩ := hdest i hb hd
  refine destWord_eq_false hout helem fun h h' => ?_
  obtain ⟨hos, hl⟩ := hbigx h h'
  simp [← Bool.not_eq_true, targetsBigx_iff, hos, hl]

end Sys2Proof.Machine

/-! The digest `H` = SHA-256: its padding, its length, two of its check values (45_sha256 R215 to R222). -/

namespace Sys2Proof.Machine

/-! ## Padding -/

/-- The padding as one `++` chain with the message and its `80` in front (45_sha256 R220). -/
theorem shaPad_eq (s : List Byte) : shaPad s = (s ++ [0x80]) ++
    (zeroBytes ((119 - s.length % 64) % 64) ++ beBytes (8 * s.length) 8) :=
  List.append_assoc ..

theorem length_shaPad (s : List Byte) :
    (shaPad s).length = s.length + 1 + (119 - s.length % 64) % 64 + 8 := by
  simp [shaPad]; omega

/-- The bytes between the `80` and the bit length are zeros (45_sha256 R220). -/
theorem getElem?_shaPad_between {s : List Byte} {k : Nat} (h : s.length < k)
    (h' : k + 8 < (shaPad s).length) : (shaPad s)[k]? = some 0 := by
  have hfront : (s ++ [(0x80 : Byte)]).length = s.length + 1 := List.length_append
  have hzero : k - (s ++ [(0x80 : Byte)]).length < (119 - s.length % 64) % 64 := by
    rw [length_shaPad] at h'
    omega
  rw [shaPad_eq, List.getElem?_append_right (by omega),
    List.getElem?_append_left (by rwa [length_zeroBytes]), zeroBytes,
    List.getElem?_replicate_of_lt hzero]

/-- Settles O38: the length of each of the four parts, the first and the last part, and the zeros. -/
theorem digestPaddingFillsBlocks : Obligations.DigestPaddingFillsBlocks := by
  intro s
  have hlen := length_shaPad s
  refine ⟨by omega, ?_, by omega, fun k => getElem?_shaPad_between, ?_⟩
  · rw [shaPad_eq]
    exact List.take_left' List.length_append
  · refine List.drop_left' ?_
    simp only [List.length_append, List.length_singleton, length_zeroBytes]
    omega

/-! ## Digests -/

/-- Settles O36: the output is eight words of four bytes. -/
theorem digestIsThirtyTwoBytes : Obligations.DigestIsThirtyTwoBytes := length_sha256

/-- Settles O37: the kernel evaluates the compression of the one block of each message. -/
theorem digestCheckValues : Obligations.DigestCheckValues := by
  constructor
  · decide +kernel
  · decide +kernel

end Sys2Proof.Machine

/-! Errors: what a command may raise and raises again, how phase ERR is left, and the interrupt line; the
engine's answers; no turn stops the unit (60_exceptions R230 to R246). -/

namespace Sys2Proof.Machine

/-! ## The interrupt line and the codes of errors -/

/-- Settles O21: STATUS has DONE and ERR exactly in the phases of these names. -/
theorem irqFollowsStatusAndEnables : Obligations.IrqFollowsStatusAndEnables := by
  refine fun s => ⟨rfl, ?_⟩
  rw [irq, getLsbD_statusWord, getLsbD_statusWord]
  simp

/-- Settles O22: the tables of codes and sub-codes; an index below `2^32` and the saturated `ell` fit the
register. -/
theorem errorCodesAndDetails : Obligations.ErrorCodesAndDetails := by
  refine ⟨⟨rfl, rfl⟩, fun t => ⟨rfl, fun ht => ?index⟩, ⟨rfl, rfl⟩, ⟨rfl, rfl⟩,
    fun ell => ⟨rfl, ?saturated⟩, ⟨rfl, rfl⟩, ⟨rfl, rfl⟩, fun _ => rfl, rfl, fun _ => ⟨rfl, rfl⟩⟩
  case index => exact (BitVec.toNat_ofNat ..).trans (Nat.mod_eq_of_lt ht)
  case saturated => exact (BitVec.toNat_ofNat ..).trans (Nat.mod_eq_of_lt (by omega))

/-! ## The engine -/

section

variable {s : State}

theorem engineTurn_of_no_request (hq : s.digestReq = none) : engineTurn s = s := by
  unfold engineTurn
  rw [hq]

/-- Without a request outstanding the engine's turn is ignored, whatever the level of `rst`
(60_exceptions R245, 70_reset R260). -/
theorem step_engine_of_no_request {rest : List Turn} (hi : s.inputs = .engine :: rest)
    (hq : s.digestReq = none) : step s = .next { s with inputs := rest } := by
  by_cases hr : s.rst = true
  · exact step_engine_of_held hr hi
  · rw [step_engine_of_free (Bool.eq_false_of_not_eq_true hr) hi,
      engineTurn_of_no_request (s := { s with inputs := rest }) hq]

/-- At the release of `rst` the state is that of 10_state R55 (70_reset R260). -/
theorem step_release_of_held {rest : List Turn} (hr : s.rst = true)
    (hi : s.inputs = .release :: rest) : step s =
      .next { State.resetWith s.cfg s.draws with inputs := rest, rdata := s.rdata } :=
  (step_cons hi).trans
    (congrArg Host.Outcome.next (releaseTurn_of_held (s := { s with inputs := rest }) hr))

end

/-- Settles O39: the reset state has no request outstanding, at the assertion of `rst` and at its
release. -/
theorem engineAnswersOutstandingRequest : Obligations.EngineAnswersOutstandingRequest := by
  refine fun s rest => ⟨fun m hr hi hq => step_engine hi hr hq, step_engine_of_no_request,
    fun hi => ⟨_, step_cons hi, step_engine_of_no_request rfl rfl⟩,
    fun hi => ⟨_, _, step_cons hi, step_release_of_held rfl rfl, step_engine_of_no_request rfl rfl⟩⟩

/-! ## No turn stops the unit -/

/-- A CMD write has an effect in every phase (44_system R200, 30_encoding R99). -/
theorem issue_next (w : Word) (s : State) : ∃ t, issue w s = .next t := by
  by_cases hb : s.phase = .busy
  · exact ⟨_, issue_of_busy hb w⟩
  by_cases hw : w = clrWord
  · exact ⟨clearStatus _, hw ▸ issue_clrWord hb⟩
  by_cases herr : s.phase = .err
  · exact ⟨_, issue_of_err herr hw⟩
  have hp : s.phase = .idle ∨ s.phase = .done :=
    match h : s.phase with
    | .idle => .inl rfl
    | .done => .inr rfl
    | .busy => absurd h hb
    | .err => absurd h herr
  cases hd : decodeWord w with
  | none => exact ⟨_, issue_of_illegal hp hd⟩
  | some i => exact ⟨_, issue_of_legal hp hd fun hi => hw (eq_clrWord_of_decodeWord (hi ▸ hd))⟩

/-- In BUSY the sequencer finds a command in CMD_LAST, and every command has a meaning. -/
theorem sequencerTurn_next {s : State} (h : s.PhaseOk) : ∃ t, sequencerTurn s = .next t := by
  by_cases hb : s.phase = .busy
  · obtain ⟨i, hi, hclr, -, -⟩ := h.busy hb
    obtain ⟨t, ht, -⟩ := exec_ends hclr s
    refine ⟨t, ?_⟩
    rw [sequencerTurn, if_pos hb, hi]
    exact ht
  · exact ⟨s, sequencerTurn_of_not_busy hb⟩

theorem takeTurn_next {s : State} (e : Turn) (h : s.PhaseOk) : ∃ t, takeTurn e s = .next t := by
  cases e with
  | write a v =>
    simp only [takeTurn]
    split
    · exact ⟨_, rfl⟩
    · split
      · exact issue_next v s
      · exact ⟨_, rfl⟩
  | sequencer =>
    simp only [takeTurn]
    split
    · exact ⟨_, rfl⟩
    · exact sequencerTurn_next h
  | engine => exact ⟨_, (apply_ite Host.Outcome.next _ s (engineTurn s)).symm⟩
  | read _ | reset | release => exact ⟨_, rfl⟩

/-- Settles O60: PhaseOk, which does not read the turns to come, gives every turn a next state. -/
theorem invariantStatesNeverStop : Obligations.InvariantStatesNeverStop := by
  intro s h
  cases hi : s.inputs with
  | nil => exact ⟨s, step_nil hi⟩
  | cons e rest =>
    rw [step_cons hi]
    exact takeTurn_next e (h.setInputs rest).phase

/-! ## Phase ERR -/

/-- PHASE and the error registers are as before. -/
structure KeepsError (s t : State) : Prop where
  phase : t.phase = s.phase
  errCode : t.errCode = s.errCode
  errInfo : t.errInfo = s.errInfo

theorem writeScalar_keepsError (off : Nat) (v : Word) (s : State) :
    KeepsError s (writeScalar off v s) := by
  unfold writeScalar
  split <;> exact ⟨rfl, rfl, rfl⟩

theorem writeWindow_keepsError (off : Nat) (v : Word) (s : State) :
    KeepsError s (writeWindow off v s) := by
  unfold writeWindow
  split
  · exact writeScalar_keepsError off v s
  · split
    · exact ⟨rfl, rfl, rfl⟩
    · split
      · exact ⟨rfl, rfl, rfl⟩
      · split
        · obtain ⟨m, hm⟩ := writeElemWord_frame off v s
          exact hm ▸ ⟨rfl, rfl, rfl⟩
        · obtain ⟨m, d, hm⟩ := writeBufferWord_frame off v s
          exact hm ▸ ⟨rfl, rfl, rfl⟩

theorem engineTurn_keepsError (s : State) : KeepsError s (engineTurn s) := by
  unfold engineTurn
  split <;> exact ⟨rfl, rfl, rfl⟩

/-- In ERR outside reset every turn but an assertion of `rst` and a write of the CLR word keeps the error
(60_exceptions R239). -/
theorem step_keepsError {s : State} {e : Turn} {rest : List Turn} (hr : s.rst = false)
    (hp : s.phase = .err) (hi : s.inputs = e :: rest) (hreset : e ≠ .reset)
    (hclr : e ≠ .write 0 clrWord) : ∃ t, step s = .next t ∧ KeepsError s t := by
  have hnb : s.phase ≠ .busy := by simp [hp]
  cases e with
  | write a v =>
    by_cases ha : a = 0
    · subst ha
      have hv : v ≠ clrWord := fun h => hclr (h ▸ rfl)
      exact ⟨_, (step_write_cmd hr hi).trans (issue_of_err (s := { s with inputs := rest }) hp hv),
        rfl, rfl, rfl⟩
    · have hwrite := portWrite_of_not_busy (s := { s with inputs := rest }) hnb (4 * a.toNat) v
      obtain ⟨hphase, hcode, hinfo⟩ :=
        writeWindow_keepsError (4 * a.toNat) v { s with inputs := rest }
      exact ⟨_, (step_write_port hr hi ha).trans (congrArg Host.Outcome.next hwrite),
        hphase, hcode, hinfo⟩
  | read a =>
    obtain ⟨r, d, hread, -⟩ := portRead_eq (4 * a.toNat) { s with inputs := rest }
    exact ⟨_, (step_cons hi).trans (congrArg Host.Outcome.next hread), rfl, rfl, rfl⟩
  | sequencer => exact ⟨_, step_sequencer_of_not_busy hi hnb, rfl, rfl, rfl⟩
  | engine =>
    obtain ⟨hphase, hcode, hinfo⟩ := engineTurn_keepsError { s with inputs := rest }
    exact ⟨_, step_engine_of_free hr hi, hphase, hcode, hinfo⟩
  | reset => exact absurd rfl hreset
  | release =>
    have hfree := releaseTurn_of_free (s := { s with inputs := rest }) hr
    exact ⟨_, (step_cons hi).trans (congrArg Host.Outcome.next hfree), rfl, rfl, rfl⟩

/-- Settles O9: in ERR `rst` is not asserted, since the reset state is IDLE. -/
theorem errIsLeftOnlyByClrOrReset : Obligations.ErrIsLeftOnlyByClrOrReset := by
  intro s t hreset hp ht
  have hr : s.rst = false := hreset.rst (by simp [hp])
  cases hi : s.inputs with
  | nil =>
    obtain rfl := Host.Outcome.next.inj ((step_nil hi).symm.trans ht)
    exact .inl ⟨hp, rfl, rfl⟩
  | cons e rest =>
    by_cases hassert : e = .reset
    · exact .inr (.inl ⟨rest, by rw [hassert]⟩)
    by_cases hclr : e = .write 0 clrWord
    · exact .inr (.inr ⟨rest, by rw [hclr]; rfl⟩)
    obtain ⟨u, hu, hphase, hcode, hinfo⟩ := step_keepsError hr hp hi hassert hclr
    obtain rfl := Host.Outcome.next.inj (hu.symm.trans ht)
    exact .inl ⟨hphase.trans hp, hcode, hinfo⟩

/-! ## The errors of a command -/

/-- A turn of the sequencer reaches ERR only by `failCommand`, with an error of the command's row
(60_exceptions R235, R236). -/
theorem failCommand_of_exec {i : Instr} {s t : State} (hi : i ≠ .clr) (hb : s.phase = .busy)
    (ht : exec i s = .next t) (herr : t.phase = .err) :
    ∃ e, mayRaise i (expandsIn i s) e = true ∧ t = failCommand i e s := by
  rcases (ends_of_exec hi ht).outcome with ⟨hsame, -⟩ | hdone | hfail
  · exact nomatch herr.symm.trans (hsame.trans hb)
  · exact nomatch herr.symm.trans hdone.phase
  · exact hfail

/-- Settles O24: a failing end carries the error it raises, and CLR does not end in ERR. -/
theorem commandsRaiseOnlyTabledErrors : Obligations.CommandsRaiseOnlyTabledErrors := by
  intro i s t hb ht herr
  have hi : i ≠ .clr := by
    rintro rfl
    cases ht
    cases herr
  obtain ⟨e, hraise, rfl⟩ := failCommand_of_exec hi hb ht herr
  exact ⟨e, hraise, rfl, rfl⟩

/-! ## The same command again -/

section

variable {s s' : State}

theorem elems_eq_of_elem_eq (hn : s'.elemCnt = s.elemCnt) (he : ∀ e, s'.elem e = s.elem e) :
    s'.elems = s.elems := by
  rw [State.elems, State.elems, hn]
  exact List.map_congr_left fun e _ => he e

/-- L2B in two states that agree on all the limbs it reads, within the capacity of ELEM or not. -/
theorem runL2b_sameResult_of_elems (hc : s'.cfg.caps = s.cfg.caps) (hn : s'.limbN = s.limbN)
    (hk : s'.elemCnt = s.elemCnt) (he : s'.elems = s.elems) :
    SameResult .l2b (runL2b s) (runL2b s') := by
  unfold runL2b
  rw [hc, hn, hk, he]
  exact .ite (fun _ => .fail s s' _) fun _ => .ite (fun _ => .fail s s' _) fun _ =>
    .ite (fun _ => .fail s s' _) fun _ => .finishBigx s s' rfl rfl _

/-- `s'` holds every operand command `i` had in `s`, and ELEM where that is no destination of `i`; OVR and
CMD_LAST, which no command reads, may differ. -/
structure Retried (i : Instr) (s s' : State) : Prop where
  operands : KeepsOperands { s with ovr := s'.ovr, cmdLast := s'.cmdLast } s'
  bigx : s'.bigx = s.bigx
  elemCnt : targetsElem i = false → s'.elemCnt = s.elemCnt
  elem : targetsElem i = false → ∀ e, s'.elem e = s.elem e

/-- The failure, CLR and the acceptance of the same command keep its operands (44_system R201, R203,
R205). -/
theorem retried_accept (i : Instr) (e : CmdError) (w : Word) (s : State) :
    Retried i s (accept i w (clearStatus (failCommand i e s))) where
  operands := by
    constructor
    case msgByte =>
      exact msgByte_congr (by simp [accept, failCommand]) (by simp [accept, failCommand])
    case dstByte =>
      exact dstByte_congr (by simp [accept, failCommand]) (by simp [accept, failCommand])
    all_goals simp [accept, failCommand]
  bigx := by simp [accept, failCommand]
  elemCnt h := by simp [accept, failCommand, h]
  elem h e := (emptyDests_elem h _ e).trans (emptyDests_elem h s e)

/-- The first turn of a command ends alike when it is tried again. Unlike `Machine.exec_sameResult` this
asks nothing of the capacities, since every entry of ELEM is the same. -/
theorem Retried.exec_sameResult {i : Instr} {t t' : State} (h : Retried i s s')
    (hb : s.phase = .busy) (hb' : s'.phase = .busy) (hch : s.chain = none)
    (hch' : s'.chain = none) (ht : exec i s = .next t) (ht' : exec i s' = .next t') :
    SameResult i t t' := by
  obtain ⟨hkeep, hx, hcnt, helem⟩ := h
  have hg : s'.cfg = s.cfg := hkeep.cfg
  have hc : s'.cfg.caps = s.cfg.caps := congrArg _ hg
  have hm : SameMsg s s' := ⟨hkeep.msgLen, fun k _ _ => hkeep.msgByte k⟩
  have htag : SameTag s s' := ⟨hkeep.dstLen, fun k _ _ => hkeep.dstByte k⟩
  cases i <;> cases ht <;> cases ht'
  case clr => exact clearStatus_sameResult s s'
  case hex2bytes => exact runHex2bytes_sameResult hc hm
  case bytes2hex => exact runBytes2hex_sameResult hc hm
  case i2osp => exact runI2osp_sameResult hc hx hkeep.lenArg
  case os2ip => exact runOs2ip_sameResult hc hm
  case concat0 => exact .finishOut s s' rfl _
  case concat1 => exact runConcat1_sameResult hc hm
  case concat2 => exact runConcat2_sameResult hc hm htag
  case str2bytes => exact runStr2bytes_sameResult hc ⟨hcnt rfl, fun e _ _ => helem rfl e⟩
  case xmd =>
    rw [runXmd_of_no_chain hch, runXmd_of_no_chain hch']
    exact startXmd_sameResult hc hb hb' hm htag hkeep.lenArg (congrArg _ hg)
  case h2f p m k d e v =>
    have hcf := resolveH2f_congr (s := s) (t := s') (p := p) (m := m) (k := k) (d := d) (e := e)
      (v := v) ⟨hc, hm, hkeep.count, hg, fun _ => hkeep.pOvr, fun _ => hkeep.mOvr,
        fun _ => hkeep.kOvr, fun _ => htag⟩
    rw [runH2f_of_no_chain hch, runH2f_of_no_chain hch', hcf]
    exact startH2f_sameResult _ hb hb' hm hkeep.count hg
  case b2l => exact runB2l_sameResult hc hx hkeep.limbN hkeep.limbK
  case l2b =>
    exact runL2b_sameResult_of_elems hc hkeep.limbN (hcnt rfl)
      (elems_eq_of_elem_eq (hcnt rfl) (helem rfl))
  case hex2byteints => exact runHex2byteints_sameResult hc hm

end

/-- Settles O25: what comes between the two turns keeps the operands, and the error depends on them
alone. -/
theorem retryReproducesTheError : Obligations.RetryReproducesTheError := by
  intro i w s t t1 t2 hi hb hch ht herr hclr ht2
  obtain ⟨e, -, rfl⟩ := failCommand_of_exec hi hb ht herr
  cases hclr
  have hacc := accept_accepted i w (clearStatus (failCommand i e s))
  have hsame := (retried_accept i e w s).exec_sameResult hb hacc.phase hch hacc.hidden.1 ht ht2
  exact ⟨hsame.phase.trans herr, hsame.error herr⟩

end Sys2Proof.Machine
